-- ==== Sys2Proof/Word.lean ====
section
/-!
DEFINITION. The two bit widths of SAC: a 32-bit register value (00_scope.md R3) and a memory byte
(20_memory.md R46).
-/

namespace Sys2Proof

/-- A register value: DATA_W = 32 bits, unsigned (R3). -/
abbrev Word := BitVec 32

/-- One byte of system memory (R46). -/
abbrev Byte := BitVec 8

end Sys2Proof
end

