-- ==== Sys2Proof/Syntax.lean ====
section
/-!
DEFINITION. The six commands of SAC, one constructor per row of spec/opcode_table.json (30_encoding.md R63).
A command word carries no operand fields and no immediates (R66), so no constructor has an argument: every
operand is a register.
-/

namespace Sys2Proof

/-- A command. The mnemonic of the table is in each docstring. -/
inductive Instr where
  /-- NOP, word 0x00000000 (R79). -/
  | nop
  /-- GEN_MASKS, word 0x00000001 (R84). -/
  | genMasks
  /-- CALC_ADDR, word 0x00000002 (R100). -/
  | calcAddr
  /-- PERMUTE_PIXEL, word 0x00000003 (R105). -/
  | permutePixel
  /-- TRANSFORM, word 0x00000004 (R107). -/
  | transform
  /-- BUILD_HEADER, word 0x00000005 (R113). -/
  | buildHeader
  deriving DecidableEq, Repr

end Sys2Proof
end

