-- ==== Sys2Proof/WellFormed.lean ====
section
/-!
DEFINITION. Well-formedness. A command has no operand fields (R66), so every `Instr` is well-formed; what can be
ill-formed is the 32-bit word a host writes to CMD, and `legalWord` is 30_encoding.md R62's predicate on it.
-/

namespace Sys2Proof

/-- R66: a command word carries no operand field and no immediate, so there is nothing to check in a command. -/
abbrev Instr.WellFormed (_ : Instr) : Prop := True

/-- R61: the reserved field RSV, bits [31:8] of a command word. -/
def rsvField (w : Word) : BitVec 24 := w.extractLsb 31 8

/-- R61: the opcode field OPC, bits [7:0] of a command word. -/
def opcField (w : Word) : Byte := w.extractLsb 7 0

/-- R62: `legal(w) = (w[31:8] = 0) and (w[7:0] <= 0x05)`. -/
def legalWord (w : Word) : Bool := rsvField w == 0 && decide ((opcField w).toNat ≤ 0x05)

end Sys2Proof
end

