-- ==== Sys2Proof/Decode.lean ====
section
/-!
DEFINITION. The decoder of CMD32 words, total and rejecting by name (30_encoding.md R61 to R65), and after it the
encoder, written from the same opcode map (R63). The register port is little-endian (20_memory.md R44): a word
presented as four bytes has its byte k at bits [8k+7:8k].
-/

namespace Sys2Proof

/-- Why bytes are no command. R64 gives every illegal word the same outcome, so the two reasons about words
differ in name only. -/
inductive DecodeError where
  /-- Not the four bytes of one 32-bit word (R61: there is no other command length). -/
  | notOneWord
  /-- RSV, bits [31:8], is not zero (R64). -/
  | reservedBits
  /-- OPC is in 0x06..0xFF (R64). -/
  | reservedOpcode
  deriving DecidableEq, Repr

/-- R62, R63: the command a 32-bit word selects, by OPC alone once RSV is zero. -/
def decodeWord (w : Word) : Except DecodeError Instr :=
  if w.extractLsb 31 8 ≠ 0#24 then .error .reservedBits
  else match (w.extractLsb 7 0).toNat with
    | 0x00 => .ok .nop
    | 0x01 => .ok .genMasks
    | 0x02 => .ok .calcAddr
    | 0x03 => .ok .permutePixel
    | 0x04 => .ok .transform
    | 0x05 => .ok .buildHeader
    | _ => .error .reservedOpcode

/-- R44: the word whose byte k is the k-th of four bytes, the first at the lowest offset. -/
def wordOfBytes (b0 b1 b2 b3 : Byte) : Word := b3 ++ b2 ++ b1 ++ b0

/-- R44: byte k of a word, bits [8k+7:8k]. -/
def byteOfWord (w : Word) (k : Nat) : Byte := w.extractLsb' (8 * k) 8

/-- R44, R61: the command four bytes stand for, little-endian; anything but four bytes is no command. -/
def decodeBytes : List Byte → Except DecodeError Instr
  | [b0, b1, b2, b3] => decodeWord (wordOfBytes b0 b1 b2 b3)
  | _ => .error .notOneWord

/-- R63: the opcode OPC of a command. -/
def Instr.opcode : Instr → Byte
  | .nop => 0x00
  | .genMasks => 0x01
  | .calcAddr => 0x02
  | .permutePixel => 0x03
  | .transform => 0x04
  | .buildHeader => 0x05

/-- R61, R63: the full word of a command: RSV zero, then OPC. -/
def encodeWord (i : Instr) : Word := 0#24 ++ i.opcode

/-- R44, R61: the four bytes of a command's word, the first at the lowest offset. -/
def encodeBytes (i : Instr) : List Byte := (List.range 4).map (byteOfWord (encodeWord i))

/-- The command the decoder reads from the instruction whose bits are `w`, of which the table gives `nbits`
(every bit above `nbits` is zero). A command is one 32-bit word (R61), laid out in the port's byte order (R44). -/
def decodeTableWord (nbits w : Nat) : Option Instr :=
  let v := w % 2 ^ nbits
  if v < 2 ^ 32 then
    match decodeBytes ((List.range 4).map (byteOfWord (BitVec.ofNat 32 v))) with
    | .ok i => some i
    | .error _ => none
  else none

end Sys2Proof
end

