-- ==== Sys2Proof/Config.lean ====
section
/-!
DEFINITION. What an implementation fixes: the parameters of 00_scope.md section 4, the two OPEN platform parameters
as plain data (`Platform`), and the free values of the spec as constants without a body.
-/

namespace Sys2Proof

/-- A range of memory-port byte addresses, both ends included. -/
structure AddrRange where
  lo : Nat
  hi : Nat
  deriving DecidableEq, Repr

/-- The OPEN platform parameters (00_scope.md section 4) as plain data, so that a statement about every state is a
statement about every platform. Any predicate on the 2^32 byte addresses is the complement of a finite list of
ranges, so nothing is lost. DESIGN CHOICE, log entry 2. -/
structure Platform where
  /-- REG_BASE: the platform address of register offset 0 (R41). -/
  regBase : Nat
  /-- Where MEM_ADMITS is false: the byte addresses that answer with a bus error (R51). -/
  busErrors : List AddrRange
  deriving DecidableEq, Repr

namespace Config

/-- BPP, bytes per pixel (R4). -/
abbrev bytesPerPixel : Nat := 4

/-- HEADER_SIZE, header bytes (R71). -/
abbrev headerSize : Nat := 36

/-- MAX_TBITS, the largest total mask bit count admitted (D9). -/
abbrev maxTbits : Nat := 30

/-- REG_WINDOW, the register window's size in bytes (R41). -/
abbrev regWindow : Nat := 0x100

/-- 2^ADDR_W, the size of the memory space in bytes (R46). -/
abbrev memSpace : Nat := 2 ^ 32

/-- What a byte of system memory that nothing has written reads as. DESIGN CHOICE (unsafe), log entry 1: the memory
is the platform's (R40) and the spec gives it no contents; 95_test_vectors.md section 3 starts it as 0x00. -/
def unwrittenByte : Byte := 0x00

/-- The platform State.reset stands for. DESIGN CHOICE, log entry 2: MEM_ADMITS true everywhere, as in
95_test_vectors.md, and a window no test vector's buffer touches. No statement rests on it. -/
def resetPlatform : Platform := { regBase := 0xF0000000, busErrors := [] }

/-- The free byte of draw `k` at memory address `a` (R51, R134: the byte "holds any value"). Log entry 5. -/
opaque freeByte : Nat → Nat → Byte

/-- The free register value of draw `k` at register offset `o` (R136: "an unspecified value"). Log entry 6. -/
opaque freeWord : Nat → Nat → Word

end Config

end Sys2Proof
end

