-- ==== Sys2Proof/Machine/State.lean ====
section
/-!
DEFINITION. The state of SAC as plain data: the register set of 10_state.md R15, system memory, the platform's
parameters, and the inputs still to come. With it the names of registers and error codes, the faults and refusals,
and the state after reset.
-/

namespace Sys2Proof.Machine

/-- The registers of R15, in offset order. -/
inductive Reg where
  | cmd | status | width | height | depth | rowPitch | maskX | maskY | maskZ | coordX | coordY | coordZ
  | mortonIndex | dstOffset | srcOffset | pixelIn | pixelOut | srcBase | dstBase | bufLen | payloadLen | hdrBase
  | hdr0 | hdr1 | hdr2 | hdr3 | hdr4 | hdr5 | hdr6 | hdr7 | hdr8
  deriving DecidableEq, Repr

/-- Access types (R16). -/
inductive AccessType where
  /-- Read only: a host write is ignored. -/
  | ro
  /-- Read and write. -/
  | rw
  /-- Write only: a host read returns 0. -/
  | wo
  deriving DecidableEq, Repr

/-- The error codes of STATUS.ERR (R70); no other code is ever written (D44). -/
inductive ErrCode where
  | ok | illegalCmd | dimZero | dimRange | noMasks | coordRange | offsetRange | depth | npot | pitch | len
  | addrRange | overlap | pack | bus | invariant | halted
  deriving DecidableEq, Repr

/-- The nine fields of the header record, in the order and under the names of R71. Field i is HDRi (R37). -/
structure HeaderRecord where
  magic : Word
  totalSize : Word
  headerSize : Word
  common : Word
  dataPtr : Word
  lock : Word
  format : Word
  size : Word
  endOfHeader : Word
  deriving DecidableEq, Repr

/-- The fields of STATUS (R18). Its reserved bits always read 0, so they are not stored. -/
structure Status where
  /-- [0] MASK_VALID (R19). -/
  maskValid : Bool
  /-- [1] FATAL (R20). -/
  fatal : Bool
  /-- [15:8] ERR (R21). -/
  err : BitVec 8
  /-- [21:16] TBITS (R22). -/
  tbits : BitVec 6
  /-- [31:24] LAST_OP (R23). -/
  lastOp : BitVec 8
  deriving DecidableEq, Repr

/-- The 32-bit registers of R15 but CMD, which stores nothing (R17), and STATUS. -/
structure Regs where
  width : Word
  height : Word
  depth : Word
  rowPitch : Word
  maskX : Word
  maskY : Word
  maskZ : Word
  coordX : Word
  coordY : Word
  coordZ : Word
  mortonIndex : Word
  dstOffset : Word
  srcOffset : Word
  pixelIn : Word
  pixelOut : Word
  srcBase : Word
  dstBase : Word
  bufLen : Word
  payloadLen : Word
  hdrBase : Word
  hdr : HeaderRecord
  deriving DecidableEq, Repr

/-- System memory: the bytes that differ from what an unwritten byte reads as, by rising address (`Memory.Wf`). -/
abbrev Memory := List Host.Cell

/-- The direction of a register-port access (R67). -/
inductive Dir where
  | write
  | read
  deriving DecidableEq, Repr

/-- One access a host makes on the register port: REGXACT (R67), with the width the host used (R42) and the
platform address `REG_BASE + offset` it used (R41). `data` is the written value; a read ignores it. -/
structure PortAccess where
  dir : Dir
  bits : Nat
  addr : Nat
  data : Word
  deriving DecidableEq, Repr

/-- One access of another bus master to a byte of system memory (R54, R56). -/
inductive MemAccess where
  | read (addr : Word)
  | write (addr : Word) (data : Byte)
  deriving DecidableEq, Repr

/-- What reaches SAC from outside, one per step. -/
inductive Event where
  /-- A register-port access, with the accesses other masters make to memory while it runs (none, normally). -/
  | port (a : PortAccess) (others : List MemAccess)
  /-- The same, with reset applied before the access completes (R134). -/
  | portReset (a : PortAccess) (others : List MemAccess)
  /-- An access of another bus master to system memory between commands (R54). -/
  | memory (m : MemAccess)
  /-- The reset input is applied (R133). -/
  | reset
  /-- Power-up (R136). -/
  | powerUp
  deriving DecidableEq, Repr

/-- Everything the machine holds. -/
structure State where
  /-- The registers of R15 but STATUS. -/
  regs : Regs
  /-- The STATUS register (R18). -/
  status : Status
  /-- System memory (R46), the platform's own (R40). -/
  mem : Memory
  /-- The platform's OPEN parameters. No step changes them. Log entry 2. -/
  platform : Platform
  /-- The model's own: the events still to come, in the order they are accepted (R45). Log entry 3. -/
  input : List Event
  /-- The model's own: what the register port returned for the last event, if that was a read. Log entry 4. -/
  answer : Option Word
  /-- The model's own: how many free draws have been made. Log entry 5. -/
  draws : Nat
  deriving DecidableEq, Repr

/-- Why the machine stops at a fault. -/
inductive Fault where
  /-- A register-port access that is not an aligned 32-bit access, or a one-byte access of another master into the
  window. Raised by the port. R42: "A model treats such an access as a fault of the issuing host." Safe. -/
  | hostAccess
  /-- A register-port access at a platform address outside the window: no access of this port (R41). Raised by the
  port. Safe: SAC would not see it. -/
  | outsideWindow
  /-- Another agent accessed a byte that the running command reads or writes (R56, R141). Raised by the port. Safe:
  the outcome is outside the spec. -/
  | interference
  deriving DecidableEq, Repr

/-- Why the model gives no meaning. -/
inductive Refusal where
  /-- The command has no meaning yet. Used by no arm of exec. Safe. -/
  | notModelled (mnemonic : String)
  /-- A SAC memory access would land in SAC's own register window. Raised by TRANSFORM and BUILD_HEADER in such a
  configuration, and by a reset that cuts one short there. R52: "This spec does not define it, and a model refuses
  it." Safe. -/
  | ownWindow
  deriving DecidableEq, Repr

/-- The header registers after reset (R38). -/
def HeaderRecord.zero : HeaderRecord :=
  { magic := 0, totalSize := 0, headerSize := 0, common := 0, dataPtr := 0, lock := 0, format := 0, size := 0,
    endOfHeader := 0 }

/-- R15, R38: every register is 0 after reset. -/
def Regs.reset : Regs :=
  { width := 0, height := 0, depth := 0, rowPitch := 0, maskX := 0, maskY := 0, maskZ := 0, coordX := 0, coordY := 0,
    coordZ := 0, mortonIndex := 0, dstOffset := 0, srcOffset := 0, pixelIn := 0, pixelOut := 0, srcBase := 0,
    dstBase := 0, bufLen := 0, payloadLen := 0, hdrBase := 0, hdr := HeaderRecord.zero }

/-- R38: every STATUS field is 0 after reset. -/
def Status.reset : Status := { maskValid := false, fatal := false, err := 0, tbits := 0, lastOp := 0 }

/-- The machine right after reset (R38, R133, R135): every register 0, idle, memory with nothing listed. The
platform's parameters, the empty input, `answer` and `draws` are the model's (log entries 2 to 5). -/
def State.reset : State :=
  { regs := Regs.reset, status := Status.reset, mem := [], platform := Config.resetPlatform, input := [],
    answer := none, draws := 0 }

end Sys2Proof.Machine
end

