-- ==== Sys2Proof/Machine/Flags.lean ====
section
/-!
DEFINITION. SAC's flags are the fields of STATUS (10_state.md R18 to R23): the word a host reads, the codes of ERR
(30_encoding.md R70), and one update per field.
-/

namespace Sys2Proof.Machine

/-- R18: the 32-bit word a read of STATUS returns, reserved bits 0. -/
def Status.word (t : Status) : Word :=
  t.lastOp ++ 0#2 ++ t.tbits ++ t.err ++ 0#6 ++ BitVec.ofBool t.fatal ++ BitVec.ofBool t.maskValid

/-- R70: the 8-bit code of an error. -/
def ErrCode.code : ErrCode → BitVec 8
  | .ok => 0x00
  | .illegalCmd => 0x01
  | .dimZero => 0x02
  | .dimRange => 0x03
  | .noMasks => 0x04
  | .coordRange => 0x05
  | .offsetRange => 0x06
  | .depth => 0x07
  | .npot => 0x08
  | .pitch => 0x09
  | .len => 0x0A
  | .addrRange => 0x0B
  | .overlap => 0x0C
  | .pack => 0x0D
  | .bus => 0x0E
  | .invariant => 0x0F
  | .halted => 0x10

/-- `reg[STATUS].ERR <- code` (R21). -/
def setErr (c : ErrCode) (s : State) : State := { s with status := { s.status with err := c.code } }

/-- `reg[STATUS].LAST_OP <- w[7:0]` (R23). -/
def setLastOp (op : BitVec 8) (s : State) : State := { s with status := { s.status with lastOp := op } }

/-- `reg[STATUS].MASK_VALID <- 0` (R19). -/
def clearMaskValid (s : State) : State := { s with status := { s.status with maskValid := false } }

/-- `reg[STATUS].MASK_VALID <- 1` and `reg[STATUS].TBITS <- n`, which every mask write does together (R19, R22). -/
def setMasksValid (n : Nat) (s : State) : State :=
  { s with status := { s.status with maskValid := true, tbits := BitVec.ofNat 6 n } }

/-- `reg[STATUS].FATAL <- 1` and `reg[STATUS].MASK_VALID <- 0` (R20, R87). -/
def setFatal (s : State) : State := { s with status := { s.status with fatal := true, maskValid := false } }

end Sys2Proof.Machine
end

