-- ==== Sys2Proof/Machine/Operands.lean ====
section
/-!
DEFINITION. The operand forms of SAC: every operand is a register (30_encoding.md R66), reached from outside by its
offset in the window. The register map (10_state.md R15), the access types (R16), what a host read returns and what a
host write stores.
-/

namespace Sys2Proof.Machine

/-- R15: the registers in offset order. -/
def Reg.all : List Reg :=
  [.cmd, .status, .width, .height, .depth, .rowPitch, .maskX, .maskY, .maskZ, .coordX, .coordY, .coordZ,
   .mortonIndex, .dstOffset, .srcOffset, .pixelIn, .pixelOut, .srcBase, .dstBase, .bufLen, .payloadLen, .hdrBase,
   .hdr0, .hdr1, .hdr2, .hdr3, .hdr4, .hdr5, .hdr6, .hdr7, .hdr8]

/-- R15: the byte offset of a register in the window. -/
def Reg.offset : Reg → Nat
  | .cmd => 0x00
  | .status => 0x04
  | .width => 0x08
  | .height => 0x0C
  | .depth => 0x10
  | .rowPitch => 0x14
  | .maskX => 0x18
  | .maskY => 0x1C
  | .maskZ => 0x20
  | .coordX => 0x24
  | .coordY => 0x28
  | .coordZ => 0x2C
  | .mortonIndex => 0x30
  | .dstOffset => 0x34
  | .srcOffset => 0x38
  | .pixelIn => 0x3C
  | .pixelOut => 0x40
  | .srcBase => 0x44
  | .dstBase => 0x48
  | .bufLen => 0x4C
  | .payloadLen => 0x50
  | .hdrBase => 0x54
  | .hdr0 => 0x58
  | .hdr1 => 0x5C
  | .hdr2 => 0x60
  | .hdr3 => 0x64
  | .hdr4 => 0x68
  | .hdr5 => 0x6C
  | .hdr6 => 0x70
  | .hdr7 => 0x74
  | .hdr8 => 0x78

/-- The register at an offset of the window, none at a reserved one (R43). -/
def Reg.ofOffset (o : Nat) : Option Reg := Reg.all.find? (fun r => r.offset == o)

/-- R15: the access column. -/
def Reg.access : Reg → AccessType
  | .cmd => .wo
  | .width | .height | .depth | .rowPitch | .coordX | .coordY | .coordZ | .pixelIn | .srcBase | .dstBase | .bufLen
  | .payloadLen | .hdrBase => .rw
  | .status | .maskX | .maskY | .maskZ | .mortonIndex | .dstOffset | .srcOffset | .pixelOut | .hdr0 | .hdr1 | .hdr2
  | .hdr3 | .hdr4 | .hdr5 | .hdr6 | .hdr7 | .hdr8 => .ro

/-- R16, R17: what a host read of a register returns. A read of CMD returns 0 and starts nothing. -/
def readReg (r : Reg) (s : State) : Word :=
  match r with
  | .cmd => 0
  | .status => s.status.word
  | .width => s.regs.width
  | .height => s.regs.height
  | .depth => s.regs.depth
  | .rowPitch => s.regs.rowPitch
  | .maskX => s.regs.maskX
  | .maskY => s.regs.maskY
  | .maskZ => s.regs.maskZ
  | .coordX => s.regs.coordX
  | .coordY => s.regs.coordY
  | .coordZ => s.regs.coordZ
  | .mortonIndex => s.regs.mortonIndex
  | .dstOffset => s.regs.dstOffset
  | .srcOffset => s.regs.srcOffset
  | .pixelIn => s.regs.pixelIn
  | .pixelOut => s.regs.pixelOut
  | .srcBase => s.regs.srcBase
  | .dstBase => s.regs.dstBase
  | .bufLen => s.regs.bufLen
  | .payloadLen => s.regs.payloadLen
  | .hdrBase => s.regs.hdrBase
  | .hdr0 => s.regs.hdr.magic
  | .hdr1 => s.regs.hdr.totalSize
  | .hdr2 => s.regs.hdr.headerSize
  | .hdr3 => s.regs.hdr.common
  | .hdr4 => s.regs.hdr.dataPtr
  | .hdr5 => s.regs.hdr.lock
  | .hdr6 => s.regs.hdr.format
  | .hdr7 => s.regs.hdr.size
  | .hdr8 => s.regs.hdr.endOfHeader

/-- R16: what a host write of a register other than CMD stores. An RW register takes all 32 bits, an RO register is
left alone; a write to WIDTH, HEIGHT or DEPTH also clears MASK_VALID, whatever the value (R24). (A write to CMD
starts a command: `commandWrite`.) -/
def hostWriteReg (r : Reg) (v : Word) (s : State) : State :=
  match r with
  | .width => clearMaskValid { s with regs := { s.regs with width := v } }
  | .height => clearMaskValid { s with regs := { s.regs with height := v } }
  | .depth => clearMaskValid { s with regs := { s.regs with depth := v } }
  | .rowPitch => { s with regs := { s.regs with rowPitch := v } }
  | .coordX => { s with regs := { s.regs with coordX := v } }
  | .coordY => { s with regs := { s.regs with coordY := v } }
  | .coordZ => { s with regs := { s.regs with coordZ := v } }
  | .pixelIn => { s with regs := { s.regs with pixelIn := v } }
  | .srcBase => { s with regs := { s.regs with srcBase := v } }
  | .dstBase => { s with regs := { s.regs with dstBase := v } }
  | .bufLen => { s with regs := { s.regs with bufLen := v } }
  | .payloadLen => { s with regs := { s.regs with payloadLen := v } }
  | .hdrBase => { s with regs := { s.regs with hdrBase := v } }
  | .cmd | .status | .maskX | .maskY | .maskZ | .mortonIndex | .dstOffset | .srcOffset | .pixelOut | .hdr0 | .hdr1
  | .hdr2 | .hdr3 | .hdr4 | .hdr5 | .hdr6 | .hdr7 | .hdr8 => s

end Sys2Proof.Machine
end

