-- ==== Sys2Proof/Machine/Ops.lean ====
section
/-!
DEFINITION. The shared operations: reading and writing system memory (20_memory.md), the platform's parameters, free
values, the first failing check (60_exceptions.md R123), the command lifecycle and its error outcome
(40_command_dispatch.md R77, R78; R119), and a command's memory phase (R51, R52). Reset and power-up (R133, R136)
stand last.
-/

namespace Sys2Proof.Machine

/-! ### System memory -/

/-- The canonical form: addresses inside the memory space (R46) and strictly rising, no entry equal to what an
unlisted address reads as. -/
abbrev Memory.Wf (m : Memory) : Prop :=
  m.Pairwise (fun c d => c.1 < d.1) ∧ ∀ c ∈ m, c.2 ≠ Config.unwrittenByte ∧ c.1 < Config.memSpace

/-- The byte at address `a` (R46). -/
def Memory.read : Memory → Nat → Byte
  | [], _ => Config.unwrittenByte
  | c :: m, a => if c.1 = a then c.2 else Memory.read m a

/-- Put a byte at address `a` (R46), keeping the canonical form: the byte an unlisted address reads as is not
listed. -/
def Memory.write : Memory → Nat → Byte → Memory
  | [], a, b => if b = Config.unwrittenByte then [] else [(a, b)]
  | c :: m, a, b =>
    if a < c.1 then (if b = Config.unwrittenByte then c :: m else (a, b) :: c :: m)
    else if a = c.1 then (if b = Config.unwrittenByte then m else (a, b) :: m)
    else c :: Memory.write m a b

/-- R47: `MemRead(a, n)`, the n bytes from a up, little-endian, as a natural number. -/
def Memory.readLE (m : Memory) (a n : Nat) : Nat :=
  ((List.range n).map fun k => (m.read (a + k)).toNat * 2 ^ (8 * k)).sum

/-- R47: `MemWrite(a, n, v)`, byte `(v >> 8k) & 0xFF` at a + k for k = 0 .. n-1. -/
def Memory.writeLE (m : Memory) (a n v : Nat) : Memory :=
  (List.range n).foldl (fun m k => m.write (a + k) (BitVec.ofNat 8 (v >>> (8 * k)))) m

/-! ### The platform -/

/-- R41: the offset of a platform address in the register window, none outside it. -/
def windowOffset (p : Platform) (a : Nat) : Option Nat :=
  if p.regBase ≤ a ∧ a < p.regBase + Config.regWindow then some (a - p.regBase) else none

/-- R41, R52: the address lies in SAC's own register window. -/
def inWindow (p : Platform) (a : Nat) : Bool := (windowOffset p a).isSome

/-- R51: MEM_ADMITS(a), whether a byte of the memory space (R46) answers without a bus error. -/
def memAdmits (p : Platform) (a : Nat) : Bool :=
  decide (a < Config.memSpace) && !p.busErrors.any (fun r => decide (r.lo ≤ a) && decide (a ≤ r.hi))

/-! ### Free values -/

/-- R51, R134: every listed byte "holds any value afterwards", and no other memory byte changes: one free draw. -/
def drawBytes (addrs : List Nat) (s : State) : State :=
  { s with mem := addrs.foldl (fun m a => m.write a (Config.freeByte s.draws a)) s.mem, draws := s.draws + 1 }

/-! ### The command lifecycle -/

/-- R78: a body that completed its steps ends with `reg[STATUS].ERR <- OK`. -/
def finishOk (s : State) : State := setErr .ok s

/-- R119: `raise CmdError(code)`, SAC's only exception: ERR takes the code and the command ends. LAST_OP and the
writes made before are kept, and there is no vector, no saved state and no mode change, so there is nothing to
return from (R126). -/
def raiseError (c : ErrCode) (s : State) : State := setErr c s

/-- R123: the code of the first check that fails, in the order listed. -/
def firstError : List (Bool × ErrCode) → Option ErrCode
  | [] => none
  | (fails, c) :: rest => if fails then some c else firstError rest

/-- R77: what every CMD write with low byte `op` does before a body: LAST_OP is set first, and a halted SAC ends the
command with HALTED. -/
def runCommand (op : Byte) (body : State → Host.Outcome State Fault Refusal) (s : State) :
    Host.Outcome State Fault Refusal :=
  let s := setLastOp op s
  if s.status.fatal then .next (raiseError .halted s) else body s

/-- A body that makes its checks in order before its first write (R78) and, where all pass, goes on with `rest`. -/
def checkedBody (checks : List (Bool × ErrCode)) (rest : State → Host.Outcome State Fault Refusal) (s : State) :
    Host.Outcome State Fault Refusal :=
  match firstError checks with
  | some c => .next (raiseError c s)
  | none => rest s

/-- The bytes of memory a command reads and writes (R49). -/
structure Footprint where
  reads : List Nat
  writes : List Nat
  deriving DecidableEq, Repr

/-- A command that touches no memory (R49). -/
def Footprint.empty : Footprint := { reads := [], writes := [] }

/-- Every byte the command accesses. -/
def Footprint.touched (f : Footprint) : List Nat := f.reads ++ f.writes

/-- A command's memory phase over the bytes `f`. An access into SAC's own window is refused (R52). If any access gets
a bus error the command ends with BUS, and every byte it would have written holds any value (R51). Otherwise memory
becomes `effect` of it and the command ends with OK (R78). -/
def memoryPhase (f : Footprint) (effect : Memory → Memory) (s : State) : Host.Outcome State Fault Refusal :=
  if f.touched.any (inWindow s.platform) then .refused .ownWindow
  else if f.touched.all (memAdmits s.platform) then .next (finishOk { s with mem := effect s.mem })
  else .next (raiseError .bus (drawBytes f.writes s))

/-! ### Reset and power-up -/

/-- R133: every register and STATUS field takes its reset value (R38), from any state, halted or not (R124). Memory
is not changed. The platform, the events still to come and the count of draws are not registers. -/
def applyReset (s : State) : State := { s with regs := Regs.reset, status := Status.reset, answer := none }

/-- R136: the header registers hold free values. -/
def freeHeader (k : Nat) : HeaderRecord :=
  { magic := Config.freeWord k 0x58, totalSize := Config.freeWord k 0x5C, headerSize := Config.freeWord k 0x60,
    common := Config.freeWord k 0x64, dataPtr := Config.freeWord k 0x68, lock := Config.freeWord k 0x6C,
    format := Config.freeWord k 0x70, size := Config.freeWord k 0x74, endOfHeader := Config.freeWord k 0x78 }

/-- R136: every register of R15 but STATUS holds a free value. -/
def freeRegs (k : Nat) : Regs :=
  { width := Config.freeWord k 0x08, height := Config.freeWord k 0x0C, depth := Config.freeWord k 0x10,
    rowPitch := Config.freeWord k 0x14, maskX := Config.freeWord k 0x18, maskY := Config.freeWord k 0x1C,
    maskZ := Config.freeWord k 0x20, coordX := Config.freeWord k 0x24, coordY := Config.freeWord k 0x28,
    coordZ := Config.freeWord k 0x2C, mortonIndex := Config.freeWord k 0x30, dstOffset := Config.freeWord k 0x34,
    srcOffset := Config.freeWord k 0x38, pixelIn := Config.freeWord k 0x3C, pixelOut := Config.freeWord k 0x40,
    srcBase := Config.freeWord k 0x44, dstBase := Config.freeWord k 0x48, bufLen := Config.freeWord k 0x4C,
    payloadLen := Config.freeWord k 0x50, hdrBase := Config.freeWord k 0x54, hdr := freeHeader k }

/-- R136: every field of STATUS holds a free value; the reserved bits still read 0 (R18). -/
def freeStatus (k : Nat) : Status :=
  let w := Config.freeWord k 0x04
  { maskValid := w.getLsbD 0, fatal := w.getLsbD 1, err := w.extractLsb' 8 8, tbits := w.extractLsb' 16 6,
    lastOp := w.extractLsb' 24 8 }

/-- R136: from power-up until the first reset every register holds an unspecified value, one free draw. Memory is the
platform's and is left as it is. Log entry 6. -/
def powerUp (s : State) : State :=
  { s with regs := freeRegs s.draws, status := freeStatus s.draws, answer := none, draws := s.draws + 1 }

end Sys2Proof.Machine
end

