-- ==== Sys2Proof/Machine/CommandDispatch.lean ====
section
/-!
DEFINITION. Command dispatch (40_command_dispatch.md): NOP and the outcome of an illegal command word.
-/

namespace Sys2Proof.Machine

/-- NOP (R79): nothing after R77, then R78. It resets ERR to OK, or reports HALTED. -/
def execNop (s : State) : Host.Outcome State Fault Refusal :=
  runCommand 0x00 (fun s => .next (finishOk s)) s

/-- Illegal command word `w` (R80): LAST_OP shows its low byte, ERR is ILLEGAL_CMD, or HALTED on a halted SAC, which
is checked first (R77). Nothing else changes. -/
def illegalCommand (w : Word) (s : State) : Host.Outcome State Fault Refusal :=
  runCommand (w.extractLsb 7 0) (fun s => .next (raiseError .illegalCmd s)) s

end Sys2Proof.Machine
end

