-- ==== Sys2Proof/Machine/MortonOrderEncoder.lean ====
section
/-!
DEFINITION. The Morton order encoder (41_morton_order_encoder.md): mask generation, its postcondition check, the bit
scatter and gather, the Morton index, and GEN_MASKS. Arithmetic is on natural numbers (00_scope.md R6).
-/

namespace Sys2Proof.Machine

/-! ### Primitives of 00_scope.md section 5 -/

/-- `clog2(n)`: for n >= 1 the least k with 2^k >= n. -/
def clog2 (n : Nat) : Nat := if n ≤ 1 then 0 else Nat.log2 (n - 1) + 1

/-- `popcount(m)`: the number of 1 bits of a 32-bit value. -/
def popcount (m : Nat) : Nat := ((List.range 32).filter m.testBit).length

/-- `ispow2(n)`: n >= 1 and n & (n - 1) = 0. -/
def ispow2 (n : Nat) : Bool := decide (1 ≤ n) && n &&& (n - 1) == 0

/-! ### Mask generation (R85) -/

/-- The generator's variables: the candidate bit position, the output bit cursor and the three masks. -/
structure MaskGen where
  bit : Nat
  cursor : Nat
  mx : Nat
  my : Nat
  mz : Nat
  deriving DecidableEq, Repr

/-- `bit <- 1; cursor <- 1`, all masks 0. -/
def MaskGen.start : MaskGen := { bit := 1, cursor := 1, mx := 0, my := 0, mz := 0 }

/-- An axis, in the round-robin order x, y, z. -/
inductive Axis where
  | x | y | z
  deriving DecidableEq, Repr

/-- The mask of an axis. -/
def MaskGen.mask (g : MaskGen) : Axis → Nat
  | .x => g.mx
  | .y => g.my
  | .z => g.mz

/-- The extent of an axis of a W x H x D image. -/
def extent (w h d : Nat) : Axis → Nat
  | .x => w
  | .y => h
  | .z => d

/-- `m[a] <- m[a] | cursor; cursor <- cursor << 1`. -/
def MaskGen.take (g : MaskGen) : Axis → MaskGen
  | .x => { g with mx := g.mx ||| g.cursor, cursor := g.cursor <<< 1 }
  | .y => { g with my := g.my ||| g.cursor, cursor := g.cursor <<< 1 }
  | .z => { g with mz := g.mz ||| g.cursor, cursor := g.cursor <<< 1 }

/-- One axis' turn in a round: it takes the cursor's bit if the candidate position is below its extent. The flag says
whether any axis made progress in this round. -/
def axisTurn (a : Axis) (ext : Nat) (p : MaskGen × Bool) : MaskGen × Bool :=
  if p.1.bit < ext then (p.1.take a, true) else p

/-- One round: x, then y, then z, then `bit <- bit << 1`. -/
def maskRound (w h d : Nat) (g : MaskGen) : MaskGen × Bool :=
  let p := axisTurn .z d (axisTurn .y h (axisTurn .x w (g, false)))
  ({ p.1 with bit := p.1.bit <<< 1 }, p.2)

/-- `repeat ... until progress = false`, for at most `n` rounds. -/
def maskRounds (w h d : Nat) : Nat → MaskGen → MaskGen
  | 0, g => g
  | n + 1, g =>
    let p := maskRound w h d g
    if p.2 then maskRounds w h d n p.1 else p.1

/-- GenMasks(W, H, D) (R85). For 32-bit extents a round without progress comes after at most 33 rounds (R86: B + 1
rounds with B <= 32), so the bound is never what ends the loop. Log entry 18. -/
def genMasks (w h d : Nat) : MaskGen := maskRounds w h d 33 MaskGen.start

/-- R87's postcondition: `mx ^ my ^ mz = cursor - 1`. -/
def MaskGen.invariant (g : MaskGen) : Bool := g.mx ^^^ g.my ^^^ g.mz == g.cursor - 1

/-- R84, R87, R107: run the generator, check its postcondition, and write the three masks, TBITS and MASK_VALID
together. A violation raises INVARIANT: FATAL is set, MASK_VALID cleared, masks and TBITS not written. -/
def latchMasks (w h d : Nat) (rest : State → Host.Outcome State Fault Refusal) (s : State) :
    Host.Outcome State Fault Refusal :=
  let g := genMasks w h d
  if g.invariant then
    rest (setMasksValid (popcount (g.mx ||| g.my ||| g.mz))
      { s with regs := { s.regs with maskX := BitVec.ofNat 32 g.mx, maskY := BitVec.ofNat 32 g.my,
                                     maskZ := BitVec.ofNat 32 g.mz } })
  else .next (raiseError .invariant (setFatal s))

/-- The checks of GEN_MASKS in order (R84): DIM_ZERO, DIM_RANGE. -/
def dimChecks (w h d : Nat) : List (Bool × ErrCode) :=
  [(w == 0 || h == 0 || d == 0, .dimZero),
   (decide (clog2 w + clog2 h + clog2 d > Config.maxTbits), .dimRange)]

/-- GEN_MASKS (R84). -/
def execGenMasks (s : State) : Host.Outcome State Fault Refusal :=
  runCommand 0x01 (fun s =>
    let w := s.regs.width.toNat
    let h := s.regs.height.toNat
    let d := s.regs.depth.toNat
    checkedBody (dimChecks w h d) (latchMasks w h d (fun s => .next (finishOk s))) s) s

/-! ### Bit scatter, gather and the Morton index (R90, R91, R95) -/

/-- R90: `Scatter(mask, v)`. The pair is (r, i). Left-over bits of v are dropped (D10). -/
def scatter (mask v : Nat) : Nat :=
  ((List.range 32).foldl
    (fun (p : Nat × Nat) k => if mask.testBit k then (p.1 ||| (v.testBit p.2).toNat <<< k, p.2 + 1) else p) (0, 0)).1

/-- R95: `Gather(mask, m)`, the inverse of Scatter. No command computes it. -/
def gather (mask m : Nat) : Nat :=
  ((List.range 32).foldl
    (fun (p : Nat × Nat) k => if mask.testBit k then (p.1 ||| (m.testBit k).toNat <<< p.2, p.2 + 1) else p) (0, 0)).1

/-- R91: the Morton index of a coordinate under three masks. -/
def morton (mx my mz x y z : Nat) : Nat := scatter mx x ||| scatter my y ||| scatter mz z

end Sys2Proof.Machine
end

