-- ==== Sys2Proof/Machine/SwizzleAddressCalculator.lean ====
section
/-!
DEFINITION. The swizzle address calculator (42_swizzle_address_calculator.md): CALC_ADDR.
-/

namespace Sys2Proof.Machine

/-- R102: the row-major source offset `(y * row_pitch + x) * 4`, exact, with no z term. -/
def sourceOffset (pitch x y : Nat) : Nat := (y * pitch + x) * Config.bytesPerPixel

/-- The Morton index of the coordinate registers under the mask registers (R91, R100). -/
def coordMorton (s : State) : Nat :=
  morton s.regs.maskX.toNat s.regs.maskY.toNat s.regs.maskZ.toNat s.regs.coordX.toNat s.regs.coordY.toNat
    s.regs.coordZ.toNat

/-- The checks of CALC_ADDR in order (R100): NO_MASKS, COORD_RANGE, OFFSET_RANGE. -/
def calcAddrChecks (s : State) : List (Bool × ErrCode) :=
  [(!s.status.maskValid, .noMasks),
   (decide (s.regs.coordX.toNat ≥ s.regs.width.toNat) || decide (s.regs.coordY.toNat ≥ s.regs.height.toNat)
     || decide (s.regs.coordZ.toNat ≥ s.regs.depth.toNat), .coordRange),
   (decide (sourceOffset s.regs.rowPitch.toNat s.regs.coordX.toNat s.regs.coordY.toNat > 0xFFFFFFFF), .offsetRange)]

/-- The register writes of CALC_ADDR (R100 to R102). Four times the index fits in 32 bits whenever the masks are
generated ones (R101); on other masks, which only power-up can leave, the low 32 bits are stored (log entry 19). -/
def writeOffsets (s : State) : State :=
  { s with regs :=
      { s.regs with
        mortonIndex := BitVec.ofNat 32 (coordMorton s)
        dstOffset := BitVec.ofNat 32 (Config.bytesPerPixel * coordMorton s)
        srcOffset := BitVec.ofNat 32 (sourceOffset s.regs.rowPitch.toNat s.regs.coordX.toNat s.regs.coordY.toNat) } }

/-- CALC_ADDR (R100). -/
def execCalcAddr (s : State) : Host.Outcome State Fault Refusal :=
  runCommand 0x02 (fun s => checkedBody (calcAddrChecks s) (fun s => .next (finishOk (writeOffsets s))) s) s

end Sys2Proof.Machine
end

