-- ==== Sys2Proof/Machine/SwizzleTransform.lean ====
section
/-!
DEFINITION. The swizzle transform (43_swizzle_transform.md): the channel reorder, PERMUTE_PIXEL and TRANSFORM.
-/

namespace Sys2Proof.Machine

/-- R104: PermWord, bytes 0 and 2 of a pixel word swapped. -/
def permWord (p : Word) : Word :=
  p.extractLsb' 24 8 ++ p.extractLsb' 0 8 ++ p.extractLsb' 8 8 ++ p.extractLsb' 16 8

/-- PERMUTE_PIXEL (R105). -/
def execPermutePixel (s : State) : Host.Outcome State Fault Refusal :=
  runCommand 0x03
    (fun s => .next (finishOk { s with regs := { s.regs with pixelOut := permWord s.regs.pixelIn } })) s

/-- The coordinates of a W x H image, row by row. The order is the model's (R55 leaves it open and the result does not
depend on it). Log entry 7. -/
def coords (w h : Nat) : List (Nat × Nat) :=
  (List.range h).flatMap fun y => (List.range w).map fun x => (x, y)

/-- R109: `s`, the address of byte 0 of a source pixel. -/
def srcPixelAddr (base pitch x y : Nat) : Nat := base + Config.bytesPerPixel * (y * pitch + x)

/-- R109: `d`, the address of byte 0 of a destination pixel (R91 with z = 0). -/
def dstPixelAddr (base mx my x y : Nat) : Nat := base + Config.bytesPerPixel * (scatter mx x ||| scatter my y)

/-- R109, R104: copy one pixel's four bytes from `s` to `d` in the order B, G, R, A. -/
def copyPixel (s d : Nat) (m : Memory) : Memory :=
  let b0 := m.read s
  let b1 := m.read (s + 1)
  let b2 := m.read (s + 2)
  let b3 := m.read (s + 3)
  (((m.write d b2).write (d + 1) b1).write (d + 2) b0).write (d + 3) b3

/-- What TRANSFORM's memory phase works on: the operands of CopyAll (R109). -/
structure CopyJob where
  width : Nat
  height : Nat
  pitch : Nat
  src : Nat
  dst : Nat
  mx : Nat
  my : Nat
  deriving DecidableEq, Repr

/-- CopyAll over a list of coordinates (R109). -/
def CopyJob.run (j : CopyJob) (cs : List (Nat × Nat)) (m : Memory) : Memory :=
  cs.foldl (fun m c => copyPixel (srcPixelAddr j.src j.pitch c.1 c.2) (dstPixelAddr j.dst j.mx j.my c.1 c.2) m) m

/-- CopyAll (R109): every coordinate of [0, W) x [0, H) once. -/
def CopyJob.copyAll (j : CopyJob) (m : Memory) : Memory := j.run (coords j.width j.height) m

/-- The four byte addresses of a pixel at `a`. -/
def pixelBytes (a : Nat) : List Nat := (List.range Config.bytesPerPixel).map (a + ·)

/-- R49: the bytes CopyAll reads and writes. -/
def CopyJob.footprint (j : CopyJob) : Footprint :=
  { reads := (coords j.width j.height).flatMap fun c => pixelBytes (srcPixelAddr j.src j.pitch c.1 c.2)
    writes := (coords j.width j.height).flatMap fun c => pixelBytes (dstPixelAddr j.dst j.mx j.my c.1 c.2) }

/-- The copy TRANSFORM makes from the registers (R107): W, H, P, S, T, and the masks of GenMasks(W, H, 1). -/
def transformJob (s : State) : CopyJob :=
  let g := genMasks s.regs.width.toNat s.regs.height.toNat 1
  { width := s.regs.width.toNat, height := s.regs.height.toNat, pitch := s.regs.rowPitch.toNat,
    src := s.regs.srcBase.toNat, dst := s.regs.dstBase.toNat, mx := g.mx, my := g.my }

/-- The checks of TRANSFORM in order (R107), on exact numbers. -/
def transformChecks (s : State) : List (Bool × ErrCode) :=
  let w := s.regs.width.toNat
  let h := s.regs.height.toNat
  let d := s.regs.depth.toNat
  let p := s.regs.rowPitch.toNat
  let src := s.regs.srcBase.toNat
  let dst := s.regs.dstBase.toNat
  let l := s.regs.bufLen.toNat
  dimChecks w h d ++
  [(d != 1, .depth),
   (!ispow2 w || !ispow2 h, .npot),
   (decide (p < w), .pitch),
   (decide (l < Config.bytesPerPixel * ((h - 1) * p + w)) || decide (l < Config.bytesPerPixel * w * h), .len),
   (decide (src + l > Config.memSpace) || decide (dst + l > Config.memSpace), .addrRange),
   (decide (src < dst + l) && decide (dst < src + l), .overlap)]

/-- TRANSFORM (R107): the checks, the masks as GEN_MASKS makes them (with depth 1), then the memory phase. The masks
stay written if the memory phase ends with BUS (D20). -/
def execTransform (s : State) : Host.Outcome State Fault Refusal :=
  runCommand 0x04 (fun s =>
    checkedBody (transformChecks s)
      (latchMasks s.regs.width.toNat s.regs.height.toNat 1
        (fun t => memoryPhase (transformJob t).footprint (transformJob t).copyAll t)) s) s

end Sys2Proof.Machine
end

