-- ==== Sys2Proof/Machine/TextureHeaderSerializer.lean ====
section
/-!
DEFINITION. The texture header serializer (44_texture_header_serializer.md, 30_encoding.md R71 to R73): BUILD_HEADER.
-/

namespace Sys2Proof.Machine

/-- R114: HeaderFields(total); every field but total_size is a constant. -/
def headerFields (total : Word) : HeaderRecord :=
  { magic := 0x30525058, totalSize := total, headerSize := 0x00000024, common := 0x00040001, dataPtr := 0x00000000,
    lock := 0x00000000, format := 0x06610629, size := 0x00000000, endOfHeader := 0xFFFFFFFF }

/-- The fields in the order of R71. -/
def HeaderRecord.toList (f : HeaderRecord) : List Word :=
  [f.magic, f.totalSize, f.headerSize, f.common, f.dataPtr, f.lock, f.format, f.size, f.endOfHeader]

/-- R113, R116: `for i in 0 .. 8: MemWrite(A + 4*i, 4, f[i])`. The 36 byte writes are to distinct bytes, so their
order, which R55 leaves open, does not show. -/
def writeHeader (a : Nat) (f : HeaderRecord) (m : Memory) : Memory :=
  (f.toList.zipIdx).foldl (fun m p => m.writeLE (a + 4 * p.2) 4 p.1.toNat) m

/-- R115: total_size, exact. -/
def headerTotal (s : State) : Nat := Config.headerSize + s.regs.payloadLen.toNat

/-- The checks of BUILD_HEADER in order (R113): PACK, ADDR_RANGE. -/
def headerChecks (s : State) : List (Bool × ErrCode) :=
  [(decide (headerTotal s > 0xFFFFFFFF), .pack),
   (decide (s.regs.hdrBase.toNat + Config.headerSize > Config.memSpace), .addrRange)]

/-- R49: BUILD_HEADER writes the 36 bytes at HDR_BASE and reads none. -/
def headerFootprint (s : State) : Footprint :=
  { reads := [], writes := (List.range Config.headerSize).map (s.regs.hdrBase.toNat + ·) }

/-- BUILD_HEADER (R113): HDR0 to HDR8 are written before the memory phase, so they stay if it ends with BUS. -/
def execBuildHeader (s : State) : Host.Outcome State Fault Refusal :=
  runCommand 0x05 (fun s =>
    let f := headerFields (BitVec.ofNat 32 (headerTotal s))
    checkedBody (headerChecks s)
      (fun s => memoryPhase (headerFootprint s) (writeHeader s.regs.hdrBase.toNat f)
        { s with regs := { s.regs with hdr := f } }) s) s

end Sys2Proof.Machine
end

