-- ==== Sys2Proof/Machine/Dispatch.lean ====
section
/-!
DEFINITION. One arm per command, each one call of its meaning (30_encoding.md R63).
-/

namespace Sys2Proof.Machine

def exec (i : Instr) (s : State) : Host.Outcome State Fault Refusal :=
  match i with
  | .nop => Sys2Proof.Machine.execNop s
  | .genMasks => Sys2Proof.Machine.execGenMasks s
  | .calcAddr => Sys2Proof.Machine.execCalcAddr s
  | .permutePixel => Sys2Proof.Machine.execPermutePixel s
  | .transform => Sys2Proof.Machine.execTransform s
  | .buildHeader => Sys2Proof.Machine.execBuildHeader s

end Sys2Proof.Machine
end

