-- ==== Sys2Proof/Machine/Port.lean ====
section
/-!
DEFINITION. The two ports seen from outside: register-port accesses (20_memory.md R41 to R45), the bytes a command
touches (R49), accesses of other masters to memory (R54, R56), reset and power-up as inputs
(70_reset_and_hazards.md R133 to R136).
-/

namespace Sys2Proof.Machine

/-- R49: the bytes the command `i`, started in state `s`, reads and writes; none where it fails a check before its
memory phase, and none on a halted SAC (R77). -/
def footprint (i : Instr) (s : State) : Footprint :=
  match i with
  | .nop | .genMasks | .calcAddr | .permutePixel => Footprint.empty
  | .transform =>
    if s.status.fatal || (firstError (transformChecks s)).isSome
        || !(genMasks s.regs.width.toNat s.regs.height.toNat 1).invariant then Footprint.empty
    else (transformJob s).footprint
  | .buildHeader =>
    if s.status.fatal || (firstError (headerChecks s)).isSome then Footprint.empty else headerFootprint s

/-- R17, R77: a host write of `w` to CMD starts the command `w` selects, or has the outcome of an illegal word. -/
def commandWrite (w : Word) (s : State) : Host.Outcome State Fault Refusal :=
  match decodeWord w with
  | .ok i => exec i s
  | .error _ => illegalCommand w s

/-- The command a port access starts, if any: an aligned 32-bit write of a legal word to CMD (R17, R42). -/
def PortAccess.command (a : PortAccess) (s : State) : Option Instr :=
  if a.dir = .write ∧ a.bits = 32 ∧ windowOffset s.platform a.addr = some Reg.cmd.offset then
    match decodeWord a.data with
    | .ok i => some i
    | .error _ => none
  else none

/-- The bytes of memory a port access makes SAC read and write (R49). -/
def PortAccess.footprint (a : PortAccess) (s : State) : Footprint :=
  match a.command s with
  | some i => Machine.footprint i s
  | none => Footprint.empty

/-- One register-port access (R16, R42, R43, R67). A read leaves its data in `answer`; a write to CMD runs a command
to its end before anything else is accepted (R45). -/
def portAccess (a : PortAccess) (s : State) : Host.Outcome State Fault Refusal :=
  match windowOffset s.platform a.addr with
  | none => .fault .outsideWindow
  | some o =>
    if a.bits ≠ 32 ∨ o % 4 ≠ 0 then .fault .hostAccess
    else match a.dir, Reg.ofOffset o with
      | .read, some r => .next { s with answer := some (readReg r s) }
      | .read, none => .next { s with answer := some 0 }
      | .write, some .cmd => commandWrite a.data s
      | .write, some r => .next (hostWriteReg r a.data s)
      | .write, none => .next s

/-- The address of an access of another master. -/
def MemAccess.addr : MemAccess → Nat
  | .read a => a.toNat
  | .write a _ => a.toNat

/-- R54: an access of another master to system memory takes effect between commands. A byte in the register window is
no memory byte: reaching it with a one-byte access is a host's illegal port access (R42). Log entry 12. -/
def memoryAccess (m : MemAccess) (s : State) : Host.Outcome State Fault Refusal :=
  if inWindow s.platform m.addr then .fault .hostAccess
  else match m with
    | .read _ => .next s
    | .write a b => .next { s with mem := s.mem.write a.toNat b }

/-- A list of such accesses, in order. -/
def memoryAccesses : List MemAccess → State → Host.Outcome State Fault Refusal
  | [], s => .next s
  | m :: ms, s =>
    match memoryAccess m s with
    | .next t => memoryAccesses ms t
    | .fault f => .fault f
    | .refused r => .refused r

/-- R56, R141: while an access runs, other masters make the accesses `others`. One that touches a byte the command
reads or writes is a fault; the rest do not meet the command, so they may be taken first (log entry 8). -/
def alongside (a : PortAccess) (others : List MemAccess) (rest : State → Host.Outcome State Fault Refusal)
    (s : State) : Host.Outcome State Fault Refusal :=
  if others.any (fun m => (a.footprint s).touched.contains m.addr) then .fault .interference
  else match memoryAccesses others s with
    | .next t => rest t
    | .fault f => .fault f
    | .refused r => .refused r

/-- R134: reset is applied before the access completes. A command is abandoned: every byte it would have written holds
any value and every register takes its reset value. Any other access leaves nothing but the reset. -/
def resetDuring (a : PortAccess) (s : State) : Host.Outcome State Fault Refusal :=
  match windowOffset s.platform a.addr with
  | none => .fault .outsideWindow
  | some o =>
    if a.bits ≠ 32 ∨ o % 4 ≠ 0 then .fault .hostAccess
    else if (a.footprint s).touched.any (inWindow s.platform) then .refused .ownWindow
    else .next (applyReset (drawBytes (a.footprint s).writes s))

/-- What one event does. -/
def handleEvent (e : Event) (s : State) : Host.Outcome State Fault Refusal :=
  match e with
  | .port a others => alongside a others (portAccess a) s
  | .portReset a others => alongside a others (resetDuring a) s
  | .memory m => memoryAccess m s
  | .reset => .next (applyReset s)
  | .powerUp => .next (powerUp s)

/-- One step of the machine: the next event, if any; with none SAC idles and keeps every register (R132, R135). -/
def stepEvent (s : State) : Host.Outcome State Fault Refusal :=
  match s.input with
  | [] => .next s
  | e :: rest => handleEvent e { s with input := rest, answer := none }

/-- The quiet access `WR <r>, v` of R74: an aligned 32-bit write at register `r`'s platform address (R41). -/
def hostWrite (s : State) (r : Reg) (v : Word) : Event :=
  .port { dir := .write, bits := 32, addr := s.platform.regBase + r.offset, data := v } []

/-- The quiet access `RD <r>` of R74. -/
def hostRead (s : State) (r : Reg) : Event :=
  .port { dir := .read, bits := 32, addr := s.platform.regBase + r.offset, data := 0 } []

/-- The word whose bits are the low `nbits` of `w`, every bit above them zero (R61: one 32-bit word). -/
def fetchWord (nbits w : Nat) : Word := BitVec.ofNat 32 (w % 2 ^ nbits)

end Sys2Proof.Machine
end

