-- ==== Sys2Proof/Machine/Step.lean ====
section
/-!
DEFINITION. The step function, and where the next command word is placed. SAC fetches nothing (10_state.md R14): its
next command is the host's next write to CMD, the head of `State.input`.
-/

namespace Sys2Proof.Machine

/-- One step: the next event reaches SAC (R45, R81). -/
def step (s : State) : Host.Outcome State Fault Refusal := stepEvent s

/-- `s` with a host's write of the instruction's word to CMD as its next event, so that the next step runs exactly
that command. Nothing else changes. Log entry 3. -/
def State.withFetchWord (s : State) (nbits w : Nat) : State :=
  { s with input := hostWrite s .cmd (fetchWord nbits w) :: s.input }

end Sys2Proof.Machine
end

