-- ==== Sys2Proof/Safety.lean ====
section
/-!
DEFINITION. The terms claims are made in: when a command's checks pass, in the plain words of the rules; when a step
is safe (it answers a next state); the state a command leaves when nothing but ERR and LAST_OP changes; and the
invariants of the register set.
-/

namespace Sys2Proof.Machine

/-! ### When the checks of a command pass -/

/-- R84: the dimensions GEN_MASKS admits. -/
def DimsAdmitted (w h d : Nat) : Prop :=
  1 ≤ w ∧ 1 ≤ h ∧ 1 ≤ d ∧ clog2 w + clog2 h + clog2 d ≤ 30

/-- R100: the coordinate registers are inside the extents and the source offset fits. -/
structure CoordAdmitted (s : State) : Prop where
  masks : s.status.maskValid = true
  x : s.regs.coordX.toNat < s.regs.width.toNat
  y : s.regs.coordY.toNat < s.regs.height.toNat
  z : s.regs.coordZ.toNat < s.regs.depth.toNat
  offset : (s.regs.coordY.toNat * s.regs.rowPitch.toNat + s.regs.coordX.toNat) * 4 ≤ 0xFFFFFFFF

/-- R107: a TRANSFORM from these registers passes every check, in the rule's own terms. -/
structure TransformAdmitted (s : State) : Prop where
  widthPow : ∃ k, s.regs.width.toNat = 2 ^ k
  heightPow : ∃ k, s.regs.height.toNat = 2 ^ k
  depthOne : s.regs.depth.toNat = 1
  bits : clog2 s.regs.width.toNat + clog2 s.regs.height.toNat + clog2 s.regs.depth.toNat ≤ 30
  pitch : s.regs.width.toNat ≤ s.regs.rowPitch.toNat
  srcLen : 4 * ((s.regs.height.toNat - 1) * s.regs.rowPitch.toNat + s.regs.width.toNat) ≤ s.regs.bufLen.toNat
  dstLen : 4 * s.regs.width.toNat * s.regs.height.toNat ≤ s.regs.bufLen.toNat
  srcTop : s.regs.srcBase.toNat + s.regs.bufLen.toNat ≤ 2 ^ 32
  dstTop : s.regs.dstBase.toNat + s.regs.bufLen.toNat ≤ 2 ^ 32
  apart : s.regs.dstBase.toNat + s.regs.bufLen.toNat ≤ s.regs.srcBase.toNat ∨
    s.regs.srcBase.toNat + s.regs.bufLen.toNat ≤ s.regs.dstBase.toNat

/-- R113: a BUILD_HEADER from these registers passes every check. -/
structure HeaderAdmitted (s : State) : Prop where
  total : 36 + s.regs.payloadLen.toNat ≤ 0xFFFFFFFF
  top : s.regs.hdrBase.toNat + 36 ≤ 2 ^ 32

/-- The platform serves a list of addresses: each answers without a bus error (R51) and none lies in SAC's own
register window (R52). -/
def Serves (p : Platform) (as : List Nat) : Prop := ∀ a ∈ as, memAdmits p a = true ∧ inWindow p a = false

/-! ### What a command leaves -/

/-- R119: the state before the command plus ERR and LAST_OP. -/
def withOutcome (s : State) (op : Byte) (c : ErrCode) : State :=
  { s with status := { s.status with lastOp := op, err := c.code } }

/-- Every byte of memory outside `ws` reads as before. -/
def SameOutside (ws : List Nat) (m m' : Memory) : Prop := ∀ a, a ∉ ws → m'.read a = m.read a

/-- The state with one event taken, before the event is handled: a step's starting point. -/
def afterFetch (s : State) (rest : List Event) : State := { s with input := rest, answer := none }

/-- The command an event starts from state `s`, if any (R17): a port access that writes a legal word to CMD. -/
def Event.starts (s : State) : Event → Option Instr
  | .port a _ => a.command s
  | .portReset _ _ | .memory _ | .reset | .powerUp => none

/-- The event is an aligned 32-bit host write at register `r` (R16, R41). -/
def Event.writesReg (s : State) (e : Event) (r : Reg) : Prop :=
  ∃ a others, e = .port a others ∧ a.dir = .write ∧ a.bits = 32 ∧ a.addr = s.platform.regBase + r.offset

/-- R16's table: the commands that write a register. (STATUS, which every command writes, apart.) -/
def Reg.writers : Reg → List Instr
  | .maskX | .maskY | .maskZ => [.genMasks, .transform]
  | .mortonIndex | .dstOffset | .srcOffset => [.calcAddr]
  | .pixelOut => [.permutePixel]
  | .hdr0 | .hdr1 | .hdr2 | .hdr3 | .hdr4 | .hdr5 | .hdr6 | .hdr7 | .hdr8 => [.buildHeader]
  | .cmd | .status | .width | .height | .depth | .rowPitch | .coordX | .coordY | .coordZ | .pixelIn | .srcBase
  | .dstBase | .bufLen | .payloadLen | .hdrBase => []

/-- The event is, or ends with, a reset or a power-up (R133, R134, R136). -/
def Event.resets : Event → Bool
  | .reset | .powerUp | .portReset _ _ => true
  | .port _ _ | .memory _ => false

/-! ### Masks -/

/-- R89: the number of axes with more than `r` bits. -/
def axesAbove (b : Axis → Nat) (r : Nat) : Nat := ([Axis.x, .y, .z].filter fun a => r < b a).length

/-- The axes before an axis in the order x, y, z. -/
def axesBefore : Axis → List Axis
  | .x => []
  | .y => [.x]
  | .z => [.x, .y]

/-- R89: `P(a, r)`, the mask position of axis `a`'s bit of round `r`. -/
def maskPosition (b : Axis → Nat) (a : Axis) (r : Nat) : Nat :=
  ((List.range r).map (axesAbove b)).sum + ((axesBefore a).filter fun a' => r < b a').length

/-- R26, R69: the mask registers hold pairwise disjoint masks whose union is the low TBITS bits, at most 30. -/
structure MasksPartition (s : State) : Prop where
  tbits : s.status.tbits.toNat ≤ 30
  xy : s.regs.maskX &&& s.regs.maskY = 0
  xz : s.regs.maskX &&& s.regs.maskZ = 0
  yz : s.regs.maskY &&& s.regs.maskZ = 0
  union : (s.regs.maskX ||| s.regs.maskY ||| s.regs.maskZ).toNat = 2 ^ s.status.tbits.toNat - 1

/-! ### Safe steps and invariants -/

/-- A step is safe where it answers a next state: no fault and no refusal. -/
def SafeStep (s : State) : Prop := ∃ t, step s = .next t

/-- A port access the port accepts: 32 bits wide, at an aligned address of the window (R41, R42). -/
structure LegalAccess (s : State) (a : PortAccess) : Prop where
  width : a.bits = 32
  low : s.platform.regBase ≤ a.addr
  high : a.addr < s.platform.regBase + 0x100
  aligned : (a.addr - s.platform.regBase) % 4 = 0

/-- What the platform and the other masters owe SAC for an event to have a meaning: port accesses are legal (R42), no
memory access lands in SAC's own window (R52), and no other master touches a byte the running command touches (R56). -/
def Lawful (s : State) : Event → Prop
  | .port a others | .portReset a others =>
    LegalAccess s a ∧ (∀ x ∈ (a.footprint s).touched, inWindow s.platform x = false) ∧
    ∀ m ∈ others, inWindow s.platform m.addr = false ∧ m.addr ∉ (a.footprint s).touched
  | .memory m => inWindow s.platform m.addr = false
  | .reset | .powerUp => True

/-- What every run after a reset keeps true of the registers. -/
structure RegisterInv (s : State) : Prop where
  /-- R20: FATAL is never set. -/
  notFatal : s.status.fatal = false
  /-- R70, R20: ERR holds an assigned code, and neither INVARIANT nor HALTED. -/
  err : s.status.err.toNat ≤ 0x0E
  /-- R22, R26, R69. -/
  masks : MasksPartition s
  /-- R19: while MASK_VALID is 1 the masks are those of the current dimensions. -/
  current : s.status.maskValid = true →
    DimsAdmitted s.regs.width.toNat s.regs.height.toNat s.regs.depth.toNat ∧
    s.regs.maskX.toNat = (genMasks s.regs.width.toNat s.regs.height.toNat s.regs.depth.toNat).mx ∧
    s.regs.maskY.toNat = (genMasks s.regs.width.toNat s.regs.height.toNat s.regs.depth.toNat).my ∧
    s.regs.maskZ.toNat = (genMasks s.regs.width.toNat s.regs.height.toNat s.regs.depth.toNat).mz
  /-- R28. -/
  morton : s.regs.mortonIndex.toNat < 2 ^ 30
  /-- R29. -/
  dst : s.regs.dstOffset.toNat = 4 * s.regs.mortonIndex.toNat
  /-- R30. -/
  src : s.regs.srcOffset.toNat % 4 = 0
  /-- R118, R114: the header registers are zero from reset or hold one built header. -/
  header : s.regs.hdr = HeaderRecord.zero ∨
    ∃ total : Word, 36 ≤ total.toNat ∧ s.regs.hdr = headerFields total

/-- The byte moves of CopyAll (R109): (source address, destination address), in the model's order. -/
def CopyJob.moves (j : CopyJob) : List (Nat × Nat) :=
  (coords j.width j.height).flatMap fun c =>
    let s := srcPixelAddr j.src j.pitch c.1 c.2
    let d := dstPixelAddr j.dst j.mx j.my c.1 c.2
    [(s + 2, d), (s + 1, d + 1), (s, d + 2), (s + 3, d + 3)]

/-- Make byte moves in the order given. -/
def moveBytes (ms : List (Nat × Nat)) (m : Memory) : Memory :=
  ms.foldl (fun m p => m.write p.2 (m.read p.1)) m

/-- One access of TRANSFORM's memory phase (R55), to one byte: the move `p` is (source address, destination address). -/
inductive ByteAccess where
  /-- Read the move's source byte. -/
  | load (p : Nat × Nat)
  /-- Write the byte read for the move at its destination. -/
  | store (p : Nat × Nat)
  deriving DecidableEq, Repr

/-- What a list of single accesses has done: memory, and the bytes read, latest first. -/
structure AccessRun where
  mem : Memory
  held : List ((Nat × Nat) × Byte)
  deriving DecidableEq, Repr

/-- One access. A write of a byte that was never read does nothing; an `AccessOrder` has none. -/
def ByteAccess.perform : ByteAccess → AccessRun → AccessRun
  | .load p, r => { r with held := (p, r.mem.read p.1) :: r.held }
  | .store p, r =>
    match r.held.lookup p with
    | some b => { r with mem := r.mem.write p.2 b }
    | none => r

/-- Make single accesses in the order given. -/
def runAccesses (l : List ByteAccess) (m : Memory) : Memory :=
  (l.foldl (fun r (a : ByteAccess) => a.perform r) ({ mem := m, held := [] } : AccessRun)).mem

/-- R55: an order of the single accesses of byte moves. Each move's read and its write happen once, the read first;
between them, and among the moves, anything goes. -/
structure AccessOrder (ms : List (Nat × Nat)) (l : List ByteAccess) : Prop where
  once : l.Perm (ms.flatMap fun p => [.load p, .store p])
  readFirst : ∀ p ∈ ms, [.load p, .store p].Sublist l

/-- The byte writes of BUILD_HEADER (R116): (address, byte), in the model's order. -/
def headerWrites (a : Nat) (f : HeaderRecord) : List (Nat × Byte) :=
  f.toList.zipIdx.flatMap fun p => (List.range 4).map fun k => (a + 4 * p.2 + k, byteOfWord p.1 k)

/-- Make byte writes in the order given. -/
def writeBytes (ws : List (Nat × Byte)) (m : Memory) : Memory :=
  ws.foldl (fun m p => m.write p.1 p.2) m

end Sys2Proof.Machine
end

