-- ==== Sys2Proof/Certificates/Slice0/Obligations.lean ====
section
/-!
DEFINITION. The statements about SAC for the provers. Each docstring names the rule of spec/ it formalises, or says
what is the model's own. Every statement is about all states, so about every platform (REG_BASE, MEM_ADMITS).
-/

open Sys2Proof Sys2Proof.Machine

/-! ### Encoding and dispatch -/

/-- 30_encoding.md section 1, the opcode map: the six full words, and one of them as the four bytes a little-endian
host presents, decode to their commands. -/
def Obligations.TheSixCommandWordsDecode : Prop :=
  decodeWord 0x00000000 = .ok .nop ∧ decodeWord 0x00000001 = .ok .genMasks ∧ decodeWord 0x00000002 = .ok .calcAddr ∧
  decodeWord 0x00000003 = .ok .permutePixel ∧ decodeWord 0x00000004 = .ok .transform ∧
  decodeWord 0x00000005 = .ok .buildHeader ∧ decodeBytes [0x04, 0x00, 0x00, 0x00] = .ok .transform ∧
  decodeBytes [0x00, 0x00, 0x00, 0x04] = .error .reservedBits

/-- Decoding an encoded command gives it back, as a word, as bytes and as a table word. -/
def Obligations.DecodeOfEncodeIsTheCommand : Prop :=
  ∀ i : Instr, i.WellFormed → decodeWord (encodeWord i) = .ok i ∧ decodeBytes (encodeBytes i) = .ok i ∧
    decodeTableWord 32 (encodeWord i).toNat = some i

/-- R62: a legal word selects the command whose opcode is its OPC field, and only that word does; an illegal word
selects none. -/
def Obligations.DecodeSelectsByOpcodeAlone : Prop :=
  ∀ w : Word,
    (w.extractLsb 31 8 = 0 ∧ (w.extractLsb 7 0).toNat ≤ 0x05 →
      ∃ i, decodeWord w = .ok i ∧ i.opcode = w.extractLsb 7 0 ∧ encodeWord i = w) ∧
    (¬ (w.extractLsb 31 8 = 0 ∧ (w.extractLsb 7 0).toNat ≤ 0x05) → ∃ e, decodeWord w = .error e)

/-- A host write of a command's word to CMD runs exactly that command, from the state with the event taken (R17, R45,
R77). -/
def Obligations.StepRunsTheDecodedCommand : Prop :=
  ∀ (s : State) (w : Word) (i : Instr) (rest : List Event), decodeWord w = .ok i →
    s.input = hostWrite s .cmd w :: rest → step s = exec i { s with input := rest, answer := none }

/-- R80: an illegal word changes nothing but ERR and LAST_OP, on a halted SAC with HALTED; and its two worked words. -/
def Obligations.IllegalWordChangesOnlyErrAndLastOp : Prop :=
  ∀ (s : State) (w : Word) (rest : List Event), w.extractLsb 31 8 ≠ 0 ∨ 0x06 ≤ (w.extractLsb 7 0).toNat →
    s.input = hostWrite s .cmd w :: rest →
    (s.status.fatal = false → step s = .next (withOutcome (afterFetch s rest) (w.extractLsb 7 0) .illegalCmd)) ∧
    (s.status.fatal = true → step s = .next (withOutcome (afterFetch s rest) (w.extractLsb 7 0) .halted)) ∧
    (w = 0x00000105 → s.status.fatal = false → ∃ t, step s = .next t ∧ t.status.lastOp = 0x05 ∧ t.regs = s.regs ∧
      t.mem = s.mem) ∧
    (w = 0x00000006 → s.status.fatal = false → ∃ t, step s = .next t ∧
      (readReg .status t).toNat = 0x06000100 + s.status.tbits.toNat * 2 ^ 16 + s.status.maskValid.toNat)

/-- R23: every CMD write sets LAST_OP to the word's low byte, whatever the outcome. -/
def Obligations.LastOpShowsEveryCommandWord : Prop :=
  ∀ (s t : State) (w : Word) (rest : List Event), s.input = hostWrite s .cmd w :: rest → step s = .next t →
    t.status.lastOp = w.extractLsb 7 0

/-- On a halted SAC every command ends with HALTED and changes nothing but ERR and LAST_OP (R77, R124). -/
def Obligations.HaltedCommandsChangeOnlyErrAndLastOp : Prop :=
  ∀ (i : Instr) (s : State), s.status.fatal = true → exec i s = .next (withOutcome s i.opcode .halted)

/-- R79: NOP changes nothing but LAST_OP and ERR, which becomes OK, or HALTED on a halted SAC. -/
def Obligations.NopLeavesOk : Prop :=
  encodeWord .nop = 0x00000000 ∧ ∀ s : State,
    (s.status.fatal = false → exec .nop s = .next (withOutcome s 0x00 .ok)) ∧
    (s.status.fatal = true → exec .nop s = .next (withOutcome s 0x00 .halted))

/-! ### The register port -/

/-- R18's layout of the word a host reads at STATUS. -/
def Obligations.StatusWordHasItsFields : Prop :=
  ∀ s : State, (readReg .status s).extractLsb' 0 1 = BitVec.ofBool s.status.maskValid ∧
    (readReg .status s).extractLsb' 1 1 = BitVec.ofBool s.status.fatal ∧
    (readReg .status s).extractLsb' 2 6 = 0 ∧ (readReg .status s).extractLsb' 8 8 = s.status.err ∧
    (readReg .status s).extractLsb' 16 6 = s.status.tbits ∧ (readReg .status s).extractLsb' 22 2 = 0 ∧
    (readReg .status s).extractLsb' 24 8 = s.status.lastOp

/-- R15, R16: a host read at each offset of the window returns the register's value, CMD reads 0, and nothing else
changes. -/
def Obligations.HostReadReturnsTheRegister : Prop :=
  ∀ (s : State) (rest : List Event) (o : Nat) (v : Word),
    (o, v) ∈ [(0x00, 0#32), (0x04, readReg .status s), (0x08, s.regs.width), (0x0C, s.regs.height),
      (0x10, s.regs.depth), (0x14, s.regs.rowPitch), (0x18, s.regs.maskX), (0x1C, s.regs.maskY),
      (0x20, s.regs.maskZ), (0x24, s.regs.coordX), (0x28, s.regs.coordY), (0x2C, s.regs.coordZ),
      (0x30, s.regs.mortonIndex), (0x34, s.regs.dstOffset), (0x38, s.regs.srcOffset), (0x3C, s.regs.pixelIn),
      (0x40, s.regs.pixelOut), (0x44, s.regs.srcBase), (0x48, s.regs.dstBase), (0x4C, s.regs.bufLen),
      (0x50, s.regs.payloadLen), (0x54, s.regs.hdrBase), (0x58, s.regs.hdr.magic), (0x5C, s.regs.hdr.totalSize),
      (0x60, s.regs.hdr.headerSize), (0x64, s.regs.hdr.common), (0x68, s.regs.hdr.dataPtr), (0x6C, s.regs.hdr.lock),
      (0x70, s.regs.hdr.format), (0x74, s.regs.hdr.size), (0x78, s.regs.hdr.endOfHeader)] →
    s.input = .port { dir := .read, bits := 32, addr := s.platform.regBase + o, data := 0 } [] :: rest →
    step s = .next { s with input := rest, answer := some v }

/-- R16, R24: a host write of a register other than CMD stores all 32 bits of an RW register, is ignored by an RO
register, clears MASK_VALID at WIDTH, HEIGHT and DEPTH, and changes nothing else. -/
def Obligations.HostWriteChangesOneRwRegister : Prop :=
  ∀ (s : State) (r : Reg) (v : Word) (rest : List Event), r ≠ .cmd → s.input = hostWrite s r v :: rest →
    ∃ t, step s = .next t ∧ t.input = rest ∧ t.answer = none ∧ t.mem = s.mem ∧ t.platform = s.platform ∧
      t.draws = s.draws ∧
      t.status = (if r = .width ∨ r = .height ∨ r = .depth then { s.status with maskValid := false } else s.status) ∧
      ∀ r', r' ≠ .status → readReg r' t = if r' = r ∧ r.access = .rw then v else readReg r' s

/-- R43: a legal access to a reserved offset reads 0 or is ignored, and changes no state. -/
def Obligations.ReservedOffsetsReadZero : Prop :=
  ∀ (s : State) (o : Nat) (v : Word) (rest : List Event), 0x7C ≤ o → o ≤ 0xFC → o % 4 = 0 →
    (s.input = .port { dir := .read, bits := 32, addr := s.platform.regBase + o, data := v } [] :: rest →
      step s = .next { s with input := rest, answer := some 0 }) ∧
    (s.input = .port { dir := .write, bits := 32, addr := s.platform.regBase + o, data := v } [] :: rest →
      step s = .next { s with input := rest, answer := none })

/-- R42: an access in the window that is not 32 bits wide at a multiple of 4 is a fault of the host; a legal one never
faults. -/
def Obligations.OnlyAlignedWordAccessesAreLegal : Prop :=
  ∀ (s : State) (a : PortAccess) (rest : List Event), s.input = .port a [] :: rest →
    s.platform.regBase ≤ a.addr → a.addr < s.platform.regBase + 0x100 →
    (¬ (a.bits = 32 ∧ (a.addr - s.platform.regBase) % 4 = 0) → step s = .fault .hostAccess) ∧
    (a.bits = 32 ∧ (a.addr - s.platform.regBase) % 4 = 0 → ∀ f, step s ≠ .fault f)

/-- R16's table: between resets a register changes only by a host write to it, if it is RW, or by a command that
writes it; so host writes never change RO registers and no command changes an RW register. -/
def Obligations.EveryRegisterHasItsWriters : Prop :=
  ∀ (s t : State) (e : Event) (rest : List Event) (r : Reg), s.input = e :: rest → step s = .next t →
    e.resets = false → r ≠ .status → readReg r t ≠ readReg r s →
    (r.access = .rw ∧ e.writesReg s r) ∨ (r.access = .ro ∧ ∃ i ∈ r.writers, e.starts s = some i)

/-- MASK_VALID is set by a GEN_MASKS that ends with OK and by a TRANSFORM that passes its checks, cleared by a host write
of WIDTH, HEIGHT or DEPTH and by a reset, and changed by nothing else (R19; INVARIANT, its one other event, is never
raised: R88). Power-up leaves any value. -/
def Obligations.MaskValidChangesOnlyAsStated : Prop :=
  ∀ (s t : State) (e : Event) (rest : List Event), s.input = e :: rest → step s = .next t → e ≠ .powerUp →
    (e.starts s = some .genMasks → t.status.err = 0x00 → t.status.maskValid = true) ∧
    (e.starts s = some .transform → s.status.fatal = false → TransformAdmitted s → t.status.maskValid = true) ∧
    (e.resets = true ∨ e.writesReg s .width ∨ e.writesReg s .height ∨ e.writesReg s .depth →
      t.status.maskValid = false) ∧
    (s.status.maskValid = false → t.status.maskValid = true →
      (e.starts s = some .genMasks ∧ t.status.err = 0x00) ∨ (e.starts s = some .transform ∧ TransformAdmitted s)) ∧
    (s.status.maskValid = true → t.status.maskValid = false →
      e.resets = true ∨ e.writesReg s .width ∨ e.writesReg s .height ∨ e.writesReg s .depth)

/-! ### GEN_MASKS and the mask generator -/

/-- R7: clog2(n) is the number of k with 2^k < n, and the number of mask bits the generator gives an axis of extent
n. -/
def Obligations.Clog2CountsTheMaskBits : Prop :=
  (∀ n, 1 ≤ n → clog2 n = ((List.range n).filter fun k => 2 ^ k < n).length ∧ ∀ k, 2 ^ k < n → k < n) ∧
  ∀ w h d, DimsAdmitted w h d → ∀ a, popcount ((genMasks w h d).mask a) = clog2 (extent w h d a)

/-- GEN_MASKS on admitted dimensions: the masks of GenMasks, TBITS and MASK_VALID, and nothing else but LAST_OP and
ERR (R84, R22). -/
def Obligations.GenMasksCompletes : Prop :=
  ∀ s : State, s.status.fatal = false →
    DimsAdmitted s.regs.width.toNat s.regs.height.toNat s.regs.depth.toNat →
    exec .genMasks s = .next
      { s with
        regs :=
          { s.regs with
            maskX := BitVec.ofNat 32 (genMasks s.regs.width.toNat s.regs.height.toNat s.regs.depth.toNat).mx
            maskY := BitVec.ofNat 32 (genMasks s.regs.width.toNat s.regs.height.toNat s.regs.depth.toNat).my
            maskZ := BitVec.ofNat 32 (genMasks s.regs.width.toNat s.regs.height.toNat s.regs.depth.toNat).mz }
        status :=
          { maskValid := true, fatal := false, err := 0x00, lastOp := 0x01
            tbits := BitVec.ofNat 6
              (clog2 s.regs.width.toNat + clog2 s.regs.height.toNat + clog2 s.regs.depth.toNat) } }

/-- GEN_MASKS on other dimensions: DIM_ZERO, else DIM_RANGE, and nothing else changes (R84 corner case 5, R123). -/
def Obligations.GenMasksRejectsInOrder : Prop :=
  ∀ s : State, s.status.fatal = false →
    ((s.regs.width = 0 ∨ s.regs.height = 0 ∨ s.regs.depth = 0) →
      exec .genMasks s = .next (withOutcome s 0x01 .dimZero)) ∧
    (s.regs.width ≠ 0 ∧ s.regs.height ≠ 0 ∧ s.regs.depth ≠ 0 ∧
        30 < clog2 s.regs.width.toNat + clog2 s.regs.height.toNat + clog2 s.regs.depth.toNat →
      exec .genMasks s = .next (withOutcome s 0x01 .dimRange))

/-- R86: GenMasks runs B + 1 rounds, of which the first B make progress; it ends with bit = 2^(B+1) and
cursor = 2^TB; every intermediate value fits in 32 bits. (`n` rounds allowed with `n <= B` all run, and more than
B + 1 change nothing.) -/
def Obligations.GenMasksRunsOneRoundPastTheLongestAxis : Prop :=
  ∀ w h d B : Nat, DimsAdmitted w h d → B = max (clog2 w) (max (clog2 h) (clog2 d)) →
    (∀ n, n ≤ B → (maskRounds w h d n MaskGen.start).bit = 2 ^ n) ∧
    (∀ n, B + 1 ≤ n → maskRounds w h d n MaskGen.start = genMasks w h d) ∧
    (maskRound w h d (maskRounds w h d B MaskGen.start)).2 = false ∧
    (genMasks w h d).bit = 2 ^ (B + 1) ∧ (genMasks w h d).cursor = 2 ^ (clog2 w + clog2 h + clog2 d) ∧
    ∀ n, (maskRounds w h d n MaskGen.start).bit ≤ 2 ^ 31 ∧ (maskRounds w h d n MaskGen.start).cursor ≤ 2 ^ 30 ∧
      ∀ a, (maskRounds w h d n MaskGen.start).mask a < 2 ^ 30

/-- R88: the masks are pairwise disjoint, their union is the low TB bits, the postcondition holds, and so INVARIANT is
never raised. -/
def Obligations.MasksPartitionTheLowBits : Prop :=
  (∀ w h d, DimsAdmitted w h d →
    (genMasks w h d).mx &&& (genMasks w h d).my = 0 ∧ (genMasks w h d).mx &&& (genMasks w h d).mz = 0 ∧
    (genMasks w h d).my &&& (genMasks w h d).mz = 0 ∧
    (genMasks w h d).mx ||| (genMasks w h d).my ||| (genMasks w h d).mz =
      2 ^ (clog2 w + clog2 h + clog2 d) - 1 ∧
    (genMasks w h d).mx ^^^ (genMasks w h d).my ^^^ (genMasks w h d).mz = (genMasks w h d).cursor - 1) ∧
  ∀ (i : Instr) (s t : State), exec i s = .next t → t.status.err ≠ ErrCode.invariant.code ∧
    t.status.fatal = s.status.fatal

/-- R89: the closed form. Axis a has clog2 of its extent many mask bits, the r-th of them at P(a, r), and coordinate
bit r of the axis lands there. -/
def Obligations.MasksHaveTheClosedForm : Prop :=
  ∀ w h d, DimsAdmitted w h d → ∀ a : Axis,
    (genMasks w h d).mask a =
      ((List.range (clog2 (extent w h d a))).map fun r =>
        2 ^ maskPosition (fun a' => clog2 (extent w h d a')) a r).sum ∧
    popcount ((genMasks w h d).mask a) = clog2 (extent w h d a) ∧
    ∀ r, r < clog2 (extent w h d a) → ∀ v,
      (scatter ((genMasks w h d).mask a) v).testBit (maskPosition (fun a' => clog2 (extent w h d a')) a r) =
        v.testBit r

/-- R97: two GEN_MASKS with the same dimensions write the same masks and TBITS, whatever else differs; repeated, it
changes nothing. -/
def Obligations.GenMasksIsIdempotent : Prop :=
  (∀ s s' t t' : State, s.regs.width = s'.regs.width → s.regs.height = s'.regs.height →
    s.regs.depth = s'.regs.depth → exec .genMasks s = .next t → exec .genMasks s' = .next t' →
    t.status.err = 0x00 → t'.status.err = 0x00 →
    t.regs.maskX = t'.regs.maskX ∧ t.regs.maskY = t'.regs.maskY ∧ t.regs.maskZ = t'.regs.maskZ ∧
    t.status.tbits = t'.status.tbits) ∧
  ∀ s t : State, exec .genMasks s = .next t → exec .genMasks t = .next t

/-- R98: with unit extents all masks and the offset of (0,0,0) are 0; an axis of extent 1 has mask 0 and scatters
to 0. -/
def Obligations.UnitExtentsHaveNoMask : Prop :=
  (genMasks 1 1 1).mx = 0 ∧ (genMasks 1 1 1).my = 0 ∧ (genMasks 1 1 1).mz = 0 ∧ 4 * morton 0 0 0 0 0 0 = 0 ∧
  (∀ w h d a, extent w h d a = 1 → (genMasks w h d).mask a = 0) ∧ ∀ v, scatter 0 v = 0

/-- R99: for a 2^k x 2^k image the masks hold the even and the odd bits below 2k, and the Morton index interleaves x
and y; the deployment size. -/
def Obligations.SquareImagesInterleave : Prop :=
  (∀ k, k ≤ 15 →
    (∀ i, (genMasks (2 ^ k) (2 ^ k) 1).mx.testBit i = decide (i % 2 = 0 ∧ i < 2 * k)) ∧
    (∀ i, (genMasks (2 ^ k) (2 ^ k) 1).my.testBit i = decide (i % 2 = 1 ∧ i < 2 * k)) ∧
    (genMasks (2 ^ k) (2 ^ k) 1).mz = 0 ∧
    ∀ x y, x < 2 ^ k → y < 2 ^ k → ∀ i,
      (morton (genMasks (2 ^ k) (2 ^ k) 1).mx (genMasks (2 ^ k) (2 ^ k) 1).my 0 x y 0).testBit (2 * i) = x.testBit i ∧
      (morton (genMasks (2 ^ k) (2 ^ k) 1).mx (genMasks (2 ^ k) (2 ^ k) 1).my 0 x y 0).testBit (2 * i + 1) =
        y.testBit i) ∧
  (genMasks 64 64 1).mx = 0x555 ∧ (genMasks 64 64 1).my = 0xAAA ∧ (genMasks 64 64 1).mz = 0 ∧
  popcount ((genMasks 64 64 1).mx ||| (genMasks 64 64 1).my ||| (genMasks 64 64 1).mz) = 12 ∧
  (genMasks 4 4 1).mx = 0x5 ∧ (genMasks 4 4 1).my = 0xA ∧ (genMasks 4 4 1).mz = 0

/-! ### Scatter, Gather and the Morton index -/

/-- R92: for values below 2^popcount, Scatter stays inside the mask and is injective; zeros and all ones. -/
def Obligations.ScatterIsInjectiveInsideTheMask : Prop :=
  ∀ mask : Nat, mask < 2 ^ 32 →
    (∀ v, v < 2 ^ popcount mask → ∀ p, (scatter mask v).testBit p = true → mask.testBit p = true) ∧
    (∀ v v', v < 2 ^ popcount mask → v' < 2 ^ popcount mask → scatter mask v = scatter mask v' → v = v') ∧
    scatter mask 0 = 0 ∧ (∀ v, scatter 0 v = 0) ∧ scatter mask (2 ^ popcount mask - 1) = mask

/-- The round trip (R96): Gather through an axis' mask gives the coordinate back from the Morton index; for powers of
two every pixel number comes from the coordinate gathered from it. -/
def Obligations.GatherInvertsTheMortonIndex : Prop :=
  ∀ w h d, DimsAdmitted w h d →
    (∀ x y z, x < w → y < h → z < d →
      gather (genMasks w h d).mx (morton (genMasks w h d).mx (genMasks w h d).my (genMasks w h d).mz x y z) = x ∧
      gather (genMasks w h d).my (morton (genMasks w h d).mx (genMasks w h d).my (genMasks w h d).mz x y z) = y ∧
      gather (genMasks w h d).mz (morton (genMasks w h d).mx (genMasks w h d).my (genMasks w h d).mz x y z) = z) ∧
    ((∃ k, w = 2 ^ k) → (∃ k, h = 2 ^ k) → (∃ k, d = 2 ^ k) → ∀ n, n < w * h * d →
      morton (genMasks w h d).mx (genMasks w h d).my (genMasks w h d).mz (gather (genMasks w h d).mx n)
        (gather (genMasks w h d).my n) (gather (genMasks w h d).mz n) = n)

/-- R93: for powers of two the Morton index is a bijection from the coordinates onto the pixel numbers below W*H*D. -/
def Obligations.MortonIsABijectionForPowersOfTwo : Prop :=
  ∀ a b c, a + b + c ≤ 30 →
    let g := genMasks (2 ^ a) (2 ^ b) (2 ^ c)
    (∀ x y z, x < 2 ^ a → y < 2 ^ b → z < 2 ^ c → morton g.mx g.my g.mz x y z < 2 ^ a * 2 ^ b * 2 ^ c) ∧
    (∀ x y z x' y' z', x < 2 ^ a → y < 2 ^ b → z < 2 ^ c → x' < 2 ^ a → y' < 2 ^ b → z' < 2 ^ c →
      morton g.mx g.my g.mz x y z = morton g.mx g.my g.mz x' y' z' → x = x' ∧ y = y' ∧ z = z') ∧
    (∀ n, n < 2 ^ a * 2 ^ b * 2 ^ c → ∃ x y z, x < 2 ^ a ∧ y < 2 ^ b ∧ z < 2 ^ c ∧ morton g.mx g.my g.mz x y z = n)

/-- For any admitted dimensions the Morton index is injective with values below 2^TB (the part of
41_morton_order_encoder.md's rule on non-powers of two that holds of every image), and its 3 x 3 example. -/
def Obligations.MortonIsInjectiveForEveryImage : Prop :=
  (∀ w h d, DimsAdmitted w h d →
    let g := genMasks w h d
    (∀ x y z, x < w → y < h → z < d → morton g.mx g.my g.mz x y z < 2 ^ (clog2 w + clog2 h + clog2 d)) ∧
    ∀ x y z x' y' z', x < w → y < h → z < d → x' < w → y' < h → z' < d →
      morton g.mx g.my g.mz x y z = morton g.mx g.my g.mz x' y' z' → x = x' ∧ y = y' ∧ z = z') ∧
  (genMasks 3 3 1).mx = 0x5 ∧ (genMasks 3 3 1).my = 0xA ∧ morton 0x5 0xA 0 2 2 0 = 12

/-- The last claim of the rule on non-powers of two, as the spec words it. It FAILS: on 3 x 1 x 1 the indices are 0, 1
and 2, all below 3. Log entry 17. -/
def Obligations.NonPowerOfTwoAlwaysLeavesTheBuffer : Prop :=
  ∀ w h d, DimsAdmitted w h d → (¬ (∃ k, w = 2 ^ k) ∨ ¬ (∃ k, h = 2 ^ k) ∨ ¬ (∃ k, d = 2 ^ k)) →
    ∃ x y z, x < w ∧ y < h ∧ z < d ∧
      w * h * d ≤ morton (genMasks w h d).mx (genMasks w h d).my (genMasks w h d).mz x y z

/-! ### CALC_ADDR -/

/-- CALC_ADDR on admitted coordinates: the three results, and nothing else but LAST_OP and ERR (R100 to R102). On masks
whose index needs more than 30 bits, which only power-up can leave, the DST_OFFSET clause (the low 32 bits) is the
model's choice, log entry 19; on generated masks nothing is cut (DestinationOffsetNeedsNoRangeCheck). -/
def Obligations.CalcAddrCompletes : Prop :=
  ∀ s : State, s.status.fatal = false → CoordAdmitted s →
    exec .calcAddr s = .next
      { s with
        regs :=
          { s.regs with
            mortonIndex := BitVec.ofNat 32 (scatter s.regs.maskX.toNat s.regs.coordX.toNat |||
              scatter s.regs.maskY.toNat s.regs.coordY.toNat ||| scatter s.regs.maskZ.toNat s.regs.coordZ.toNat)
            dstOffset := BitVec.ofNat 32 (4 * (scatter s.regs.maskX.toNat s.regs.coordX.toNat |||
              scatter s.regs.maskY.toNat s.regs.coordY.toNat ||| scatter s.regs.maskZ.toNat s.regs.coordZ.toNat))
            srcOffset := BitVec.ofNat 32
              ((s.regs.coordY.toNat * s.regs.rowPitch.toNat + s.regs.coordX.toNat) * 4) }
        status := { s.status with lastOp := 0x02, err := 0x00 } }

/-- CALC_ADDR elsewhere: NO_MASKS, else COORD_RANGE, else OFFSET_RANGE, and nothing else changes (R100, R123). -/
def Obligations.CalcAddrRejectsInOrder : Prop :=
  ∀ s : State, s.status.fatal = false →
    (s.status.maskValid = false → exec .calcAddr s = .next (withOutcome s 0x02 .noMasks)) ∧
    (s.status.maskValid = true ∧
        (s.regs.width ≤ s.regs.coordX ∨ s.regs.height ≤ s.regs.coordY ∨ s.regs.depth ≤ s.regs.coordZ) →
      exec .calcAddr s = .next (withOutcome s 0x02 .coordRange)) ∧
    (s.status.maskValid = true ∧ s.regs.coordX < s.regs.width ∧ s.regs.coordY < s.regs.height ∧
        s.regs.coordZ < s.regs.depth ∧
        0xFFFFFFFF < (s.regs.coordY.toNat * s.regs.rowPitch.toNat + s.regs.coordX.toNat) * 4 →
      exec .calcAddr s = .next (withOutcome s 0x02 .offsetRange))

/-- R101: on masks that partition the low TBITS bits the index is the OR of the three scattered coordinates, it is
below 2^TBITS, and DST_OFFSET is four times it with no wrap. -/
def Obligations.DestinationOffsetNeedsNoRangeCheck : Prop :=
  ∀ s t : State, MasksPartition s → s.status.fatal = false → CoordAdmitted s → exec .calcAddr s = .next t →
    t.regs.mortonIndex.toNat = (scatter s.regs.maskX.toNat s.regs.coordX.toNat |||
      scatter s.regs.maskY.toNat s.regs.coordY.toNat ||| scatter s.regs.maskZ.toNat s.regs.coordZ.toNat) ∧
    t.regs.mortonIndex.toNat < 2 ^ s.status.tbits.toNat ∧ s.status.tbits.toNat ≤ 30 ∧
    t.regs.dstOffset.toNat = 4 * t.regs.mortonIndex.toNat ∧ t.regs.dstOffset.toNat ≤ 2 ^ 32 - 4

/-! ### PERMUTE_PIXEL -/

/-- R104, R105: PERMUTE_PIXEL writes PIXEL_IN with bytes 0 and 2 swapped to PIXEL_OUT, and nothing else but LAST_OP and
ERR; the source's pixel. -/
def Obligations.PermutePixelCompletes : Prop :=
  encodeWord .permutePixel = 0x00000003 ∧ ∀ s : State,
    (s.status.fatal = false → exec .permutePixel s = .next
      { s with
        regs :=
          { s.regs with
            pixelOut := byteOfWord s.regs.pixelIn 3 ++ byteOfWord s.regs.pixelIn 0 ++
              byteOfWord s.regs.pixelIn 1 ++ byteOfWord s.regs.pixelIn 2 }
        status := { s.status with lastOp := 0x03, err := 0x00 } }) ∧
    (s.status.fatal = true → exec .permutePixel s = .next (withOutcome s 0x03 .halted)) ∧
    (s.status.fatal = false → s.regs.pixelIn = 0x44332211 →
      ∃ t, exec .permutePixel s = .next t ∧ t.regs.pixelOut = 0x44112233)

/-- R106: Perm swaps lanes 0 and 2, fixes lanes 1 and 3, and is its own inverse. -/
def Obligations.PermIsItsOwnInverse : Prop :=
  ∀ p : Word, permWord (permWord p) = p ∧ byteOfWord (permWord p) 0 = byteOfWord p 2 ∧
    byteOfWord (permWord p) 1 = byteOfWord p 1 ∧ byteOfWord (permWord p) 2 = byteOfWord p 0 ∧
    byteOfWord (permWord p) 3 = byteOfWord p 3

/-! ### TRANSFORM -/

/-- TRANSFORM reports the first failing check, in the order of R123, and changes nothing else (R107 corner case 4). -/
def Obligations.TransformRejectsInOrder : Prop :=
  ∀ s : State, s.status.fatal = false →
    ∀ w h d p l src dst : Nat, w = s.regs.width.toNat → h = s.regs.height.toNat → d = s.regs.depth.toNat →
    p = s.regs.rowPitch.toNat → l = s.regs.bufLen.toNat → src = s.regs.srcBase.toNat → dst = s.regs.dstBase.toNat →
    (w = 0 ∨ h = 0 ∨ d = 0 → exec .transform s = .next (withOutcome s 0x04 .dimZero)) ∧
    (1 ≤ w → 1 ≤ h → 1 ≤ d →
      (30 < clog2 w + clog2 h + clog2 d → exec .transform s = .next (withOutcome s 0x04 .dimRange)) ∧
      (clog2 w + clog2 h + clog2 d ≤ 30 →
        (d ≠ 1 → exec .transform s = .next (withOutcome s 0x04 .depth)) ∧
        (d = 1 →
          (¬ (∃ k, w = 2 ^ k) ∨ ¬ (∃ k, h = 2 ^ k) → exec .transform s = .next (withOutcome s 0x04 .npot)) ∧
          ((∃ k, w = 2 ^ k) → (∃ k, h = 2 ^ k) →
            (p < w → exec .transform s = .next (withOutcome s 0x04 .pitch)) ∧
            (w ≤ p →
              (l < 4 * ((h - 1) * p + w) ∨ l < 4 * w * h → exec .transform s = .next (withOutcome s 0x04 .len)) ∧
              (4 * ((h - 1) * p + w) ≤ l → 4 * w * h ≤ l →
                (2 ^ 32 < src + l ∨ 2 ^ 32 < dst + l → exec .transform s = .next (withOutcome s 0x04 .addrRange)) ∧
                (src + l ≤ 2 ^ 32 → dst + l ≤ 2 ^ 32 → src < dst + l → dst < src + l →
                  exec .transform s = .next (withOutcome s 0x04 .overlap))))))))

/-- R111, with the completion of TRANSFORM: where the checks pass and the platform serves every byte, it ends with OK,
the masks latched, destination pixel n the Perm of its source pixel, and every other byte and register unchanged; the
byte moves made in any order, and the single one-byte reads and writes made in any order, give the same memory. -/
def Obligations.TransformMovesTheImage : Prop :=
  ∀ s : State, s.mem.Wf → s.status.fatal = false → TransformAdmitted s →
    Serves s.platform (footprint .transform s).touched →
    let w := s.regs.width.toNat
    let h := s.regs.height.toNat
    let g := genMasks w h 1
    let T := s.regs.dstBase.toNat
    ∃ m, exec .transform s = .next
        { s with
          mem := m
          regs := { s.regs with maskX := BitVec.ofNat 32 g.mx, maskY := BitVec.ofNat 32 g.my, maskZ := 0 }
          status :=
            { maskValid := true, fatal := false, err := 0x00, lastOp := 0x04
              tbits := BitVec.ofNat 6 (clog2 w + clog2 h) } } ∧
      (∀ n, n < w * h →
        let i := s.regs.srcBase.toNat + 4 * (gather g.my n * s.regs.rowPitch.toNat + gather g.mx n)
        m.read (T + 4 * n) = s.mem.read (i + 2) ∧ m.read (T + 4 * n + 1) = s.mem.read (i + 1) ∧
        m.read (T + 4 * n + 2) = s.mem.read i ∧ m.read (T + 4 * n + 3) = s.mem.read (i + 3)) ∧
      (∀ a, a < T ∨ T + 4 * (w * h) ≤ a → m.read a = s.mem.read a) ∧
      (∀ ms, ms.Perm (transformJob s).moves → moveBytes ms s.mem = m) ∧
      ∀ l, AccessOrder (transformJob s).moves l → runAccesses l s.mem = m

/-- R55: the final memory does not depend on the order of TRANSFORM's accesses, neither of whole byte moves nor of the
single one-byte reads and writes (a byte's read before its write), nor on the order of BUILD_HEADER's byte writes. -/
def Obligations.MemoryDoesNotDependOnTheAccessOrder : Prop :=
  (∀ (s : State) (ms : List (Nat × Nat)), s.mem.Wf → TransformAdmitted s → ms.Perm (transformJob s).moves →
    moveBytes ms s.mem = (transformJob s).copyAll s.mem) ∧
  (∀ (s : State) (l : List ByteAccess), s.mem.Wf → TransformAdmitted s → AccessOrder (transformJob s).moves l →
    runAccesses l s.mem = (transformJob s).copyAll s.mem) ∧
  ∀ (s : State) (f : HeaderRecord) (ws : List (Nat × Byte)), s.mem.Wf → HeaderAdmitted s →
    ws.Perm (headerWrites s.regs.hdrBase.toNat f) →
    writeBytes ws s.mem = writeHeader s.regs.hdrBase.toNat f s.mem

/-- R110: distinct coordinates have disjoint destination groups and distinct source pixels, and the two regions are
disjoint; so no byte is written twice and none is read after it was written. -/
def Obligations.TransformWritesEachByteOnce : Prop :=
  ∀ s : State, TransformAdmitted s →
    let j := transformJob s
    (∀ x y x' y', x < j.width → y < j.height → x' < j.width → y' < j.height → (x, y) ≠ (x', y') →
      (∀ k k', k < 4 → k' < 4 → dstPixelAddr j.dst j.mx j.my x y + k ≠ dstPixelAddr j.dst j.mx j.my x' y' + k') ∧
      srcPixelAddr j.src j.pitch x y ≠ srcPixelAddr j.src j.pitch x' y') ∧
    (∀ a ∈ j.footprint.reads, s.regs.srcBase.toNat ≤ a ∧ a < s.regs.srcBase.toNat + s.regs.bufLen.toNat) ∧
    (∀ a ∈ j.footprint.writes, s.regs.dstBase.toNat ≤ a ∧ a < s.regs.dstBase.toNat + s.regs.bufLen.toNat) ∧
    (∀ a, s.regs.srcBase.toNat ≤ a → a < s.regs.srcBase.toNat + s.regs.bufLen.toNat →
      ¬ (s.regs.dstBase.toNat ≤ a ∧ a < s.regs.dstBase.toNat + s.regs.bufLen.toNat)) ∧
    j.footprint.writes.Nodup ∧ ∀ a ∈ j.footprint.reads, a ∉ j.footprint.writes

/-- R103: CALC_ADDR after GEN_MASKS, from the same registers, gives the addresses TRANSFORM copies a pixel between. -/
def Obligations.CalcAddrPredictsTheTransform : Prop :=
  ∀ (s t : State) (x y : Word), s.mem.Wf → s.status.fatal = false → TransformAdmitted s →
    Serves s.platform (footprint .transform s).touched → x < s.regs.width → y < s.regs.height →
    exec .transform s = .next t →
    ∃ g c, exec .genMasks s = .next g ∧
      exec .calcAddr { g with regs := { g.regs with coordX := x, coordY := y, coordZ := 0 } } = .next c ∧
      c.status.err = 0x00 ∧
      (let i := s.regs.srcBase.toNat + c.regs.srcOffset.toNat
       let n := s.regs.dstBase.toNat + c.regs.dstOffset.toNat
       t.mem.read n = s.mem.read (i + 2) ∧ t.mem.read (n + 1) = s.mem.read (i + 1) ∧
       t.mem.read (n + 2) = s.mem.read i ∧ t.mem.read (n + 3) = s.mem.read (i + 3))

/-! ### BUILD_HEADER -/

/-- BUILD_HEADER where its checks pass and the platform serves the 36 bytes: the nine fields in HDR0 to HDR8 and,
little-endian, in memory (R113, R114, R116), and nothing else but LAST_OP and ERR. -/
def Obligations.BuildHeaderWritesTheRecord : Prop :=
  ∀ s : State, s.mem.Wf → s.status.fatal = false → HeaderAdmitted s →
    Serves s.platform ((List.range 36).map (s.regs.hdrBase.toNat + ·)) →
    let f : List Word := [0x30525058, BitVec.ofNat 32 (36 + s.regs.payloadLen.toNat), 0x00000024, 0x00040001,
      0x00000000, 0x00000000, 0x06610629, 0x00000000, 0xFFFFFFFF]
    ∃ m hdr, exec .buildHeader s = .next
        { s with mem := m, regs := { s.regs with hdr := hdr },
                 status := { s.status with lastOp := 0x05, err := 0x00 } } ∧
      hdr.toList = f ∧
      (∀ i k, i < 9 → k < 4 → m.read (s.regs.hdrBase.toNat + 4 * i + k) = byteOfWord (f.getD i 0) k) ∧
      ∀ a, a < s.regs.hdrBase.toNat ∨ s.regs.hdrBase.toNat + 36 ≤ a → m.read a = s.mem.read a

/-- R115: PACK exactly where PAYLOAD_LEN > 0xFFFFFFDB; SAC stays usable. Then ADDR_RANGE; either changes nothing but
LAST_OP and ERR. -/
def Obligations.BuildHeaderRejectsInOrder : Prop :=
  ∀ s : State, s.status.fatal = false →
    (0xFFFFFFDB < s.regs.payloadLen → exec .buildHeader s = .next (withOutcome s 0x05 .pack)) ∧
    (s.regs.payloadLen ≤ 0xFFFFFFDB → 0xFFFFFFDC < s.regs.hdrBase →
      exec .buildHeader s = .next (withOutcome s 0x05 .addrRange)) ∧
    ∀ t, exec .buildHeader s = .next t →
      (t.status.err = ErrCode.pack.code ↔ 36 + s.regs.payloadLen.toNat > 0xFFFFFFFF) ∧ t.status.fatal = false

/-- The output stream: with DST_BASE = HDR_BASE + 36 and PAYLOAD_LEN = BUF_LEN, TRANSFORM and BUILD_HEADER leave the
same memory in either order, and HDR1 is the stream's length (R117). The premise that the source does not meet the
header bytes is needed and not in the rule: log entry 22. -/
def Obligations.OutputStreamInEitherOrder : Prop :=
  ∀ s : State, s.mem.Wf → s.status.fatal = false → TransformAdmitted s → HeaderAdmitted s →
    s.regs.dstBase.toNat = s.regs.hdrBase.toNat + 36 → s.regs.payloadLen = s.regs.bufLen →
    Serves s.platform (footprint .transform s).touched → Serves s.platform (footprint .buildHeader s).touched →
    (s.regs.srcBase.toNat + s.regs.bufLen.toNat ≤ s.regs.hdrBase.toNat ∨
      s.regs.hdrBase.toNat + 36 ≤ s.regs.srcBase.toNat) →
    ∃ t u t' u', exec .transform s = .next t ∧ exec .buildHeader t = .next u ∧ exec .buildHeader s = .next t' ∧
      exec .transform t' = .next u' ∧ t.status.err = 0x00 ∧ u.status.err = 0x00 ∧ t'.status.err = 0x00 ∧
      u'.status.err = 0x00 ∧ u.mem = u'.mem ∧ u.regs = u'.regs ∧
      u.regs.hdr.totalSize.toNat = 36 + s.regs.bufLen.toNat

/-! ### Memory -/

/-- R47: MemWrite then MemRead of the same bytes gives the value's low 8n bits back, byte k is bits [8k+7:8k], and no
other byte changes. -/
def Obligations.MemWriteIsLittleEndian : Prop :=
  ∀ (m : Memory) (a n v : Nat), m.Wf → a + n ≤ 2 ^ 32 →
    (m.writeLE a n v).readLE a n = v % 2 ^ (8 * n) ∧
    (∀ k, k < n → (m.writeLE a n v).read (a + k) = BitVec.ofNat 8 (v >>> (8 * k))) ∧
    (∀ x, x < a ∨ a + n ≤ x → (m.writeLE a n v).read x = m.read x) ∧
    m.readLE a n = ((List.range n).map fun k => (m.read (a + k)).toNat * 2 ^ (8 * k)).sum

/-- R49: the bytes each command touches, exactly, and that no command changes any other byte. -/
def Obligations.CommandsTouchOnlyTheirBytes : Prop :=
  (∀ (i : Instr) (s t : State), s.mem.Wf → exec i s = .next t →
    SameOutside (footprint i s).writes s.mem t.mem) ∧
  (∀ (i : Instr) (s : State), i ≠ .transform → i ≠ .buildHeader → (footprint i s).touched = []) ∧
  (∀ s : State, (s.status.fatal = true ∨ ¬ TransformAdmitted s → (footprint .transform s).touched = []) ∧
    (s.status.fatal = false → TransformAdmitted s → ∀ a,
      (a ∈ (footprint .transform s).reads ↔ ∃ x y k, x < s.regs.width.toNat ∧ y < s.regs.height.toNat ∧ k < 4 ∧
        a = s.regs.srcBase.toNat + 4 * (y * s.regs.rowPitch.toNat + x) + k) ∧
      (a ∈ (footprint .transform s).writes ↔ ∃ x y k, x < s.regs.width.toNat ∧ y < s.regs.height.toNat ∧ k < 4 ∧
        a = s.regs.dstBase.toNat + 4 * morton (genMasks s.regs.width.toNat s.regs.height.toNat 1).mx
          (genMasks s.regs.width.toNat s.regs.height.toNat 1).my 0 x y 0 + k))) ∧
  ∀ s : State, (s.status.fatal = true ∨ ¬ HeaderAdmitted s → (footprint .buildHeader s).touched = []) ∧
    (s.status.fatal = false → HeaderAdmitted s → (footprint .buildHeader s).reads = [] ∧ ∀ a,
      (a ∈ (footprint .buildHeader s).writes ↔ s.regs.hdrBase.toNat ≤ a ∧ a < s.regs.hdrBase.toNat + 36))

/-- No byte a command touches lies past 0xFFFFFFFF (R50), and a region that would pass it is not touched at all. -/
def Obligations.NoAccessWrapsPastTheTop : Prop :=
  (∀ (i : Instr) (s : State), ∀ a ∈ (footprint i s).touched, a < 2 ^ 32) ∧
  (∀ s : State, 2 ^ 32 < s.regs.srcBase.toNat + s.regs.bufLen.toNat ∨
    2 ^ 32 < s.regs.dstBase.toNat + s.regs.bufLen.toNat → (footprint .transform s).touched = []) ∧
  ∀ s : State, 2 ^ 32 < s.regs.hdrBase.toNat + 36 → (footprint .buildHeader s).touched = []

/-- R2: a command's results depend on the registers and the bytes it reads alone. Two states alike in registers and
platform, and in the bytes the command reads, end alike in registers and in the bytes it writes. (`draws` picks the
free bytes of a bus error, R2's own exception.) -/
def Obligations.CommandsDependOnlyOnWhatTheyRead : Prop :=
  ∀ (i : Instr) (s s' t : State), s.mem.Wf → s'.mem.Wf → s'.regs = s.regs → s'.status = s.status →
    s'.platform = s.platform → s'.draws = s.draws →
    (∀ a ∈ (footprint i s).reads, s'.mem.read a = s.mem.read a) → exec i s = .next t →
    ∃ t', exec i s' = .next t' ∧ t'.regs = t.regs ∧ t'.status = t.status ∧
      ∀ a ∈ (footprint i s).writes, t'.mem.read a = t.mem.read a

/-- R51: if a byte the command touches answers with a bus error, and none lies in SAC's window, the command ends with
BUS; the registers are as without the error; every byte it would have written holds a free value, and no other byte
changes. -/
def Obligations.BusErrorKeepsRegistersAndFreesTheBytes : Prop :=
  ∀ (i : Instr) (s : State), s.mem.Wf → (∀ a ∈ (footprint i s).touched, inWindow s.platform a = false) →
    (∃ a ∈ (footprint i s).touched, memAdmits s.platform a = false) →
    ∃ t u, exec i s = .next t ∧ exec i { s with platform := { s.platform with busErrors := [] } } = .next u ∧
      t.regs = u.regs ∧ u.status.err = 0x00 ∧ t.status = { u.status with err := 0x0E } ∧
      t.platform = s.platform ∧ t.input = s.input ∧
      (∀ a ∈ (footprint i s).writes, t.mem.read a = Config.freeByte s.draws a) ∧
      SameOutside (footprint i s).writes s.mem t.mem

/-- Completion and the only stop: a command answers a next state unless it would access SAC's own register window, and
then it is refused (R52); it never faults. That one byte in the window refuses the whole command, even where another
byte would get a bus error, is the model's choice, log entry 10. -/
def Obligations.CommandsStopOnlyAtTheirOwnWindow : Prop :=
  ∀ (i : Instr) (s : State),
    ((∀ a ∈ (footprint i s).touched, inWindow s.platform a = false) → ∃ t, exec i s = .next t) ∧
    ((∃ a ∈ (footprint i s).touched, inWindow s.platform a = true) → exec i s = .refused .ownWindow)

/-! ### Other masters -/

/-- R54: a byte another master writes between commands is what memory then holds; nothing else changes. -/
def Obligations.MemoryWritesBetweenCommandsAreSeen : Prop :=
  ∀ (s : State) (a : Word) (b : Byte) (rest : List Event), s.mem.Wf → s.input = .memory (.write a b) :: rest →
    inWindow s.platform a.toNat = false →
    ∃ m, step s = .next { s with input := rest, answer := none, mem := m } ∧ m.read a.toNat = b ∧
      SameOutside [a.toNat] s.mem m

/-- An access of another agent to a byte the running command reads or writes is a fault (R56, R141). -/
def Obligations.InterferenceIsAFault : Prop :=
  ∀ (s : State) (w : Word) (i : Instr) (a : PortAccess) (others : List MemAccess) (rest : List Event),
    decodeWord w = .ok i →
    a = { dir := .write, bits := 32, addr := s.platform.regBase, data := w } → s.input = .port a others :: rest →
    (∃ m ∈ others, m.addr ∈ (footprint i s).touched) → step s = .fault .interference

/-- Accesses of other masters that meet no byte of the command commute with it: the step that takes them beforehand ends
in the same registers, status and memory as the quiet command followed by them (R56, R81; log entry 8). -/
def Obligations.DisjointAccessesCommuteWithTheCommand : Prop :=
  ∀ (s t : State) (a : PortAccess) (others : List MemAccess) (rest : List Event), s.mem.Wf →
    s.input = .port a others :: rest → step s = .next t →
    ∃ q u, step { s with input := .port a [] :: rest } = .next q ∧ memoryAccesses others q = .next u ∧
      u.regs = t.regs ∧ u.status = t.status ∧ u.answer = t.answer ∧ u.input = t.input ∧ u.mem = t.mem

/-- A step stops only where the platform or another master breaks its duty (Lawful, in Safety.lean): with lawful events
the machine never stops, and with an unlawful one it always does. Three of those stops are the model's choice: a command
with a byte in SAC's own window is refused whole (log entry 10), a port access outside the window is a fault (log entry
11), and so is another master's access to a byte in the window (log entry 12). -/
def Obligations.StepsAreSafeExactlyOnLawfulEvents : Prop :=
  ∀ s : State, SafeStep s ↔ ∀ e rest, s.input = e :: rest → Lawful s e

/-! ### Reset, power-up and invariants -/

/-- R38: every register reads 0 in the reset state, and after the reset input from any state, halted or not; memory is
not changed. -/
def Obligations.ResetClearsEveryRegister : Prop :=
  (∀ r, readReg r State.reset = 0) ∧ ∀ (s : State) (rest : List Event), s.input = .reset :: rest →
    ∃ t, step s = .next t ∧ (∀ r, readReg r t = 0) ∧ t.status.maskValid = false ∧ t.status.fatal = false ∧
      t.status.err = 0x00 ∧ t.status.tbits = 0 ∧ t.status.lastOp = 0x00 ∧ t.mem = s.mem

/-- R134: reset while a command runs leaves every register at its reset value and frees every byte the command would
have written; no other byte changes. -/
def Obligations.ResetDuringACommandFreesItsBytes : Prop :=
  ∀ (s : State) (w : Word) (i : Instr) (rest : List Event), s.mem.Wf → decodeWord w = .ok i →
    s.input = .portReset { dir := .write, bits := 32, addr := s.platform.regBase, data := w } [] :: rest →
    (∀ a ∈ (footprint i s).touched, inWindow s.platform a = false) →
    ∃ t, step s = .next t ∧ (∀ r, readReg r t = 0) ∧
      (∀ a ∈ (footprint i s).writes, t.mem.read a = Config.freeByte s.draws a) ∧
      SameOutside (footprint i s).writes s.mem t.mem

/-- From power-up every register, STATUS among them, holds a free value, whatever it held (R136). CMD stores nothing, and
the reserved bits of STATUS still read 0, which is deduced, log entry 6. That memory is as it was is the model's choice,
log entry 6. The reset that must follow clears them all. -/
def Obligations.PowerUpFreesTheRegistersUntilReset : Prop :=
  ∀ (s : State) (rest : List Event), s.input = .powerUp :: .reset :: rest →
    ∃ t u, step s = .next t ∧ step t = .next u ∧
      (∀ r, r ≠ .cmd → r ≠ .status → readReg r t = Config.freeWord s.draws r.offset) ∧
      t.status = freeStatus s.draws ∧
      readReg .status t = Config.freeWord s.draws Reg.status.offset &&& 0xFF3FFF03 ∧
      t.mem = s.mem ∧ (∀ r, readReg r u = 0) ∧ u.mem = s.mem

/-- FATAL, once set, is cleared by nothing but a reset or power-up (R20, R133), and until then no memory byte is
written by SAC: only another master's accesses change memory. -/
def Obligations.FatalLastsUntilReset : Prop :=
  ∀ (s t : State) (e : Event) (rest : List Event), s.input = e :: rest → step s = .next t →
    s.status.fatal = true → e.resets = false →
    t.status.fatal = true ∧ (∀ i, e.starts s = some i → t.status.err = ErrCode.halted.code ∧ t.regs = s.regs) ∧
    ∀ a, e = .port a [] → t.mem = s.mem

/-- FATAL is never set: no step but power-up takes a SAC that is not halted to a halted one (R20, R88). -/
def Obligations.FatalIsNeverSet : Prop :=
  ∀ s t : State, s.status.fatal = false → s.input.head? ≠ some .powerUp → step s = .next t → t.status.fatal = false

/-- Every step keeps memory in its canonical form. -/
def Obligations.EveryStepKeepsMemoryCanonical : Prop :=
  ∀ s t : State, s.mem.Wf → step s = .next t → t.mem.Wf

/-- The reset state meets the invariants. -/
def Obligations.ResetStateMeetsTheInvariants : Prop :=
  State.reset.mem.Wf ∧ RegisterInv State.reset

/-- Every step but power-up keeps the register invariants, and every reset establishes them from any state: ERR holds an
assigned code, FATAL is 0, the masks partition the low TBITS <= 30 bits and are the current ones while MASK_VALID is 1,
MORTON_INDEX is below 2^30, DST_OFFSET is four times it, SRC_OFFSET is a multiple of 4, and HDR0 to HDR8 are zero or one
built header (R19, R20, R22, R26, R28 to R30, R70, R118). -/
def Obligations.EveryStepKeepsTheRegisterInvariants : Prop :=
  ∀ s t : State, (RegisterInv s ∨ ∃ e rest, s.input = e :: rest ∧ e.resets = true) →
    s.input.head? ≠ some .powerUp → step s = .next t → RegisterInv t
end

