-- ==== Sys2Proof/Laws/Accesses.lean ====
section
/-!
SUPPORT. What one access of TRANSFORM's memory phase does (R55), case by case, and the empty run.
-/

namespace Sys2Proof.Machine

@[simp] theorem ByteAccess.perform_load_mem (p : Nat × Nat) (r : AccessRun) :
    ((ByteAccess.load p).perform r).mem = r.mem := rfl

@[simp] theorem ByteAccess.perform_load_held (p : Nat × Nat) (r : AccessRun) :
    ((ByteAccess.load p).perform r).held = (p, r.mem.read p.1) :: r.held := rfl

/-- A write of a byte that was read before. -/
theorem ByteAccess.perform_store_of_held {p : Nat × Nat} {r : AccessRun} {b : Byte} (h : r.held.lookup p = some b) :
    (ByteAccess.store p).perform r = { r with mem := r.mem.write p.2 b } := by
  simp only [ByteAccess.perform, h]

/-- A write never changes what has been read. -/
@[simp] theorem ByteAccess.perform_store_held (p : Nat × Nat) (r : AccessRun) :
    ((ByteAccess.store p).perform r).held = r.held := by
  simp only [ByteAccess.perform]
  split <;> rfl

@[simp] theorem runAccesses_nil (m : Memory) : runAccesses [] m = m := rfl

/-- One whole byte move is its read followed by its write. -/
theorem runAccesses_move (p : Nat × Nat) (m : Memory) :
    runAccesses [.load p, .store p] m = moveBytes [p] m := by
  simp [runAccesses, ByteAccess.perform, moveBytes]

end Sys2Proof.Machine
end

