-- ==== Sys2Proof/Laws/Memory.lean ====
section
/-!
SUPPORT. What the memory operations do: reading after writing, frames, the canonical form, and that canonical memories
that read alike are equal.
-/

namespace Sys2Proof.Machine

@[simp] theorem Memory.read_nil (a : Nat) : Memory.read [] a = Config.unwrittenByte := rfl

theorem Memory.read_cons (c : Host.Cell) (m : Memory) (a : Nat) :
    Memory.read (c :: m) a = if c.1 = a then c.2 else Memory.read m a := rfl

@[simp] theorem Memory.wf_nil : Memory.Wf [] := ⟨List.Pairwise.nil, by simp⟩

theorem Memory.wf_cons {c : Host.Cell} {m : Memory} :
    Memory.Wf (c :: m) ↔
      (∀ d ∈ m, c.1 < d.1) ∧ (c.2 ≠ Config.unwrittenByte ∧ c.1 < Config.memSpace) ∧ Memory.Wf m := by
  simp only [Memory.Wf, List.pairwise_cons, List.forall_mem_cons]
  tauto

/-- Below the lowest listed address every byte is unwritten. -/
theorem Memory.read_of_lt {m : Memory} {a : Nat} (h : ∀ d ∈ m, a < d.1) : m.read a = Config.unwrittenByte := by
  induction m with
  | nil => rfl
  | cons c m ih =>
    have hc : a < c.1 := h c (by simp)
    rw [Memory.read_cons, if_neg (by omega)]
    exact ih fun d hd => h d (by simp [hd])

/-- A write changes no listed address but its own. -/
theorem Memory.mem_write {m : Memory} {a : Nat} {b : Byte} {c : Host.Cell} (h : c ∈ m.write a b) :
    c = (a, b) ∧ b ≠ Config.unwrittenByte ∨ c ∈ m := by
  induction m with
  | nil =>
    simp only [Memory.write] at h
    split at h
    · simp at h
    · exact .inl ⟨by simpa using h, ‹_›⟩
  | cons d m ih =>
    simp only [Memory.write] at h
    split_ifs at h with h1 h2 h3 h4
    · exact .inr h
    · rcases List.mem_cons.1 h with rfl | h
      · exact .inl ⟨rfl, h2⟩
      · exact .inr h
    · exact .inr (by simp [h])
    · rcases List.mem_cons.1 h with rfl | h
      · exact .inl ⟨rfl, h4⟩
      · exact .inr (by simp [h])
    · rcases List.mem_cons.1 h with rfl | h
      · simp
      · rcases ih h with h | h
        · exact .inl h
        · exact .inr (by simp [h])

/-- A write inside the memory space keeps the canonical form. -/
theorem Memory.write_wf {m : Memory} (hm : m.Wf) {a : Nat} (ha : a < Config.memSpace) (b : Byte) :
    (m.write a b).Wf := by
  induction m with
  | nil =>
    simp only [Memory.write]
    split_ifs with h
    · exact Memory.wf_nil
    · exact Memory.wf_cons.2 ⟨by simp, ⟨h, ha⟩, Memory.wf_nil⟩
  | cons c m ih =>
    obtain ⟨hlt, hc, hwf⟩ := Memory.wf_cons.1 hm
    simp only [Memory.write]
    split_ifs with h1 h2 h3 h4
    · exact hm
    · refine Memory.wf_cons.2 ⟨fun d hd => ?_, ⟨h2, ha⟩, hm⟩
      rcases List.mem_cons.1 hd with rfl | hd
      · exact h1
      · exact h1.trans (hlt d hd)
    · exact hwf
    · exact Memory.wf_cons.2 ⟨fun d hd => by simpa [h3] using hlt d hd, ⟨h4, ha⟩, hwf⟩
    · refine Memory.wf_cons.2 ⟨fun d hd => ?_, hc, ih hwf⟩
      rcases Memory.mem_write hd with ⟨rfl, -⟩ | hd
      · show c.1 < a
        omega
      · exact hlt d hd

/-- R46: a byte reads as it was last written, and a write leaves every other byte alone. -/
theorem Memory.read_write {m : Memory} (hm : m.Wf) (a : Nat) (b : Byte) (x : Nat) :
    (m.write a b).read x = if x = a then b else m.read x := by
  induction m with
  | nil =>
    simp only [Memory.write]
    split_ifs with h1 h2 h2 <;> simp_all [Memory.read_cons, eq_comm]
  | cons c m ih =>
    obtain ⟨hlt, hc, hwf⟩ := Memory.wf_cons.1 hm
    have ih := ih hwf
    simp only [Memory.write]
    split_ifs with h1 h2 h3 h3 h4 h5 h6 h7 h8
    · subst h3
      rw [Memory.read_of_lt fun d hd => ?_, h2]
      rcases List.mem_cons.1 hd with rfl | hd
      · exact h1
      · exact h1.trans (hlt d hd)
    · rfl
    · simp [Memory.read_cons, h3]
    · rw [Memory.read_cons, if_neg (by simpa [eq_comm] using h3)]
    · subst h6; subst h4
      rw [Memory.read_of_lt hlt, h5]
    · rw [Memory.read_cons, if_neg (by omega)]
    · simp [Memory.read_cons, h7]
    · simp only [Memory.read_cons, if_neg (show ¬ a = x by omega), if_neg (show ¬ c.1 = x by omega)]
    · rw [Memory.read_cons, ih, if_neg (by omega), if_pos h8]
    · rw [Memory.read_cons, Memory.read_cons, ih, if_neg h8]

theorem Memory.read_write_same {m : Memory} (hm : m.Wf) (a : Nat) (b : Byte) : (m.write a b).read a = b := by
  rw [Memory.read_write hm, if_pos rfl]

theorem Memory.read_write_ne {m : Memory} (hm : m.Wf) {a x : Nat} (b : Byte) (h : x ≠ a) :
    (m.write a b).read x = m.read x := by
  rw [Memory.read_write hm, if_neg h]

/-- Every listed byte is what its address reads as. -/
theorem Memory.read_of_mem {m : Memory} (hm : m.Wf) {c : Host.Cell} (hc : c ∈ m) : m.read c.1 = c.2 := by
  induction m with
  | nil => simp at hc
  | cons d m ih =>
    obtain ⟨hlt, -, hwf⟩ := Memory.wf_cons.1 hm
    rcases List.mem_cons.1 hc with rfl | hc
    · simp [Memory.read_cons]
    · have := hlt c hc
      rw [Memory.read_cons, if_neg (by omega), ih hwf hc]

/-- Canonical memories that read alike are equal. -/
theorem Memory.ext_read {m m' : Memory} (hm : m.Wf) (hm' : m'.Wf) (h : ∀ a, m.read a = m'.read a) : m = m' := by
  induction m generalizing m' with
  | nil =>
    cases m' with
    | nil => rfl
    | cons d q =>
      have := h d.1
      rw [Memory.read_of_mem hm' (by simp)] at this
      exact absurd this.symm (hm'.2 d (by simp)).1
  | cons c m ih =>
    obtain ⟨hlt, hc, hwf⟩ := Memory.wf_cons.1 hm
    cases m' with
    | nil =>
      have := h c.1
      rw [Memory.read_of_mem hm (by simp)] at this
      exact absurd this hc.1
    | cons d q =>
      obtain ⟨hlt', hd, hwf'⟩ := Memory.wf_cons.1 hm'
      have h1 : ¬ c.1 < d.1 := fun hcd => hc.1 (by
        rw [← Memory.read_of_mem hm (c := c) (by simp), h, Memory.read_of_lt]
        intro e he
        rcases List.mem_cons.1 he with rfl | he
        · exact hcd
        · exact hcd.trans (hlt' e he))
      have h2 : ¬ d.1 < c.1 := fun hdc => hd.1 (by
        rw [← Memory.read_of_mem hm' (c := d) (by simp), ← h, Memory.read_of_lt]
        intro e he
        rcases List.mem_cons.1 he with rfl | he
        · exact hdc
        · exact hdc.trans (hlt e he))
      have haddr : c.1 = d.1 := by omega
      have hbyte : c.2 = d.2 := by
        rw [← Memory.read_of_mem hm (c := c) (by simp), ← Memory.read_of_mem hm' (c := d) (by simp), h, haddr]
      have htail : m = q := ih hwf hwf' fun a => by
        by_cases ha : a = c.1
        · rw [ha, Memory.read_of_lt hlt, haddr, Memory.read_of_lt hlt']
        · have := h a
          rwa [Memory.read_cons, Memory.read_cons, if_neg (Ne.symm ha),
            if_neg (by rw [← haddr]; exact Ne.symm ha)] at this
      rw [htail, Prod.ext haddr hbyte]

/-! ### Many writes -/

/-- Writes of bytes at addresses inside the memory space, each byte given by its address, keep the canonical form. -/
theorem Memory.writeAll_wf {as : List Nat} (has : ∀ a ∈ as, a < Config.memSpace) (f : Nat → Byte) {m : Memory}
    (hm : m.Wf) : (as.foldl (fun m a => m.write a (f a)) m).Wf := by
  induction as generalizing m with
  | nil => exact hm
  | cons a as ih =>
    exact ih (fun x hx => has x (by simp [hx])) (Memory.write_wf hm (has a (by simp)) _)

/-- ... and a byte reads as its own value where it was written, as before elsewhere. -/
theorem Memory.read_writeAll {as : List Nat} (has : ∀ a ∈ as, a < Config.memSpace) (f : Nat → Byte) {m : Memory}
    (hm : m.Wf) (x : Nat) :
    (as.foldl (fun m a => m.write a (f a)) m).read x = if x ∈ as then f x else m.read x := by
  induction as generalizing m with
  | nil => simp
  | cons a as ih =>
    rw [List.foldl_cons, ih (fun x hx => has x (by simp [hx])) (Memory.write_wf hm (has a (by simp)) _),
      Memory.read_write hm]
    by_cases h1 : x ∈ as <;> by_cases h2 : x = a <;> simp [h1, h2]

/-- R51, R134: a free draw leaves memory outside the listed bytes, and every field but memory and the count. -/
theorem drawBytes_read {as : List Nat} (has : ∀ a ∈ as, a < Config.memSpace) {s : State} (hm : s.mem.Wf) (x : Nat) :
    (drawBytes as s).mem.read x = if x ∈ as then Config.freeByte s.draws x else s.mem.read x :=
  Memory.read_writeAll has _ hm x

theorem drawBytes_wf {as : List Nat} (has : ∀ a ∈ as, a < Config.memSpace) {s : State} (hm : s.mem.Wf) :
    (drawBytes as s).mem.Wf :=
  Memory.writeAll_wf has _ hm

/-- R47: what MemWrite leaves: byte k of the value at a + k, every other byte alone, and the canonical form. -/
theorem Memory.writeLE_spec {m : Memory} (hm : m.Wf) {a n : Nat} (v : Nat) (hn : a + n ≤ Config.memSpace) :
    (m.writeLE a n v).Wf ∧ ∀ x, (m.writeLE a n v).read x =
      if a ≤ x ∧ x < a + n then BitVec.ofNat 8 (v >>> (8 * (x - a))) else m.read x := by
  induction n with
  | zero =>
    refine ⟨hm, fun x => ?_⟩
    rw [if_neg (by omega)]
    rfl
  | succ n ih =>
    obtain ⟨hwf, hread⟩ := ih (by omega)
    have step : m.writeLE a (n + 1) v = (m.writeLE a n v).write (a + n) (BitVec.ofNat 8 (v >>> (8 * n))) := by
      simp [Memory.writeLE, List.range_succ]
    rw [step]
    refine ⟨Memory.write_wf hwf (by omega) _, fun x => ?_⟩
    rw [Memory.read_write hwf, hread]
    by_cases h1 : x = a + n
    · rw [if_pos h1, if_pos (by omega), h1, Nat.add_sub_cancel_left]
    · rw [if_neg h1]
      by_cases h2 : a ≤ x ∧ x < a + n
      · rw [if_pos h2, if_pos (by omega)]
      · rw [if_neg h2, if_neg (by omega)]

end Sys2Proof.Machine
end

