-- ==== Sys2Proof/Laws/Morton.lean ====
section
/-!
SUPPORT. The primitives of the Morton order encoder: clog2 and ispow2 in the words of 00_scope.md section 5, and
Scatter and Gather bit by bit.
-/

namespace Sys2Proof.Machine

/-! ### clog2 and ispow2 -/

/-- `clog2 n` is the least k with n <= 2^k. -/
theorem clog2_le_iff (n k : Nat) : clog2 n ≤ k ↔ n ≤ 2 ^ k := by
  have h1 : 1 ≤ 2 ^ k := Nat.one_le_two_pow
  unfold clog2
  split_ifs with h
  · simp only [Nat.zero_le, true_iff]; omega
  · rw [Nat.add_one_le_iff, Nat.log2_lt (by omega)]; omega

theorem lt_clog2_iff (n k : Nat) : k < clog2 n ↔ 2 ^ k < n := by
  rw [← not_le, clog2_le_iff, not_le]

theorem le_two_pow_clog2 (n : Nat) : n ≤ 2 ^ clog2 n := (clog2_le_iff n _).1 le_rfl

@[simp] theorem clog2_two_pow (k : Nat) : clog2 (2 ^ k) = k := by
  refine le_antisymm ((clog2_le_iff _ _).2 le_rfl) ?_
  rcases k with _ | k
  · exact Nat.zero_le _
  · exact (lt_clog2_iff _ _).2 (Nat.pow_lt_pow_right (by omega) (by omega))

theorem ispow2_iff (n : Nat) : ispow2 n = true ↔ ∃ k, n = 2 ^ k := by
  rcases Nat.eq_zero_or_pos n with rfl | h
  · simpa [ispow2] using fun k => (Nat.two_pow_pos k).ne
  · have := Nat.and_sub_one_eq_zero_iff_isPowerOfTwo (n := n) (by omega)
    simp only [ispow2, Bool.and_eq_true, decide_eq_true_eq, beq_iff_eq, this]
    simp only [Nat.isPowerOfTwo]
    exact ⟨fun h => h.2, fun h' => ⟨h, h'⟩⟩

/-! ### Scatter and Gather -/

/-- The number of 1 bits of a mask below position `p`: where the mask bit at `p` takes its value bit from. -/
def rank (mask p : Nat) : Nat := ((List.range p).filter mask.testBit).length

theorem rank_succ (mask p : Nat) : rank mask (p + 1) = rank mask p + (mask.testBit p).toNat := by
  unfold rank
  rw [List.range_succ, List.filter_append]
  cases h : mask.testBit p <;> simp [h]

theorem rank_mono (mask : Nat) {p q : Nat} (h : p ≤ q) : rank mask p ≤ rank mask q := by
  induction h with
  | refl => exact le_rfl
  | step _ ih => rw [rank_succ]; omega

/-- `popcount` counts the mask bits below position 32. -/
theorem popcount_eq_rank (m : Nat) : popcount m = rank m 32 := rfl

/-- The mask bit at `p` is one of the `popcount` bits. -/
theorem rank_lt_popcount {mask p : Nat} (hp : p < 32) (h : mask.testBit p = true) : rank mask p < popcount mask := by
  have := rank_mono mask (show p + 1 ≤ 32 by omega)
  rw [rank_succ, h] at this
  rw [popcount_eq_rank]
  simpa using this

theorem testBit_toNat_shiftLeft (b : Bool) (k p : Nat) :
    (b.toNat <<< k).testBit p = (decide (p = k) && b) := by
  rw [Nat.testBit_shiftLeft]
  by_cases hk : p = k
  · cases b <;> simp [hk]
  · by_cases h : k ≤ p
    · have hb : b.toNat < 2 ^ (p - k) :=
        lt_of_le_of_lt (Bool.toNat_le b) (Nat.one_lt_two_pow (by omega))
      simp [hk, Nat.testBit_lt_two_pow hb]
    · simp [hk, h]

/-- R90, bit by bit: bit `p` of the scattered value is the next unused bit of `v` where the mask has a 1. -/
theorem testBit_scatter (mask v p : Nat) :
    (scatter mask v).testBit p = (decide (p < 32) && mask.testBit p && v.testBit (rank mask p)) := by
  have key : ∀ n, ∀ r : Nat × Nat,
      (List.range n).foldl (fun (q : Nat × Nat) k =>
        if mask.testBit k then (q.1 ||| (v.testBit q.2).toNat <<< k, q.2 + 1) else q) (0, 0) = r →
      r.2 = rank mask n ∧ ∀ p, r.1.testBit p = (decide (p < n) && mask.testBit p && v.testBit (rank mask p)) := by
    intro n
    induction n with
    | zero => rintro _ rfl; exact ⟨rfl, by simp⟩
    | succ n ih =>
      rintro _ rfl
      obtain ⟨h2, h1⟩ := ih _ rfl
      rw [List.range_succ, List.foldl_append, List.foldl_cons, List.foldl_nil, rank_succ]
      cases hm : mask.testBit n with
      | false =>
        refine ⟨by simpa using h2, fun p => ?_⟩
        simp only [Bool.false_eq_true, if_false, h1]
        by_cases hp : p = n
        · simp [hp, hm]
        · have : (p < n) = (p < n + 1) := by apply propext; omega
          simp [this]
      | true =>
        refine ⟨by simpa using h2, fun p => ?_⟩
        simp only [if_true, Nat.testBit_or, h1, h2, testBit_toNat_shiftLeft]
        by_cases hp : p = n
        · simp [hp, hm]
        · have : (p < n) = (p < n + 1) := by apply propext; omega
          simp [this, hp]
  exact (key 32 _ rfl).2 p

/-- R95, bit by bit: the mask bit at position `p` puts bit `p` of `m` at its rank. -/
theorem testBit_gather (mask m i : Nat) :
    (gather mask m).testBit i = true ↔ ∃ p, p < 32 ∧ mask.testBit p = true ∧ rank mask p = i ∧ m.testBit p = true := by
  have key : ∀ n, ∀ r : Nat × Nat,
      (List.range n).foldl (fun (q : Nat × Nat) k =>
        if mask.testBit k then (q.1 ||| (m.testBit k).toNat <<< q.2, q.2 + 1) else q) (0, 0) = r →
      r.2 = rank mask n ∧ ∀ i, r.1.testBit i = true ↔
        ∃ p, p < n ∧ mask.testBit p = true ∧ rank mask p = i ∧ m.testBit p = true := by
    intro n
    induction n with
    | zero => rintro _ rfl; exact ⟨rfl, by simp⟩
    | succ n ih =>
      rintro _ rfl
      obtain ⟨h2, h1⟩ := ih _ rfl
      rw [List.range_succ, List.foldl_append, List.foldl_cons, List.foldl_nil, rank_succ]
      cases hm : mask.testBit n with
      | false =>
        refine ⟨by simpa using h2, fun i => ?_⟩
        simp only [Bool.false_eq_true, if_false, h1]
        constructor
        · rintro ⟨p, hp, h⟩; exact ⟨p, by omega, h⟩
        · rintro ⟨p, hp, hb, h⟩
          have : p ≠ n := by rintro rfl; simp [hm] at hb
          exact ⟨p, by omega, hb, h⟩
      | true =>
        refine ⟨by simpa using h2, fun i => ?_⟩
        simp only [if_true, Nat.testBit_or, Bool.or_eq_true, h1, h2, testBit_toNat_shiftLeft, Bool.and_eq_true,
          decide_eq_true_eq]
        constructor
        · rintro (⟨p, hp, h⟩ | ⟨rfl, hb⟩)
          · exact ⟨p, by omega, h⟩
          · exact ⟨n, by omega, hm, rfl, hb⟩
        · rintro ⟨p, hp, hb, hr, hv⟩
          by_cases hpn : p = n
          · subst hpn; exact .inr ⟨hr.symm, hv⟩
          · exact .inl ⟨p, by omega, hb, hr, hv⟩
  exact (key 32 _ rfl).2 i

/-- Mask bits of equal rank are the same bit. -/
theorem rank_inj {mask p q : Nat} (hp : mask.testBit p = true) (hq : mask.testBit q = true)
    (h : rank mask p = rank mask q) : p = q := by
  have step : ∀ {a b : Nat}, mask.testBit a = true → a < b → rank mask a < rank mask b := by
    intro a b ha hab
    have := rank_mono mask (show a + 1 ≤ b by omega)
    rw [rank_succ, ha] at this
    simpa using this
  rcases lt_trichotomy p q with hlt | heq | hgt
  · have := step hp hlt; omega
  · exact heq
  · have := step hq hgt; omega

/-- Gather undoes Scatter up to the bits Scatter drops. -/
theorem testBit_gather_scatter (mask v i : Nat) :
    (gather mask (scatter mask v)).testBit i = true ↔ v.testBit i = true ∧ i < popcount mask := by
  rw [testBit_gather]
  constructor
  · rintro ⟨p, hp, hm, rfl, hs⟩
    rw [testBit_scatter] at hs
    simp only [Bool.and_eq_true] at hs
    exact ⟨hs.2, rank_lt_popcount hp hm⟩
  · rintro ⟨hv, hi⟩
    have : ∀ n, i < rank mask n → ∃ p, p < n ∧ mask.testBit p = true ∧ rank mask p = i := by
      intro n
      induction n with
      | zero => simp [rank]
      | succ n ih =>
        intro h
        by_cases hn : i < rank mask n
        · obtain ⟨p, hp, h⟩ := ih hn
          exact ⟨p, by omega, h⟩
        · rw [rank_succ] at h
          cases hm : mask.testBit n with
          | false => rw [hm] at h; simp at h; omega
          | true => rw [hm] at h; simp at h; exact ⟨n, by omega, hm, by omega⟩
    obtain ⟨p, hp, hm, hr⟩ := this 32 hi
    exact ⟨p, hp, hm, hr, by rw [testBit_scatter]; simp [hp, hm, hr, hv]⟩

/-! ### The mask generator -/

/-- One turn of an axis: what it changes, by whether the candidate position is below the extent. -/
theorem axisTurn_take {a : Axis} {ext : Nat} {p : MaskGen × Bool} (h : p.1.bit < ext) :
    axisTurn a ext p = (p.1.take a, true) := if_pos h

theorem axisTurn_skip {a : Axis} {ext : Nat} {p : MaskGen × Bool} (h : ¬ p.1.bit < ext) :
    axisTurn a ext p = p := if_neg h

@[simp] theorem MaskGen.take_bit (g : MaskGen) (a : Axis) : (g.take a).bit = g.bit := by cases a <;> rfl
@[simp] theorem MaskGen.take_cursor (g : MaskGen) (a : Axis) : (g.take a).cursor = g.cursor <<< 1 := by
  cases a <;> rfl
theorem MaskGen.take_mask (g : MaskGen) (a b : Axis) :
    (g.take a).mask b = if b = a then g.mask b ||| g.cursor else g.mask b := by cases a <;> cases b <;> rfl

@[simp] theorem axisTurn_bit (a : Axis) (ext : Nat) (p : MaskGen × Bool) : (axisTurn a ext p).1.bit = p.1.bit := by
  unfold axisTurn; split <;> simp

/-- A property kept by every turn that takes a bit, and that does not speak of the candidate position, holds of every
generator state. -/
theorem maskRounds_induct (P : MaskGen → Prop) (hbit : ∀ g k, P g → P { g with bit := k })
    (htake : ∀ g a, P g → P (g.take a)) (w h d n : Nat) {g : MaskGen} (hg : P g) : P (maskRounds w h d n g) := by
  have turn : ∀ a e, ∀ p : MaskGen × Bool, P p.1 → P (axisTurn a e p).1 := by
    intro a e p hp
    unfold axisTurn
    split
    · exact htake _ _ hp
    · exact hp
  induction n generalizing g with
  | zero => exact hg
  | succ n ih =>
    have hr : P (maskRound w h d g).1 := hbit _ _ (turn _ _ _ (turn _ _ _ (turn _ _ _ hg)))
    simp only [maskRounds]
    split
    · exact ih hr
    · exact hr

end Sys2Proof.Machine
end

