-- ==== Sys2Proof/Laws/State.lean ====
section
/-!
SUPPORT. One lemma per field of State per named update, all true by rfl, so that no proof unfolds a record update.
(The two fields computed by longer terms, `(writeOffsets s).regs` and `(drawBytes as s).mem`, have lemmas of their own:
`drawBytes_read` in Laws/Memory.lean.)
-/

namespace Sys2Proof.Machine

@[simp] theorem setErr_regs (c : ErrCode) (s : State) : (setErr c s).regs = s.regs := rfl
@[simp] theorem setErr_status (c : ErrCode) (s : State) : (setErr c s).status = { s.status with err := c.code } := rfl
@[simp] theorem setErr_mem (c : ErrCode) (s : State) : (setErr c s).mem = s.mem := rfl
@[simp] theorem setErr_platform (c : ErrCode) (s : State) : (setErr c s).platform = s.platform := rfl
@[simp] theorem setErr_input (c : ErrCode) (s : State) : (setErr c s).input = s.input := rfl
@[simp] theorem setErr_answer (c : ErrCode) (s : State) : (setErr c s).answer = s.answer := rfl
@[simp] theorem setErr_draws (c : ErrCode) (s : State) : (setErr c s).draws = s.draws := rfl

@[simp] theorem setLastOp_regs (op : BitVec 8) (s : State) : (setLastOp op s).regs = s.regs := rfl
@[simp] theorem setLastOp_status (op : BitVec 8) (s : State) : (setLastOp op s).status = { s.status with lastOp := op } := rfl
@[simp] theorem setLastOp_mem (op : BitVec 8) (s : State) : (setLastOp op s).mem = s.mem := rfl
@[simp] theorem setLastOp_platform (op : BitVec 8) (s : State) : (setLastOp op s).platform = s.platform := rfl
@[simp] theorem setLastOp_input (op : BitVec 8) (s : State) : (setLastOp op s).input = s.input := rfl
@[simp] theorem setLastOp_answer (op : BitVec 8) (s : State) : (setLastOp op s).answer = s.answer := rfl
@[simp] theorem setLastOp_draws (op : BitVec 8) (s : State) : (setLastOp op s).draws = s.draws := rfl

@[simp] theorem clearMaskValid_regs (s : State) : (clearMaskValid s).regs = s.regs := rfl
@[simp] theorem clearMaskValid_status (s : State) : (clearMaskValid s).status = { s.status with maskValid := false } := rfl
@[simp] theorem clearMaskValid_mem (s : State) : (clearMaskValid s).mem = s.mem := rfl
@[simp] theorem clearMaskValid_platform (s : State) : (clearMaskValid s).platform = s.platform := rfl
@[simp] theorem clearMaskValid_input (s : State) : (clearMaskValid s).input = s.input := rfl
@[simp] theorem clearMaskValid_answer (s : State) : (clearMaskValid s).answer = s.answer := rfl
@[simp] theorem clearMaskValid_draws (s : State) : (clearMaskValid s).draws = s.draws := rfl

@[simp] theorem setMasksValid_regs (n : Nat) (s : State) : (setMasksValid n s).regs = s.regs := rfl
@[simp] theorem setMasksValid_status (n : Nat) (s : State) : (setMasksValid n s).status = { s.status with maskValid := true, tbits := BitVec.ofNat 6 n } := rfl
@[simp] theorem setMasksValid_mem (n : Nat) (s : State) : (setMasksValid n s).mem = s.mem := rfl
@[simp] theorem setMasksValid_platform (n : Nat) (s : State) : (setMasksValid n s).platform = s.platform := rfl
@[simp] theorem setMasksValid_input (n : Nat) (s : State) : (setMasksValid n s).input = s.input := rfl
@[simp] theorem setMasksValid_answer (n : Nat) (s : State) : (setMasksValid n s).answer = s.answer := rfl
@[simp] theorem setMasksValid_draws (n : Nat) (s : State) : (setMasksValid n s).draws = s.draws := rfl

@[simp] theorem setFatal_regs (s : State) : (setFatal s).regs = s.regs := rfl
@[simp] theorem setFatal_status (s : State) : (setFatal s).status = { s.status with fatal := true, maskValid := false } := rfl
@[simp] theorem setFatal_mem (s : State) : (setFatal s).mem = s.mem := rfl
@[simp] theorem setFatal_platform (s : State) : (setFatal s).platform = s.platform := rfl
@[simp] theorem setFatal_input (s : State) : (setFatal s).input = s.input := rfl
@[simp] theorem setFatal_answer (s : State) : (setFatal s).answer = s.answer := rfl
@[simp] theorem setFatal_draws (s : State) : (setFatal s).draws = s.draws := rfl

@[simp] theorem finishOk_regs (s : State) : (finishOk s).regs = s.regs := rfl
@[simp] theorem finishOk_status (s : State) : (finishOk s).status = { s.status with err := ErrCode.ok.code } := rfl
@[simp] theorem finishOk_mem (s : State) : (finishOk s).mem = s.mem := rfl
@[simp] theorem finishOk_platform (s : State) : (finishOk s).platform = s.platform := rfl
@[simp] theorem finishOk_input (s : State) : (finishOk s).input = s.input := rfl
@[simp] theorem finishOk_answer (s : State) : (finishOk s).answer = s.answer := rfl
@[simp] theorem finishOk_draws (s : State) : (finishOk s).draws = s.draws := rfl

@[simp] theorem raiseError_regs (c : ErrCode) (s : State) : (raiseError c s).regs = s.regs := rfl
@[simp] theorem raiseError_status (c : ErrCode) (s : State) : (raiseError c s).status = { s.status with err := c.code } := rfl
@[simp] theorem raiseError_mem (c : ErrCode) (s : State) : (raiseError c s).mem = s.mem := rfl
@[simp] theorem raiseError_platform (c : ErrCode) (s : State) : (raiseError c s).platform = s.platform := rfl
@[simp] theorem raiseError_input (c : ErrCode) (s : State) : (raiseError c s).input = s.input := rfl
@[simp] theorem raiseError_answer (c : ErrCode) (s : State) : (raiseError c s).answer = s.answer := rfl
@[simp] theorem raiseError_draws (c : ErrCode) (s : State) : (raiseError c s).draws = s.draws := rfl

@[simp] theorem applyReset_regs (s : State) : (applyReset s).regs = Regs.reset := rfl
@[simp] theorem applyReset_status (s : State) : (applyReset s).status = Status.reset := rfl
@[simp] theorem applyReset_mem (s : State) : (applyReset s).mem = s.mem := rfl
@[simp] theorem applyReset_platform (s : State) : (applyReset s).platform = s.platform := rfl
@[simp] theorem applyReset_input (s : State) : (applyReset s).input = s.input := rfl
@[simp] theorem applyReset_answer (s : State) : (applyReset s).answer = none := rfl
@[simp] theorem applyReset_draws (s : State) : (applyReset s).draws = s.draws := rfl

@[simp] theorem powerUp_regs (s : State) : (powerUp s).regs = freeRegs s.draws := rfl
@[simp] theorem powerUp_status (s : State) : (powerUp s).status = freeStatus s.draws := rfl
@[simp] theorem powerUp_mem (s : State) : (powerUp s).mem = s.mem := rfl
@[simp] theorem powerUp_platform (s : State) : (powerUp s).platform = s.platform := rfl
@[simp] theorem powerUp_input (s : State) : (powerUp s).input = s.input := rfl
@[simp] theorem powerUp_answer (s : State) : (powerUp s).answer = none := rfl
@[simp] theorem powerUp_draws (s : State) : (powerUp s).draws = s.draws + 1 := rfl

@[simp] theorem writeOffsets_status (s : State) : (writeOffsets s).status = s.status := rfl
@[simp] theorem writeOffsets_mem (s : State) : (writeOffsets s).mem = s.mem := rfl
@[simp] theorem writeOffsets_platform (s : State) : (writeOffsets s).platform = s.platform := rfl
@[simp] theorem writeOffsets_input (s : State) : (writeOffsets s).input = s.input := rfl
@[simp] theorem writeOffsets_answer (s : State) : (writeOffsets s).answer = s.answer := rfl
@[simp] theorem writeOffsets_draws (s : State) : (writeOffsets s).draws = s.draws := rfl

@[simp] theorem withOutcome_regs (s : State) (op : Byte) (c : ErrCode) : (withOutcome s op c).regs = s.regs := rfl
@[simp] theorem withOutcome_status (s : State) (op : Byte) (c : ErrCode) : (withOutcome s op c).status = { s.status with lastOp := op, err := c.code } := rfl
@[simp] theorem withOutcome_mem (s : State) (op : Byte) (c : ErrCode) : (withOutcome s op c).mem = s.mem := rfl
@[simp] theorem withOutcome_platform (s : State) (op : Byte) (c : ErrCode) : (withOutcome s op c).platform = s.platform := rfl
@[simp] theorem withOutcome_input (s : State) (op : Byte) (c : ErrCode) : (withOutcome s op c).input = s.input := rfl
@[simp] theorem withOutcome_answer (s : State) (op : Byte) (c : ErrCode) : (withOutcome s op c).answer = s.answer := rfl
@[simp] theorem withOutcome_draws (s : State) (op : Byte) (c : ErrCode) : (withOutcome s op c).draws = s.draws := rfl

@[simp] theorem afterFetch_regs (s : State) (rest : List Event) : (afterFetch s rest).regs = s.regs := rfl
@[simp] theorem afterFetch_status (s : State) (rest : List Event) : (afterFetch s rest).status = s.status := rfl
@[simp] theorem afterFetch_mem (s : State) (rest : List Event) : (afterFetch s rest).mem = s.mem := rfl
@[simp] theorem afterFetch_platform (s : State) (rest : List Event) : (afterFetch s rest).platform = s.platform := rfl
@[simp] theorem afterFetch_input (s : State) (rest : List Event) : (afterFetch s rest).input = rest := rfl
@[simp] theorem afterFetch_answer (s : State) (rest : List Event) : (afterFetch s rest).answer = none := rfl
@[simp] theorem afterFetch_draws (s : State) (rest : List Event) : (afterFetch s rest).draws = s.draws := rfl

@[simp] theorem drawBytes_regs (as : List Nat) (s : State) : (drawBytes as s).regs = s.regs := rfl
@[simp] theorem drawBytes_status (as : List Nat) (s : State) : (drawBytes as s).status = s.status := rfl
@[simp] theorem drawBytes_platform (as : List Nat) (s : State) : (drawBytes as s).platform = s.platform := rfl
@[simp] theorem drawBytes_input (as : List Nat) (s : State) : (drawBytes as s).input = s.input := rfl
@[simp] theorem drawBytes_answer (as : List Nat) (s : State) : (drawBytes as s).answer = s.answer := rfl
@[simp] theorem drawBytes_draws (as : List Nat) (s : State) : (drawBytes as s).draws = s.draws + 1 := rfl

end Sys2Proof.Machine
end

