-- ==== Sys2Proof/Laws/Commands.lean ====
section
/-!
SUPPORT. What the shared operations of a command can do, said once each: the first failing check, the command
lifecycle, the mask latch and the memory phase; and each command's list of checks in the plain words of Safety.lean.
-/

namespace Sys2Proof.Machine

open Host (Outcome)

/-! ### Checks -/

@[simp] theorem firstError_nil : firstError [] = none := rfl

@[simp] theorem firstError_true (c : ErrCode) (l : List (Bool × ErrCode)) : firstError ((true, c) :: l) = some c := rfl

@[simp] theorem firstError_false (c : ErrCode) (l : List (Bool × ErrCode)) :
    firstError ((false, c) :: l) = firstError l := rfl

/-- Every check passes exactly where none fails. -/
theorem firstError_eq_none_iff (l : List (Bool × ErrCode)) : firstError l = none ↔ ∀ p ∈ l, p.1 = false := by
  induction l with
  | nil => simp
  | cons p l ih =>
    obtain ⟨b, c⟩ := p
    cases b <;> simp [ih]

theorem firstError_append (l l' : List (Bool × ErrCode)) :
    firstError (l ++ l') = match firstError l with
      | some c => some c
      | none => firstError l' := by
  induction l with
  | nil => rfl
  | cons p l ih =>
    obtain ⟨b, c⟩ := p
    cases b
    · simpa using ih
    · rfl

/-- GEN_MASKS' checks pass exactly on the dimensions R84 admits. -/
theorem dimChecks_none_iff (w h d : Nat) : firstError (dimChecks w h d) = none ↔ DimsAdmitted w h d := by
  simp only [firstError_eq_none_iff, dimChecks, DimsAdmitted, List.forall_mem_cons, List.not_mem_nil, false_imp_iff,
    implies_true, and_true, Bool.or_eq_false_iff, beq_eq_false_iff_ne, decide_eq_false_iff_not, gt_iff_lt, not_lt]
  simp only [Config.maxTbits]
  omega

/-- CALC_ADDR's checks pass exactly on the coordinates R100 admits. -/
theorem calcAddrChecks_none_iff (s : State) : firstError (calcAddrChecks s) = none ↔ CoordAdmitted s := by
  simp only [firstError_eq_none_iff, calcAddrChecks, sourceOffset, Config.bytesPerPixel, List.forall_mem_cons,
    List.not_mem_nil, false_imp_iff, implies_true, and_true, Bool.or_eq_false_iff, Bool.not_eq_false',
    decide_eq_false_iff_not, not_le, not_lt, ge_iff_le, gt_iff_lt]
  constructor
  · rintro ⟨h1, ⟨⟨h2, h3⟩, h4⟩, h5⟩; exact ⟨h1, h2, h3, h4, h5⟩
  · rintro ⟨h1, h2, h3, h4, h5⟩; exact ⟨h1, ⟨⟨h2, h3⟩, h4⟩, h5⟩

/-- TRANSFORM's checks pass exactly on the registers R107 admits. -/
theorem transformChecks_none_iff (s : State) : firstError (transformChecks s) = none ↔ TransformAdmitted s := by
  simp only [firstError_eq_none_iff, transformChecks, dimChecks, List.cons_append, List.nil_append, List.forall_mem_cons, List.not_mem_nil, false_imp_iff,
    implies_true, and_true, Bool.or_eq_false_iff, Bool.and_eq_false_iff, beq_eq_false_iff_ne, bne_eq_false_iff_eq,
    Bool.not_eq_false', decide_eq_false_iff_not, not_lt, gt_iff_lt, ispow2_iff]
  simp only [Config.maxTbits, Config.bytesPerPixel, Config.memSpace]
  constructor
  · rintro ⟨-, hb, hd, ⟨hw, hh⟩, hp, ⟨hs, ht⟩, ⟨hst, hdt⟩, ho⟩
    exact ⟨hw, hh, hd, hb, hp, hs, ht, hst, hdt, ho⟩
  · rintro ⟨hw, hh, hd, hb, hp, hs, ht, hst, hdt, ho⟩
    refine ⟨?_, hb, hd, ⟨hw, hh⟩, hp, ⟨hs, ht⟩, ⟨hst, hdt⟩, ho⟩
    obtain ⟨j, hj⟩ := hw
    obtain ⟨k, hk⟩ := hh
    have := Nat.two_pow_pos j
    have := Nat.two_pow_pos k
    omega

/-- BUILD_HEADER's checks pass exactly on the registers R113 admits. -/
theorem headerChecks_none_iff (s : State) : firstError (headerChecks s) = none ↔ HeaderAdmitted s := by
  simp only [firstError_eq_none_iff, headerChecks, headerTotal, Config.headerSize, Config.memSpace,
    List.forall_mem_cons, List.not_mem_nil, false_imp_iff, implies_true, and_true, decide_eq_false_iff_not, not_lt,
    gt_iff_lt]
  exact ⟨fun h => ⟨h.1, h.2⟩, fun h => ⟨h.total, h.top⟩⟩

/-! ### The command lifecycle -/

/-- R77 on a halted SAC. -/
theorem runCommand_halted {op : Byte} {body : State → Outcome State Fault Refusal} {s : State}
    (h : s.status.fatal = true) : runCommand op body s = .next (withOutcome s op .halted) := by
  simp only [runCommand, setLastOp_status, h, if_true]
  rfl

/-- R77 where SAC is not halted: the body runs with LAST_OP set. -/
theorem runCommand_live {op : Byte} {body : State → Outcome State Fault Refusal} {s : State}
    (h : s.status.fatal = false) : runCommand op body s = body (setLastOp op s) := by
  simp only [runCommand, setLastOp_status, h, Bool.false_eq_true, if_false]

theorem checkedBody_some {checks : List (Bool × ErrCode)} {c : ErrCode} (h : firstError checks = some c)
    (rest : State → Outcome State Fault Refusal) (s : State) : checkedBody checks rest s = .next (raiseError c s) := by
  rw [checkedBody, h]

theorem checkedBody_none {checks : List (Bool × ErrCode)} (h : firstError checks = none)
    (rest : State → Outcome State Fault Refusal) (s : State) : checkedBody checks rest s = rest s := by
  rw [checkedBody, h]

/-- Everything a checked body can do. -/
theorem checkedBody_cases (checks : List (Bool × ErrCode)) (rest : State → Outcome State Fault Refusal) (s : State) :
    (∃ c, firstError checks = some c ∧ checkedBody checks rest s = .next (raiseError c s)) ∨
    (firstError checks = none ∧ checkedBody checks rest s = rest s) := by
  cases h : firstError checks with
  | some c => exact .inl ⟨c, rfl, checkedBody_some h rest s⟩
  | none => exact .inr ⟨rfl, checkedBody_none h rest s⟩

/-- The state with the masks of W x H x D latched (R84): the mask registers, TBITS and MASK_VALID. -/
def withMasks (w h d : Nat) (s : State) : State :=
  setMasksValid (popcount ((genMasks w h d).mx ||| (genMasks w h d).my ||| (genMasks w h d).mz))
    { s with regs := { s.regs with maskX := BitVec.ofNat 32 (genMasks w h d).mx,
                                   maskY := BitVec.ofNat 32 (genMasks w h d).my,
                                   maskZ := BitVec.ofNat 32 (genMasks w h d).mz } }

/-- Everything the mask latch can do (R84, R87). -/
theorem latchMasks_cases (w h d : Nat) (rest : State → Outcome State Fault Refusal) (s : State) :
    ((genMasks w h d).invariant = true ∧ latchMasks w h d rest s = rest (withMasks w h d s)) ∨
    ((genMasks w h d).invariant = false ∧ latchMasks w h d rest s = .next (raiseError .invariant (setFatal s))) := by
  cases hi : (genMasks w h d).invariant with
  | true => exact .inl ⟨rfl, by simp only [latchMasks, hi, if_true]; rfl⟩
  | false => exact .inr ⟨rfl, by simp only [latchMasks, hi, Bool.false_eq_true, if_false]⟩

/-- Everything a memory phase can do (R51, R52). -/
theorem memoryPhase_cases (f : Footprint) (effect : Memory → Memory) (s : State) :
    ((∃ a ∈ f.touched, inWindow s.platform a = true) ∧ memoryPhase f effect s = .refused .ownWindow) ∨
    (Serves s.platform f.touched ∧ memoryPhase f effect s = .next (finishOk { s with mem := effect s.mem })) ∨
    ((∀ a ∈ f.touched, inWindow s.platform a = false) ∧ (∃ a ∈ f.touched, memAdmits s.platform a = false) ∧
      memoryPhase f effect s = .next (raiseError .bus (drawBytes f.writes s))) := by
  by_cases hw : ∃ a ∈ f.touched, inWindow s.platform a = true
  · exact .inl ⟨hw, by rw [memoryPhase, if_pos (by simpa using hw)]⟩
  · have hw' : ∀ a ∈ f.touched, inWindow s.platform a = false := by simpa using hw
    have hany : ¬ (f.touched.any (inWindow s.platform) = true) := by simpa using hw
    by_cases ha : ∀ a ∈ f.touched, memAdmits s.platform a = true
    · exact .inr (.inl ⟨fun a h => ⟨ha a h, hw' a h⟩,
        by rw [memoryPhase, if_neg hany, if_pos (by simpa using ha)]⟩)
    · refine .inr (.inr ⟨hw', by simpa using ha, ?_⟩)
      rw [memoryPhase, if_neg hany, if_neg (by simpa using ha)]

theorem memoryPhase_served {f : Footprint} {s : State} (h : Serves s.platform f.touched)
    (effect : Memory → Memory) : memoryPhase f effect s = .next (finishOk { s with mem := effect s.mem }) := by
  rcases memoryPhase_cases f effect s with ⟨⟨a, ha, hw⟩, -⟩ | ⟨-, h'⟩ | ⟨-, ⟨a, ha, hm⟩, -⟩
  · simp [(h a ha).2] at hw
  · exact h'
  · simp [(h a ha).1] at hm

/-! ### Each command, unfolded once -/

theorem exec_halted (i : Instr) {s : State} (h : s.status.fatal = true) :
    exec i s = .next (withOutcome s i.opcode .halted) := by
  cases i <;> simp only [exec, execNop, execGenMasks, execCalcAddr, execPermutePixel, execTransform, execBuildHeader,
    runCommand_halted h, Instr.opcode]

theorem execNop_live {s : State} (h : s.status.fatal = false) : exec .nop s = .next (withOutcome s 0x00 .ok) := by
  simp only [exec, execNop, runCommand_live h]
  rfl

theorem execPermutePixel_live {s : State} (h : s.status.fatal = false) :
    exec .permutePixel s =
      .next { withOutcome s 0x03 .ok with regs := { s.regs with pixelOut := permWord s.regs.pixelIn } } := by
  simp only [exec, execPermutePixel, runCommand_live h]
  rfl

theorem execGenMasks_live {s : State} (h : s.status.fatal = false) :
    exec .genMasks s = checkedBody (dimChecks s.regs.width.toNat s.regs.height.toNat s.regs.depth.toNat)
      (latchMasks s.regs.width.toNat s.regs.height.toNat s.regs.depth.toNat (fun s => .next (finishOk s)))
      (setLastOp 0x01 s) :=
  runCommand_live h

theorem execCalcAddr_live {s : State} (h : s.status.fatal = false) :
    exec .calcAddr s = checkedBody (calcAddrChecks s) (fun s => .next (finishOk (writeOffsets s)))
      (setLastOp 0x02 s) :=
  runCommand_live h

theorem execTransform_live {s : State} (h : s.status.fatal = false) :
    exec .transform s = checkedBody (transformChecks s)
      (latchMasks s.regs.width.toNat s.regs.height.toNat 1
        (fun t => memoryPhase (transformJob t).footprint (transformJob t).copyAll t)) (setLastOp 0x04 s) :=
  runCommand_live h

theorem execBuildHeader_live {s : State} (h : s.status.fatal = false) :
    exec .buildHeader s = checkedBody (headerChecks s)
      (fun t => memoryPhase (headerFootprint t)
        (writeHeader t.regs.hdrBase.toNat (headerFields (BitVec.ofNat 32 (headerTotal s))))
        { t with regs := { t.regs with hdr := headerFields (BitVec.ofNat 32 (headerTotal s)) } }) (setLastOp 0x05 s) :=
  runCommand_live h

/-- The copy TRANSFORM makes depends on none of the registers it writes before it. -/
@[simp] theorem transformJob_withMasks (w h d : Nat) (s : State) :
    transformJob (withMasks w h d s) = transformJob s := rfl

@[simp] theorem transformJob_setLastOp (op : Byte) (s : State) : transformJob (setLastOp op s) = transformJob s := rfl

end Sys2Proof.Machine
end

