-- ==== Sys2Proof/Laws/PerInstr.lean ====
section
/-!
SUPPORT. Statements for all instructions, one lemma per constructor: every command's word is legal (R62), and its
opcode is the word's OPC field with RSV zero (R61).
-/

namespace Sys2Proof.Laws.LegalWord

/-- The word of a command is legal, and its OPC field is the command's opcode. -/
def Statement (i : Instr) : Prop :=
  legalWord (encodeWord i) = true ∧ opcField (encodeWord i) = i.opcode ∧ rsvField (encodeWord i) = 0

theorem nop : Statement .nop := by unfold Statement; decide
theorem genMasks : Statement .genMasks := by unfold Statement; decide
theorem calcAddr : Statement .calcAddr := by unfold Statement; decide
theorem permutePixel : Statement .permutePixel := by unfold Statement; decide
theorem transform : Statement .transform := by unfold Statement; decide
theorem buildHeader : Statement .buildHeader := by unfold Statement; decide

end Sys2Proof.Laws.LegalWord
end

