-- ==== Sys2Proof/Laws/Port.lean ====
section
/-!
SUPPORT. What a step can do, event by event: the register map, quiet host accesses, accesses of other masters, and the
inversion of a step into the event it handled.
-/

namespace Sys2Proof.Machine

open Host (Outcome)

/-! ### The register map -/

theorem windowOffset_of_lt {p : Platform} {o : Nat} (h : o < 0x100) : windowOffset p (p.regBase + o) = some o := by
  simp only [windowOffset, Config.regWindow]
  rw [if_pos (by omega), Nat.add_sub_cancel_left]

theorem windowOffset_eq_some_iff {p : Platform} {a o : Nat} :
    windowOffset p a = some o ↔ o < 0x100 ∧ a = p.regBase + o := by
  simp only [windowOffset, Config.regWindow]
  split_ifs with h
  · simp only [Option.some.injEq]; omega
  · simp only [false_iff]; omega

theorem inWindow_iff {p : Platform} {a : Nat} :
    inWindow p a = true ↔ p.regBase ≤ a ∧ a < p.regBase + 0x100 := by
  simp only [inWindow, windowOffset, Config.regWindow]
  split_ifs with h <;> simp [h]

@[simp] theorem ofOffset_offset (r : Reg) : Reg.ofOffset r.offset = some r := by cases r <;> rfl

theorem Reg.offset_lt (r : Reg) : r.offset < 0x7C := by cases r <;> decide

theorem Reg.offset_aligned (r : Reg) : r.offset % 4 = 0 := by cases r <;> rfl

theorem Reg.offset_inj {r r' : Reg} (h : r.offset = r'.offset) : r = r' := by
  have := ofOffset_offset r
  rw [h, ofOffset_offset] at this
  exact (Option.some.inj this).symm

@[simp] theorem windowOffset_reg (p : Platform) (r : Reg) : windowOffset p (p.regBase + r.offset) = some r.offset :=
  windowOffset_of_lt (by have := r.offset_lt; omega)

/-- A reserved offset names no register. -/
theorem ofOffset_reserved {o : Nat} (h : 0x7C ≤ o) : Reg.ofOffset o = none := by
  rw [Reg.ofOffset, List.find?_eq_none]
  intro r _
  have := r.offset_lt
  simp only [beq_iff_eq]
  omega

/-! ### Footprints -/

@[simp] theorem touched_empty : Footprint.empty.touched = [] := rfl

/-- A quiet access runs at once. -/
@[simp] theorem alongside_nil (a : PortAccess) (rest : State → Outcome State Fault Refusal) (s : State) :
    alongside a [] rest s = rest s := by
  simp [alongside, memoryAccesses]

/-- What accesses of other masters can do: fault, or write memory bytes outside the window and nothing else. -/
theorem memoryAccess_cases (m : MemAccess) (s : State) :
    (inWindow s.platform m.addr = true ∧ memoryAccess m s = .fault .hostAccess) ∨
    (inWindow s.platform m.addr = false ∧ ∃ mem, memoryAccess m s = .next { s with mem := mem } ∧
      (mem = s.mem ∨ ∃ a b, m = .write a b ∧ mem = s.mem.write a.toNat b)) := by
  cases h : inWindow s.platform m.addr with
  | true => exact .inl ⟨rfl, by simp [memoryAccess, h]⟩
  | false =>
    refine .inr ⟨rfl, ?_⟩
    cases m with
    | read a => exact ⟨s.mem, by simp [memoryAccess, h], .inl rfl⟩
    | write a b => exact ⟨_, by simp [memoryAccess, h], .inr ⟨a, b, rfl, rfl⟩⟩

/-- A list of accesses that does not fault changes memory only, keeps its canonical form, and leaves every byte that
none of them writes. -/
theorem memoryAccesses_next {ms : List MemAccess} {s t : State} (h : memoryAccesses ms s = .next t) :
    t = { s with mem := t.mem } ∧ (s.mem.Wf → t.mem.Wf ∧
      ∀ x, (∀ m ∈ ms, m.addr ≠ x) → t.mem.read x = s.mem.read x) := by
  induction ms generalizing s with
  | nil =>
    simp only [memoryAccesses, Outcome.next.injEq] at h
    subst h
    exact ⟨rfl, fun hm => ⟨hm, fun _ _ => rfl⟩⟩
  | cons m ms ih =>
    simp only [memoryAccesses] at h
    rcases memoryAccess_cases m s with ⟨-, h'⟩ | ⟨-, mem, h', hmem⟩
    · rw [h'] at h; simp at h
    · rw [h'] at h
      obtain ⟨h1, h2⟩ := ih h
      refine ⟨h1, fun hwf => ?_⟩
      have hwf' : mem.Wf ∧ ∀ x, m.addr ≠ x → mem.read x = s.mem.read x := by
        rcases hmem with rfl | ⟨a, b, rfl, rfl⟩
        · exact ⟨hwf, fun _ _ => rfl⟩
        · exact ⟨Memory.write_wf hwf a.isLt b, fun x hx => Memory.read_write_ne hwf b (Ne.symm hx)⟩
      obtain ⟨h3, h4⟩ := h2 hwf'.1
      refine ⟨h3, fun x hx => ?_⟩
      rw [h4 x fun m' hm' => hx m' (by simp [hm'])]
      exact hwf'.2 x (hx m (by simp))

/-! ### Quiet host accesses -/

theorem step_of_input {s : State} {e : Event} {rest : List Event} (h : s.input = e :: rest) :
    step s = handleEvent e (afterFetch s rest) := by
  simp only [step, stepEvent, h]
  rfl

theorem step_idle {s : State} (h : s.input = []) : step s = .next s := by
  simp only [step, stepEvent, h]

theorem step_hostWrite {s : State} {r : Reg} {v : Word} {rest : List Event} (hr : r ≠ .cmd)
    (h : s.input = hostWrite s r v :: rest) : step s = .next (hostWriteReg r v (afterFetch s rest)) := by
  rw [step_of_input h]
  simp only [handleEvent, hostWrite, alongside_nil, portAccess, afterFetch_platform, windowOffset_reg,
    Reg.offset_aligned, ofOffset_offset]
  cases r <;> simp_all

theorem step_hostRead {s : State} {r : Reg} {rest : List Event} (h : s.input = hostRead s r :: rest) :
    step s = .next { afterFetch s rest with answer := some (readReg r (afterFetch s rest)) } := by
  rw [step_of_input h]
  simp [handleEvent, hostRead, portAccess, Reg.offset_aligned]

theorem step_cmdWrite {s : State} {w : Word} {rest : List Event} (h : s.input = hostWrite s .cmd w :: rest) :
    step s = commandWrite w (afterFetch s rest) := by
  rw [step_of_input h]
  simp [handleEvent, hostWrite, portAccess, Reg.offset_aligned]

end Sys2Proof.Machine
end

