-- ==== Sys2Proof/Tests/Slice0.lean ====
section
/-!
SUPPORT. Tests: words and vectors with their values from spec/ (each docstring names the source), the WellFormed
smoke, and for every statement of Obligations.lean that has hypotheses a witness that meets them together.
-/

namespace Sys2Proof.Tests

open Sys2Proof Sys2Proof.Machine

/-! ### Helpers -/

/-- The reset state with the registers changed. -/
def withRegs (f : Regs → Regs) : State := { State.reset with regs := f Regs.reset }

/-- A halted SAC. -/
def halted : State := { State.reset with status := { State.reset.status with fatal := true } }

/-- WIDTH, HEIGHT and DEPTH set. -/
def dims (w h d : Word) : State := withRegs fun r => { r with width := w, height := h, depth := d }

/-- The registers of a TRANSFORM of depth 1. -/
def img (w h p src dst len : Word) : State :=
  withRegs fun r => { r with width := w, height := h, depth := 1, rowPitch := p, srcBase := src, dstBase := dst,
                             bufLen := len }

/-- The registers of a CALC_ADDR after a GEN_MASKS that wrote the masks `mx`, `my` (D = 1) with `tb` bits. -/
def coord (w h p x y mx my : Word) (tb : BitVec 6) : State :=
  { withRegs fun r => { r with width := w, height := h, depth := 1, rowPitch := p, coordX := x, coordY := y,
                               maskX := mx, maskY := my } with
    status := { Status.reset with maskValid := true, tbits := tb } }

/-- The registers of a BUILD_HEADER. -/
def head (len base : Word) : State := withRegs fun r => { r with payloadLen := len, hdrBase := base }

/-- The same state on a platform with another window and other bus errors. -/
def onPlatform (reg : Nat) (bad : List AddrRange) (s : State) : State :=
  { s with platform := { regBase := reg, busErrors := bad } }

/-- The state with one event to come. -/
def given (s : State) (e : Event) : State := { s with input := [e] }

/-- The state with a host write to come. -/
def withWrite (s : State) (r : Reg) (v : Word) : State := given s (hostWrite s r v)

/-- A port access in the window of the reset platform. -/
def access (dir : Dir) (bits off : Nat) (v : Word) : PortAccess :=
  { dir := dir, bits := bits, addr := 0xF0000000 + off, data := v }

/-- The next state, if the outcome is one. -/
def stateOf : Host.Outcome State Fault Refusal → Option State
  | .next t => some t
  | .fault _ | .refused _ => none

/-- The fault, if the outcome is one. -/
def faultOf : Host.Outcome State Fault Refusal → Option Fault
  | .fault f => some f
  | .next _ | .refused _ => none

/-- A computed next state with a computed property. -/
theorem next_of {o : Host.Outcome State Fault Refusal} (p : State → Bool) (h : (stateOf o).any p = true) :
    ∃ t, o = .next t ∧ p t = true := by
  cases o with
  | next t => exact ⟨t, rfl, h⟩
  | fault f => cases h
  | refused r => cases h

/-- What a host reads of a register after a command. -/
def reads (o : Host.Outcome State Fault Refusal) (rs : List Reg) : Option (List Word) :=
  (stateOf o).map fun t => rs.map fun r => readReg r t

/-- A 4 x 2 image with a pitch above the width, its source ending at the top of memory and its destination ending
where the source begins; every bound is met exactly. -/
def imgTop : State := img 4 2 5 0xFFFFFFDC 0xFFFFFFB8 36

theorem admitted_imgTop : TransformAdmitted imgTop :=
  ⟨⟨2, by decide⟩, ⟨1, by decide⟩, by decide, by decide, by decide, by decide, by decide, by decide, by decide,
   .inl (by decide)⟩

/-! ### Decoding, from the opcode map of 30_encoding.md section 1 -/

theorem test_decode_nop : decodeWord 0b00000000000000000000000000000000 = .ok .nop := rfl
theorem test_decode_genMasks : decodeWord 0b00000000000000000000000000000001 = .ok .genMasks := rfl
theorem test_decode_calcAddr : decodeWord 0b00000000000000000000000000000010 = .ok .calcAddr := rfl
theorem test_decode_permutePixel : decodeWord 0b00000000000000000000000000000011 = .ok .permutePixel := rfl
theorem test_decode_transform : decodeWord 0b00000000000000000000000000000100 = .ok .transform := rfl
theorem test_decode_buildHeader : decodeWord 0b00000000000000000000000000000101 = .ok .buildHeader := rfl

/-- R44: the low byte lies at the lowest offset. -/
theorem test_decode_bytes : decodeBytes [0x05, 0x00, 0x00, 0x00] = .ok .buildHeader := rfl

/-- L2-D-2, L2-D-4, L2-D-5: illegal words, by name. -/
theorem test_decode_illegal :
    decodeWord 0x00000006 = .error .reservedOpcode ∧ decodeWord 0x00000100 = .error .reservedBits ∧
    decodeWord 0x00000105 = .error .reservedBits ∧ decodeBytes [0x05, 0x00, 0x00] = .error .notOneWord :=
  ⟨rfl, rfl, rfl, rfl⟩

/-- The WellFormed smoke: an opcode beyond 0x05 and a set RSV bit, at each end of RSV, are refused. -/
theorem test_wellFormed_refuses :
    legalWord 0x00000006 = false ∧ legalWord 0x000000FF = false ∧ legalWord 0x00000100 = false ∧
    legalWord 0x80000001 = false ∧ legalWord 0x00000005 = true := by decide

/-! ### One step of each command, from 95_test_vectors.md -/

/-- L2-D-1 with L2-D-8: NOP after an error. -/
theorem test_nop : (stateOf (exec .nop { State.reset with status := { Status.reset with err := 1, lastOp := 6 } })).map
    (fun t => t.status.word) = some 0x00000000 := by decide

/-- GM-14. -/
theorem test_genMasks : reads (exec .genMasks (dims 16 4 2)) [.maskX, .maskY, .maskZ, .status] =
    some [0x69, 0x12, 0x04, 0x01070001] := by decide +kernel

/-- GM-30: DIM_ZERO before DIM_RANGE. -/
theorem test_genMasks_dimZero : reads (exec .genMasks (dims 0 0xFFFFFFFF 0)) [.maskX, .status] =
    some [0, 0x01000200] := by decide +kernel

/-- CA-6. -/
theorem test_calcAddr : reads (exec .calcAddr (coord 64 64 80 5 9 0x555 0xAAA 12))
    [.mortonIndex, .dstOffset, .srcOffset, .status] = some [0x93, 0x24C, 0xB54, 0x020C0001] := by decide +kernel

/-- CA-15: OFFSET_RANGE. -/
theorem test_calcAddr_offsetRange : reads (exec .calcAddr (coord 1024 1024 0x400000 1023 256 0x55555 0xAAAAA 20))
    [.mortonIndex, .status] = some [0, 0x02140601] := by decide +kernel

/-- L1-5. -/
theorem test_permutePixel : reads (exec .permutePixel (withRegs fun r => { r with pixelIn := 0x44332211 }))
    [.pixelOut, .status] = some [0x44112233, 0x03000000] := by decide

/-- L1-5: the one-pixel TRANSFORM. -/
theorem test_transform :
    (stateOf (exec .transform { img 1 1 1 0 4 4 with mem := [(0, 0x11), (1, 0x22), (2, 0x33), (3, 0x44)] })).map
      (fun t => ([4, 5, 6, 7].map t.mem.read, t.status.word)) =
    some ([0x33, 0x22, 0x11, 0x44], 0x04000001) := by decide +kernel

/-- TR-22: a bus error keeps the masks. -/
theorem test_transform_bus :
    reads (exec .transform (onPlatform 0xF0000000 [⟨0x2010, 0x2010⟩] (img 4 4 4 0x1000 0x2000 64)))
      [.maskX, .maskY, .status] = some [0x5, 0xA, 0x04040E01] := by decide +kernel

/-- L1-6: the 36 bytes. -/
theorem test_buildHeader :
    (stateOf (exec .buildHeader (head 100 0x3000))).map
      (fun t => (List.range 36).map fun k => t.mem.read (0x3000 + k)) =
    some [0x58, 0x50, 0x52, 0x30, 0x88, 0x00, 0x00, 0x00, 0x24, 0x00, 0x00, 0x00, 0x01, 0x00, 0x04, 0x00, 0x00, 0x00,
      0x00, 0x00, 0x00, 0x00, 0x00, 0x00, 0x29, 0x06, 0x61, 0x06, 0x00, 0x00, 0x00, 0x00, 0xFF, 0xFF, 0xFF, 0xFF] := by
  decide +kernel

/-- L1-6: the registers. -/
theorem test_buildHeader_regs : reads (exec .buildHeader (head 100 0x3000))
    [.hdr0, .hdr1, .hdr2, .hdr3, .hdr4, .hdr5, .hdr6, .hdr7, .hdr8, .status] =
    some [0x30525058, 0x88, 0x24, 0x40001, 0, 0, 0x06610629, 0, 0xFFFFFFFF, 0x05000000] := by decide +kernel

/-- L2-D-5: an illegal word. -/
theorem test_illegal : reads (step (State.reset.withFetchWord 32 0x105)) [.hdr0, .status] =
    some [0, 0x05000100] := by decide

/-- R77: any word on a halted SAC, in L2-D-9's form. -/
theorem test_halted : reads (step (halted.withFetchWord 32 0x04)) [.status] = some [0x04001002] := by decide

/-- L2-D-10: a read of CMD, and a read of a reserved offset. -/
theorem test_reads : (stateOf (step (given State.reset (.port (access .read 32 0x00 0) [])))).map (·.answer) =
      some (some 0) ∧
    (stateOf (step (given State.reset (.port (access .read 32 0xFC 0) [])))).map (·.answer) = some (some 0) := by decide

/-- R90's corner cases and R95's inverse, in L2-MO. -/
theorem test_scatter : scatter 0x69 0xF = 0x69 ∧ scatter 0xD 0x10 = 0 ∧ morton 0x555 0xAAA 0 5 9 0 = 147 ∧
    gather 0x555 0x93 = 5 ∧ gather 0xAAA 0x93 = 9 := by decide +kernel

/-- R46: memory's form and its edges. -/
theorem test_memory : Memory.Wf State.reset.mem ∧ Memory.write [] 0xFFFFFFFF 7 = [(0xFFFFFFFF, 7)] ∧
    Memory.write [(1, 2)] 1 0x00 = [] ∧ Memory.readLE [(4, 0x34), (5, 0x12)] 4 2 = 0x1234 := by decide

/-! ### Witnesses: encoding and dispatch -/

theorem witness_DecodeOfEncodeIsTheCommand : Instr.WellFormed .buildHeader := trivial

/-- Both clauses, at the last legal opcode, the first illegal one and the lowest RSV bit. -/
theorem witness_DecodeSelectsByOpcodeAlone :
    ((0x00000005 : Word).extractLsb 31 8 = 0 ∧ ((0x00000005 : Word).extractLsb 7 0).toNat ≤ 0x05) ∧
    ¬ ((0x00000006 : Word).extractLsb 31 8 = 0 ∧ ((0x00000006 : Word).extractLsb 7 0).toNat ≤ 0x05) ∧
    ¬ ((0x00000100 : Word).extractLsb 31 8 = 0 ∧ ((0x00000100 : Word).extractLsb 7 0).toNat ≤ 0x05) := by decide

theorem witness_StepRunsTheDecodedCommand :
    decodeWord 0x00000005 = .ok .buildHeader ∧
    (withWrite (head 0 0) .cmd 0x05).input = hostWrite (withWrite (head 0 0) .cmd 0x05) .cmd 0x05 :: [] :=
  ⟨rfl, by decide⟩

/-- Every clause: the first illegal opcode, a set RSV bit, a halted SAC, and the two worked words. -/
theorem witness_IllegalWordChangesOnlyErrAndLastOp :
    (0x06 ≤ ((0x00000006 : Word).extractLsb 7 0).toNat ∧ (0x00000105 : Word).extractLsb 31 8 ≠ 0) ∧
    (withWrite State.reset .cmd 0x06).input = hostWrite (withWrite State.reset .cmd 0x06) .cmd 0x06 :: [] ∧
    (withWrite State.reset .cmd 0x105).input = hostWrite (withWrite State.reset .cmd 0x105) .cmd 0x105 :: [] ∧
    (withWrite State.reset .cmd 0x06).status.fatal = false ∧ (withWrite State.reset .cmd 0x105).status.fatal = false ∧
    (withWrite halted .cmd 0x06).input = hostWrite (withWrite halted .cmd 0x06) .cmd 0x06 :: [] ∧
    (withWrite halted .cmd 0x06).status.fatal = true := by decide

theorem witness_LastOpShowsEveryCommandWord :
    (withWrite State.reset .cmd 0xABCDEF42).input =
      hostWrite (withWrite State.reset .cmd 0xABCDEF42) .cmd 0xABCDEF42 :: [] ∧
    ∃ t, step (withWrite State.reset .cmd 0xABCDEF42) = .next t ∧ (t.status.lastOp == 0x42) = true :=
  ⟨by decide, next_of _ (by decide)⟩

theorem witness_HaltedCommandsChangeOnlyErrAndLastOp : halted.status.fatal = true := rfl

theorem witness_NopLeavesOk : State.reset.status.fatal = false ∧ halted.status.fatal = true := ⟨rfl, rfl⟩

/-! ### Witnesses: the register port -/

/-- The first and the last register. -/
theorem witness_HostReadReturnsTheRegister :
    (given State.reset (.port (access .read 32 0x00 0) [])).input =
      .port { dir := .read, bits := 32, addr := State.reset.platform.regBase + 0x00, data := 0 } [] :: [] ∧
    (given State.reset (.port (access .read 32 0x78 0) [])).input =
      .port { dir := .read, bits := 32, addr := State.reset.platform.regBase + 0x78, data := 0 } [] :: [] ∧
    readReg .hdr8 State.reset = 0#32 := by decide

/-- An RW register with the mask rule, a plain one, and an RO one. -/
theorem witness_HostWriteChangesOneRwRegister :
    (Reg.width ≠ .cmd ∧ (withWrite State.reset .width 5).input = hostWrite (withWrite State.reset .width 5) .width 5 :: []) ∧
    (Reg.hdrBase ≠ .cmd ∧ Reg.hdrBase.access = .rw ∧
      (withWrite State.reset .hdrBase 5).input = hostWrite (withWrite State.reset .hdrBase 5) .hdrBase 5 :: []) ∧
    (Reg.hdr8 ≠ .cmd ∧ Reg.hdr8.access = .ro ∧
      (withWrite State.reset .hdr8 5).input = hostWrite (withWrite State.reset .hdr8 5) .hdr8 5 :: []) := by decide

/-- Both ends of the reserved range, both directions. -/
theorem witness_ReservedOffsetsReadZero :
    (0x7C ≤ 0x7C ∧ 0x7C ≤ 0xFC ∧ 0x7C % 4 = 0 ∧ 0xFC % 4 = 0) ∧
    (given State.reset (.port (access .read 32 0x7C 9) [])).input =
      .port { dir := .read, bits := 32, addr := State.reset.platform.regBase + 0x7C, data := 9 } [] :: [] ∧
    (given State.reset (.port (access .write 32 0xFC 9) [])).input =
      .port { dir := .write, bits := 32, addr := State.reset.platform.regBase + 0xFC, data := 9 } [] :: [] := by decide

/-- The last aligned offset, the last byte, and a 16-bit access at offset 0. -/
theorem witness_OnlyAlignedWordAccessesAreLegal :
    ((access .write 32 0xFC 0).addr < State.reset.platform.regBase + 0x100 ∧
      (access .write 32 0xFC 0).bits = 32 ∧ ((access .write 32 0xFC 0).addr - State.reset.platform.regBase) % 4 = 0) ∧
    ((access .read 32 0xFF 0).addr < State.reset.platform.regBase + 0x100 ∧
      ((access .read 32 0xFF 0).addr - State.reset.platform.regBase) % 4 ≠ 0) ∧
    (State.reset.platform.regBase ≤ (access .read 16 0 0).addr ∧ (access .read 16 0 0).bits ≠ 32) := by decide

/-- A host write that changes its register, and a command that changes its result. -/
theorem witness_EveryRegisterHasItsWriters :
    ((hostWrite State.reset .width 5).resets = false ∧ ∃ t, step (withWrite State.reset .width 5) = .next t ∧
      decide (readReg .width t ≠ readReg .width (withWrite State.reset .width 5)) = true) ∧
    ∃ t, step (withWrite (withRegs fun r => { r with pixelIn := 1 }) .cmd 3) = .next t ∧
      decide (readReg .pixelOut t ≠ 0) = true :=
  ⟨⟨rfl, next_of _ (by decide)⟩, next_of _ (by decide)⟩

/-- GEN_MASKS and TRANSFORM set it, a write of DEPTH and the reset input clear it. -/
theorem witness_MaskValidChangesOnlyAsStated :
    ((hostWrite imgTop .cmd 4).starts (withWrite imgTop .cmd 4) = some .transform ∧
      (withWrite imgTop .cmd 4).status.fatal = false ∧ TransformAdmitted (withWrite imgTop .cmd 4)) ∧
    ((hostWrite imgTop .cmd 1).starts (withWrite imgTop .cmd 1) = some .genMasks ∧
      (hostWrite imgTop .depth 1).writesReg (withWrite imgTop .depth 1) .depth) ∧
    (∃ t, step (withWrite (dims 1 1 1) .cmd 1) = .next t ∧ t.status.maskValid = true) ∧
    (∃ t, step (withWrite (img 1 1 1 0 4 4) .cmd 4) = .next t ∧ t.status.maskValid = true) ∧
    (∃ t, step (withWrite (coord 2 2 2 0 0 1 2 2) .depth 1) = .next t ∧ (!t.status.maskValid) = true) ∧
    (coord 2 2 2 0 0 1 2 2).status.maskValid = true ∧
    (∃ t, step (given (coord 2 2 2 0 0 1 2 2) .reset) = .next t ∧ (!t.status.maskValid) = true) :=
  ⟨⟨by decide, rfl, admitted_imgTop.1, admitted_imgTop.2, admitted_imgTop.3, admitted_imgTop.4, admitted_imgTop.5,
    admitted_imgTop.6, admitted_imgTop.7, admitted_imgTop.8, admitted_imgTop.9, admitted_imgTop.10⟩,
   ⟨by decide, ⟨_, [], rfl, rfl, rfl, rfl⟩⟩, next_of (·.status.maskValid) (by decide +kernel), next_of (·.status.maskValid) (by decide +kernel),
   next_of _ (by decide), rfl, next_of _ (by decide)⟩

/-! ### Witnesses: masks -/

/-- The admitted dimensions at both ends: 0 bits, 30 bits on one axis, 30 bits on two and on three. -/
theorem admitted_dims : DimsAdmitted 1 1 1 ∧ DimsAdmitted (2 ^ 30) 1 1 ∧ DimsAdmitted 32768 32768 1 ∧
    DimsAdmitted 1024 1024 1024 := by unfold DimsAdmitted; decide +kernel

theorem witness_Clog2CountsTheMaskBits : (1 ≤ 1 ∧ 2 ^ 29 < 2 ^ 30) ∧ DimsAdmitted 1 1 1 ∧ DimsAdmitted (2 ^ 30) 1 1 :=
  ⟨by decide, admitted_dims.1, admitted_dims.2.1⟩

theorem witness_GenMasksCompletes : (dims 0x8000 0x8000 1).status.fatal = false ∧
    DimsAdmitted (dims 0x8000 0x8000 1).regs.width.toNat (dims 0x8000 0x8000 1).regs.height.toNat
      (dims 0x8000 0x8000 1).regs.depth.toNat := ⟨rfl, admitted_dims.2.2.1⟩

/-- A zero beside an oversized extent, the first 31-bit sum, and the largest sum. -/
theorem witness_GenMasksRejectsInOrder : (dims 0xFFFFFFFF 4 0).status.fatal = false ∧
    (dims 0xFFFFFFFF 4 0).regs.depth = 0 ∧ 30 < clog2 0x40000001 + clog2 1 + clog2 1 ∧
    (dims 0x40000001 1 1).regs.width.toNat = 0x40000001 ∧
    30 < clog2 0xFFFFFFFF + clog2 0xFFFFFFFF + clog2 0xFFFFFFFF := by decide +kernel

theorem witness_GenMasksRunsOneRoundPastTheLongestAxis :
    (DimsAdmitted (2 ^ 30) 1 1 ∧ 30 = max (clog2 (2 ^ 30)) (max (clog2 1) (clog2 1))) ∧
    DimsAdmitted 1 1 1 ∧ 0 = max (clog2 1) (max (clog2 1) (clog2 1)) :=
  ⟨⟨admitted_dims.2.1, by decide +kernel⟩, admitted_dims.1, by decide⟩

theorem witness_MasksPartitionTheLowBits : DimsAdmitted 1024 1024 1024 ∧
    ∃ t, exec .genMasks (dims 3 5 7) = .next t ∧ (t.status.tbits == 8) = true :=
  ⟨admitted_dims.2.2.2, next_of _ (by decide +kernel)⟩

theorem witness_MasksHaveTheClosedForm : DimsAdmitted 16 4 2 ∧ 3 < clog2 (extent 16 4 2 .x) := by
  unfold DimsAdmitted; decide +kernel

/-- Two states that differ in everything but the dimensions. -/
theorem witness_GenMasksIsIdempotent :
    (dims 6 6 1).regs.width = (coord 6 6 9 3 4 5 6 7).regs.width ∧
    (dims 6 6 1).regs.height = (coord 6 6 9 3 4 5 6 7).regs.height ∧
    (dims 6 6 1).regs.depth = (coord 6 6 9 3 4 5 6 7).regs.depth ∧
    (∃ t, exec .genMasks (dims 6 6 1) = .next t ∧ (t.status.err == 0x00) = true) ∧
    ∃ t, exec .genMasks (coord 6 6 9 3 4 5 6 7) = .next t ∧ (t.status.err == 0x00) = true :=
  ⟨rfl, rfl, rfl, next_of _ (by decide +kernel), next_of _ (by decide +kernel)⟩

theorem witness_UnitExtentsHaveNoMask : extent 3 1 1 .y = 1 ∧ extent 1 2 2 .x = 1 := ⟨rfl, rfl⟩

theorem witness_SquareImagesInterleave : (0 ≤ 15 ∧ 0 < 2 ^ 0) ∧ 15 ≤ 15 ∧ 32767 < 2 ^ 15 := by decide

/-- The largest values of a mask with gaps, of the full mask and of the empty one. -/
theorem witness_ScatterIsInjectiveInsideTheMask :
    (0x69 < 2 ^ 32 ∧ 15 < 2 ^ popcount 0x69 ∧ (scatter 0x69 15).testBit 6 = true) ∧
    (0xFFFFFFFF < 2 ^ 32 ∧ 0xFFFFFFFF < 2 ^ popcount 0xFFFFFFFF) ∧
    0 < 2 ^ popcount 0 ∧ scatter 0x69 15 = scatter 0x69 15 := by decide +kernel

theorem witness_GatherInvertsTheMortonIndex :
    DimsAdmitted 32768 32768 1 ∧ (32767 < 32768 ∧ 0 < 1) ∧ (∃ k, 32768 = 2 ^ k) ∧ (∃ k, 1 = 2 ^ k) ∧
    2 ^ 30 - 1 < 32768 * 32768 * 1 :=
  ⟨admitted_dims.2.2.1, by decide, ⟨15, by decide⟩, ⟨0, by decide⟩, by decide⟩

theorem witness_MortonIsABijectionForPowersOfTwo :
    15 + 15 + 0 ≤ 30 ∧ 32767 < 2 ^ 15 ∧ 0 < 2 ^ 0 ∧ 2 ^ 30 - 1 < 2 ^ 15 * 2 ^ 15 * 2 ^ 0 := by decide

theorem witness_MortonIsInjectiveForEveryImage : DimsAdmitted 3 3 1 ∧ 2 < 3 ∧ 0 < 1 := by
  unfold DimsAdmitted; decide +kernel

/-- An image with an extent that is no power of two: its hypotheses hold. -/
theorem witness_NonPowerOfTwoAlwaysLeavesTheBuffer : DimsAdmitted 3 1 1 ∧ ¬ ∃ k, 3 = 2 ^ k := by
  refine ⟨by unfold DimsAdmitted; decide +kernel, fun ⟨k, hk⟩ => ?_⟩
  match k with
  | 0 => omega
  | 1 => omega
  | k + 2 => rw [Nat.pow_succ, Nat.pow_succ] at hk; omega

/-! ### Witnesses: CALC_ADDR and PERMUTE_PIXEL -/

/-- CA-12: the largest offsets. -/
theorem witness_CalcAddrCompletes :
    (coord 32768 32768 32768 32767 32767 0x15555555 0x2AAAAAAA 30).status.fatal = false ∧
    CoordAdmitted (coord 32768 32768 32768 32767 32767 0x15555555 0x2AAAAAAA 30) :=
  ⟨rfl, ⟨rfl, by decide, by decide, by decide, by decide⟩⟩

/-- CA-20, CA-17 (x = W) and CA-15, one state for each clause. -/
theorem witness_CalcAddrRejectsInOrder :
    (State.reset.status.fatal = false ∧ State.reset.status.maskValid = false) ∧
    ((coord 4 4 4 4 0 5 10 4).status.maskValid = true ∧
      (coord 4 4 4 4 0 5 10 4).regs.width ≤ (coord 4 4 4 4 0 5 10 4).regs.coordX) ∧
    ((1023 : Word) < 1024 ∧ (256 : Word) < 1024 ∧ (0 : Word) < 1 ∧ 0xFFFFFFFF < (256 * 0x400000 + 1023) * 4 ∧
      (coord 1024 1024 0x400000 1023 256 0x55555 0xAAAAA 20).status.maskValid = true) := by decide

theorem witness_DestinationOffsetNeedsNoRangeCheck :
    MasksPartition (coord 32768 32768 32768 32767 32767 0x15555555 0x2AAAAAAA 30) ∧
    CoordAdmitted (coord 32768 32768 32768 32767 32767 0x15555555 0x2AAAAAAA 30) ∧
    ∃ t, exec .calcAddr (coord 32768 32768 32768 32767 32767 0x15555555 0x2AAAAAAA 30) = .next t ∧
      (t.regs.dstOffset == 0xFFFFFFFC) = true :=
  ⟨⟨by decide, by decide, by decide, by decide, by decide⟩, witness_CalcAddrCompletes.2, next_of _ (by decide +kernel)⟩

theorem witness_PermutePixelCompletes : State.reset.status.fatal = false ∧ halted.status.fatal = true ∧
    (withRegs fun r => { r with pixelIn := 0x44332211 }).regs.pixelIn = 0x44332211 := ⟨rfl, rfl, rfl⟩

/-! ### Witnesses: TRANSFORM -/

theorem served_imgTop : Serves imgTop.platform (footprint .transform imgTop).touched := by
  unfold Serves; decide +kernel

/-- One image for each clause, in the order of the checks, each at its bound. -/
theorem witness_TransformRejectsInOrder :
    (dims 0 0xFFFFFFFF 1).regs.width.toNat = 0 ∧ 30 < clog2 32768 + clog2 65536 + clog2 1 ∧
    (clog2 4 + clog2 4 + clog2 2 ≤ 30 ∧ 2 ≠ 1) ∧ (clog2 3 + clog2 4 + clog2 1 ≤ 30 ∧ ¬ ∃ k, 3 = 2 ^ k) ∧ 3 < 4 ∧
    (51 < 4 * ((2 - 1) * 9 + 4)) ∧ (63 < 4 * 4 * 4) ∧
    (4 * ((4 - 1) * 4 + 4) ≤ 64 ∧ 2 ^ 32 < 0xFFFFFFC1 + 64) ∧
    (0x1000 + 64 ≤ 2 ^ 32 ∧ 0x103F + 64 ≤ 2 ^ 32 ∧ 0x1000 < 0x103F + 64 ∧ 0x103F < 0x1000 + 64) :=
  ⟨by decide, by decide +kernel, by decide +kernel, ⟨by decide +kernel, witness_NonPowerOfTwoAlwaysLeavesTheBuffer.2⟩,
   by decide, by decide, by decide, by decide, by decide⟩

/-- R55: every read of the image first, from the last byte down, then every write. -/
def readAllThenWriteAll : List ByteAccess :=
  (transformJob imgTop).moves.reverse.map .load ++ (transformJob imgTop).moves.map .store

/-- Such an order is one of those R55 leaves open. -/
theorem ordered_readAllThenWriteAll : AccessOrder (transformJob imgTop).moves readAllThenWriteAll :=
  ⟨by decide +kernel, by decide +kernel⟩

theorem witness_TransformMovesTheImage : imgTop.mem.Wf ∧ imgTop.status.fatal = false ∧ TransformAdmitted imgTop ∧
    Serves imgTop.platform (footprint .transform imgTop).touched ∧
    (transformJob imgTop).moves.reverse.Perm (transformJob imgTop).moves ∧
    AccessOrder (transformJob imgTop).moves readAllThenWriteAll :=
  ⟨by decide, rfl, admitted_imgTop, served_imgTop, List.reverse_perm _, ordered_readAllThenWriteAll⟩

/-- The reversed order of moves, and of header writes at the top of memory. -/
theorem witness_MemoryDoesNotDependOnTheAccessOrder :
    (imgTop.mem.Wf ∧ TransformAdmitted imgTop ∧
      AccessOrder (transformJob imgTop).moves readAllThenWriteAll ∧
      (transformJob imgTop).moves.reverse.Perm (transformJob imgTop).moves) ∧
    HeaderAdmitted (head 0xFFFFFFDB 0xFFFFFFDC) ∧
    (headerWrites 0xFFFFFFDC (headerFields 0xFFFFFFFF)).reverse.Perm (headerWrites 0xFFFFFFDC (headerFields 0xFFFFFFFF)) :=
  ⟨⟨by decide, admitted_imgTop, ordered_readAllThenWriteAll, List.reverse_perm _⟩, ⟨by decide, by decide⟩, List.reverse_perm _⟩

theorem witness_TransformWritesEachByteOnce : TransformAdmitted imgTop ∧
    (3 < (transformJob imgTop).width ∧ 1 < (transformJob imgTop).height ∧ (0, 0) ≠ (3, 1)) ∧
    0xFFFFFFFF ∈ (transformJob imgTop).footprint.reads ∧ 0xFFFFFFB8 ∈ (transformJob imgTop).footprint.writes :=
  ⟨admitted_imgTop, by decide, by decide +kernel, by decide +kernel⟩

theorem witness_CalcAddrPredictsTheTransform : imgTop.mem.Wf ∧ imgTop.status.fatal = false ∧
    TransformAdmitted imgTop ∧ Serves imgTop.platform (footprint .transform imgTop).touched ∧
    (3 : Word) < imgTop.regs.width ∧ (1 : Word) < imgTop.regs.height ∧
    ∃ t, exec .transform imgTop = .next t ∧ (t.status.err == 0x00) = true :=
  ⟨by decide, rfl, admitted_imgTop, served_imgTop, by decide, by decide, next_of _ (by decide +kernel)⟩

/-! ### Witnesses: BUILD_HEADER and the output stream -/

/-- The largest payload length at the highest address. -/
theorem witness_BuildHeaderWritesTheRecord :
    (head 0xFFFFFFDB 0xFFFFFFDC).mem.Wf ∧ (head 0xFFFFFFDB 0xFFFFFFDC).status.fatal = false ∧
    HeaderAdmitted (head 0xFFFFFFDB 0xFFFFFFDC) ∧
    Serves (head 0xFFFFFFDB 0xFFFFFFDC).platform ((List.range 36).map (0xFFFFFFDC + ·)) :=
  ⟨by decide, rfl, ⟨by decide, by decide⟩, by unfold Serves; decide +kernel⟩

/-- The smallest payload length of PACK, and the lowest address of ADDR_RANGE. -/
theorem witness_BuildHeaderRejectsInOrder :
    0xFFFFFFDB < (head 0xFFFFFFDC 0xFFFFFFDD).regs.payloadLen ∧
    ((head 0xFFFFFFDB 0xFFFFFFDD).regs.payloadLen ≤ 0xFFFFFFDB ∧
      0xFFFFFFDC < (head 0xFFFFFFDB 0xFFFFFFDD).regs.hdrBase) ∧
    ∃ t, exec .buildHeader (head 0xFFFFFFDC 0) = .next t ∧ (t.status.err == 0x0D) = true :=
  ⟨by decide, by decide, next_of _ (by decide)⟩

/-- P3's stream, with the source ending where the header begins. -/
def stream : State :=
  withRegs fun r =>
    { r with width := 4, height := 2, depth := 1, rowPitch := 4, srcBase := 0x1FBC, dstBase := 0x2000, bufLen := 32,
             payloadLen := 32, hdrBase := 0x1FDC }

theorem witness_OutputStreamInEitherOrder : stream.mem.Wf ∧ stream.status.fatal = false ∧ TransformAdmitted stream ∧
    HeaderAdmitted stream ∧ stream.regs.dstBase.toNat = stream.regs.hdrBase.toNat + 36 ∧
    stream.regs.payloadLen = stream.regs.bufLen ∧ Serves stream.platform (footprint .transform stream).touched ∧
    Serves stream.platform (footprint .buildHeader stream).touched ∧
    stream.regs.srcBase.toNat + stream.regs.bufLen.toNat ≤ stream.regs.hdrBase.toNat :=
  ⟨by decide, rfl,
   ⟨⟨2, by decide⟩, ⟨1, by decide⟩, by decide, by decide, by decide, by decide, by decide, by decide, by decide,
    .inr (by decide)⟩,
   ⟨by decide, by decide⟩, by decide, by decide, by unfold Serves; decide +kernel, by unfold Serves; decide +kernel,
   by decide⟩

/-! ### Witnesses: memory, bus errors and the window -/

theorem witness_MemWriteIsLittleEndian : Memory.Wf [(0xFFFFFFFB, 1)] ∧ 0xFFFFFFFC + 4 ≤ 2 ^ 32 ∧ 3 < 4 ∧
    0xFFFFFFFB < 0xFFFFFFFC ∧ 0xFFFFFFFC + 4 ≤ 0x100000000 := by decide

theorem witness_CommandsTouchOnlyTheirBytes :
    (imgTop.mem.Wf ∧ ∃ t, exec .transform imgTop = .next t ∧ (t.status.err == 0x00) = true) ∧
    (Instr.nop ≠ .transform ∧ Instr.nop ≠ .buildHeader) ∧ halted.status.fatal = true ∧
    ¬ TransformAdmitted State.reset ∧ ¬ HeaderAdmitted (head 0 0xFFFFFFDD) ∧
    imgTop.status.fatal = false ∧ TransformAdmitted imgTop ∧ HeaderAdmitted (head 0 0xFFFFFFDC) :=
  ⟨⟨by decide, next_of _ (by decide +kernel)⟩, by decide, rfl, fun h => absurd h.depthOne (by decide),
   fun h => absurd h.top (by decide), rfl, admitted_imgTop, ⟨by decide, by decide⟩⟩

/-- The last byte of memory is touched; a region one byte higher is not. -/
theorem witness_NoAccessWrapsPastTheTop : 0xFFFFFFFF ∈ (footprint .transform imgTop).touched ∧
    2 ^ 32 < (img 4 2 5 0xFFFFFFDD 0 36).regs.srcBase.toNat + (img 4 2 5 0xFFFFFFDD 0 36).regs.bufLen.toNat ∧
    2 ^ 32 < (head 0 0xFFFFFFDD).regs.hdrBase.toNat + 36 := by decide +kernel

/-- Two memories that differ in a byte TRANSFORM writes and does not read. -/
theorem witness_CommandsDependOnlyOnWhatTheyRead :
    imgTop.mem.Wf ∧ Memory.Wf [(0xFFFFFFB8, 9)] ∧
    (∀ a ∈ (footprint .transform imgTop).reads, Memory.read [(0xFFFFFFB8, 9)] a = imgTop.mem.read a) ∧
    ∃ t, exec .transform imgTop = .next t ∧ (t.status.err == 0x00) = true :=
  ⟨by decide, by decide, by decide +kernel, next_of _ (by decide +kernel)⟩

/-- A bus error at the last byte the command reads. -/
theorem witness_BusErrorKeepsRegistersAndFreesTheBytes :
    (onPlatform 0 [⟨0xFFFFFFFF, 0xFFFFFFFF⟩] imgTop).mem.Wf ∧
    (∀ a ∈ (footprint .transform (onPlatform 0 [⟨0xFFFFFFFF, 0xFFFFFFFF⟩] imgTop)).touched,
      inWindow { regBase := 0, busErrors := [⟨0xFFFFFFFF, 0xFFFFFFFF⟩] } a = false) ∧
    ∃ a ∈ (footprint .transform (onPlatform 0 [⟨0xFFFFFFFF, 0xFFFFFFFF⟩] imgTop)).touched,
      memAdmits { regBase := 0, busErrors := [⟨0xFFFFFFFF, 0xFFFFFFFF⟩] } a = false :=
  ⟨by decide, by decide +kernel, 0xFFFFFFFF, by decide +kernel, by decide⟩

/-- The window ends just below the first byte written, or holds it as its last byte. -/
theorem witness_CommandsStopOnlyAtTheirOwnWindow :
    (∀ a ∈ (footprint .buildHeader (onPlatform 0x2F00 [] (head 0 0x3000))).touched,
      inWindow { regBase := 0x2F00, busErrors := [] } a = false) ∧
    ∃ a ∈ (footprint .buildHeader (onPlatform 0x2F01 [] (head 0 0x3000))).touched,
      inWindow { regBase := 0x2F01, busErrors := [] } a = true :=
  ⟨by decide +kernel, 0x3000, by decide +kernel, by decide⟩

/-! ### Witnesses: other masters -/

theorem witness_MemoryWritesBetweenCommandsAreSeen :
    (given State.reset (.memory (.write 0xFFFFFFFF 7))).mem.Wf ∧
    (given State.reset (.memory (.write 0xFFFFFFFF 7))).input = .memory (.write 0xFFFFFFFF 7) :: [] ∧
    inWindow (given State.reset (.memory (.write 0xFFFFFFFF 7))).platform (0xFFFFFFFF : Word).toNat = false := by decide

/-- A read by another master of the last byte of a header being written. -/
theorem witness_InterferenceIsAFault : decodeWord 0x05 = .ok .buildHeader ∧
    (given (head 0 0) (.port (access .write 32 0 5) [.read 35])).input =
      .port { dir := .write, bits := 32, addr := State.reset.platform.regBase, data := 5 } [.read 35] :: [] ∧
    ∃ m ∈ [MemAccess.read 35], m.addr ∈ (footprint .buildHeader (head 0 0)).touched :=
  ⟨rfl, by decide, .read 35, by decide, by decide⟩

/-- A write of another master one byte above the header. -/
theorem witness_DisjointAccessesCommuteWithTheCommand :
    (given (head 0 0) (.port (access .write 32 0 5) [.write 36 7])).mem.Wf ∧
    (given (head 0 0) (.port (access .write 32 0 5) [.write 36 7])).input =
      .port (access .write 32 0 5) [.write 36 7] :: [] ∧
    ∃ t, step (given (head 0 0) (.port (access .write 32 0 5) [.write 36 7])) = .next t ∧
      (t.mem.read 36 == 7 && t.mem.read 0 == 0x58) = true :=
  ⟨by decide, rfl, next_of _ (by decide +kernel)⟩

/-- A lawful event and an unlawful one, in two states. -/
theorem witness_StepsAreSafeExactlyOnLawfulEvents :
    (given State.reset (.memory (.read 0xEFFFFFFF))).input = .memory (.read 0xEFFFFFFF) :: [] ∧
    Lawful State.reset (.memory (.read 0xEFFFFFFF)) ∧ ¬ Lawful State.reset (.memory (.read 0xF0000000)) ∧
    faultOf (step (given State.reset (.memory (.read 0xF0000000)))) = some .hostAccess := by
  unfold Lawful; decide

/-! ### Witnesses: reset, power-up and invariants -/

theorem witness_ResetClearsEveryRegister : (given halted .reset).input = .reset :: [] := rfl

theorem witness_ResetDuringACommandFreesItsBytes :
    (given (head 0 0) (.portReset (access .write 32 0 5) [])).mem.Wf ∧ decodeWord 0x05 = .ok .buildHeader ∧
    (given (head 0 0) (.portReset (access .write 32 0 5) [])).input =
      .portReset { dir := .write, bits := 32, addr := State.reset.platform.regBase, data := 0x05 } [] :: [] ∧
    (∀ a ∈ (footprint .buildHeader (head 0 0)).touched, inWindow State.reset.platform a = false) ∧
    35 ∈ (footprint .buildHeader (head 0 0)).writes := by
  refine ⟨by decide, rfl, by decide, by decide +kernel, by decide⟩

theorem witness_PowerUpFreesTheRegistersUntilReset :
    ({ State.reset with input := [.powerUp, .reset] } : State).input = .powerUp :: .reset :: [] := rfl

/-- A command, and a quiet access that starts none, on a halted SAC. -/
theorem witness_FatalLastsUntilReset :
    (withWrite halted .cmd 4).status.fatal = true ∧ (hostWrite halted .cmd 4).resets = false ∧
    (hostWrite halted .cmd 4).starts (withWrite halted .cmd 4) = some .transform ∧
    (∃ t, step (withWrite halted .cmd 4) = .next t ∧ t.status.fatal = true) ∧
    ∃ t, step (withWrite halted .width 4) = .next t ∧ t.status.fatal = true :=
  ⟨rfl, rfl, by decide, next_of (·.status.fatal) (by decide), next_of (·.status.fatal) (by decide)⟩

theorem witness_FatalIsNeverSet : (withWrite imgTop .cmd 4).status.fatal = false ∧
    (withWrite imgTop .cmd 4).input.head? ≠ some .powerUp ∧
    ∃ t, step (withWrite imgTop .cmd 4) = .next t ∧ (t.status.err == 0x00) = true :=
  ⟨rfl, by decide, next_of _ (by decide +kernel)⟩

theorem witness_EveryStepKeepsMemoryCanonical : (withWrite imgTop .cmd 4).mem.Wf ∧
    ∃ t, step (withWrite imgTop .cmd 4) = .next t ∧ (t.status.err == 0x00) = true :=
  ⟨by decide, next_of _ (by decide +kernel)⟩

/-- A reset of a halted SAC meets the second case; the registers of a reset state meet the first. -/
theorem witness_EveryStepKeepsTheRegisterInvariants :
    RegisterInv (withWrite State.reset .cmd 5) ∧
    (∃ t, step (withWrite State.reset .cmd 5) = .next t ∧ (t.status.err == 0x00) = true) ∧
    (withWrite State.reset .cmd 5).input.head? ≠ some .powerUp ∧
    (∃ e rest, (given halted .reset).input = e :: rest ∧ e.resets = true) ∧
    (given halted .reset).input.head? ≠ some .powerUp :=
  ⟨⟨rfl, by decide, ⟨by decide, by decide, by decide, by decide, by decide⟩, fun h => absurd h (by decide),
    by decide, by decide, by decide, .inl rfl⟩,
   next_of _ (by decide +kernel), by decide, ⟨.reset, [], rfl, rfl⟩, by decide⟩

end Sys2Proof.Tests
end

section
/-!
PROOFS. O16, clog2 and the mask bits (00_scope.md R7): how many bits the generator has given each axis after r rounds.
-/

namespace Sys2Proof.Machine

/-! ### Counting below a bound -/

theorem length_filter_lt_range (n k : Nat) : ((List.range n).filter fun i => i < k).length = min n k := by
  induction n with
  | zero => simp
  | succ n ih =>
    rw [List.range_succ, List.filter_append, List.length_append, ih]
    by_cases h : n < k <;> simp [h] <;> omega

theorem clog2_le_self (n : Nat) : clog2 n ≤ n := (clog2_le_iff n n).2 Nat.lt_two_pow_self.le

/-- R7's reading of clog2 as a count. -/
theorem clog2_eq_count (n : Nat) : clog2 n = ((List.range n).filter fun k => 2 ^ k < n).length := by
  simp only [← lt_clog2_iff, length_filter_lt_range, Nat.min_eq_right (clog2_le_self n)]

/-! ### Ranks -/

theorem rank_congr {m m' p : Nat} (h : ∀ q, q < p → m.testBit q = m'.testBit q) : rank m p = rank m' p := by
  unfold rank
  rw [List.filter_congr fun q hq => h q (List.mem_range.1 hq)]

/-- A mask has no bits to count past its length. -/
theorem rank_of_lt {m c p : Nat} (hm : m < 2 ^ c) (h : c ≤ p) : rank m p = rank m c := by
  induction h with
  | refl => rfl
  | @step q hq ih =>
    have hbit : m.testBit q = false := Nat.testBit_lt_two_pow (hm.trans_le (Nat.pow_le_pow_right (by omega) hq))
    rw [rank_succ, ih, hbit, Bool.toNat_false, Nat.add_zero]

theorem popcount_of_lt {m c : Nat} (hm : m < 2 ^ c) (h : c ≤ 32) : popcount m = rank m c := by
  rw [popcount_eq_rank, rank_of_lt hm h]

/-- A new top bit adds one to the count. -/
theorem rank_or_two_pow (m c : Nat) : rank (m ||| 2 ^ c) (c + 1) = rank m c + 1 := by
  have hlow : rank (m ||| 2 ^ c) c = rank m c := rank_congr fun q hq => by
    rw [Nat.testBit_or, Nat.testBit_two_pow_of_ne (by omega), Bool.or_false]
  rw [rank_succ, hlow, Nat.testBit_or, Nat.testBit_two_pow_self, Bool.or_true, Bool.toNat_true]

/-! ### What the generator has given each axis -/

/-- The bits three axes have together. -/
def bitsTaken (b : Axis → Nat) : Nat := b .x + b .y + b .z

theorem bitsTaken_update_succ (b : Axis → Nat) (a : Axis) :
    bitsTaken (Function.update b a (b a + 1)) = bitsTaken b + 1 := by
  cases a <;> simp [bitsTaken, Function.update] <;> omega

/-- The generator has given each axis `a` so far `b a` bits, all below the cursor. -/
structure MaskGen.Tally (g : MaskGen) (b : Axis → Nat) : Prop where
  cursor : g.cursor = 2 ^ bitsTaken b
  mask_lt : ∀ a, g.mask a < 2 ^ bitsTaken b
  rank : ∀ a, rank (g.mask a) (bitsTaken b) = b a

theorem MaskGen.tally_start : MaskGen.start.Tally fun _ => 0 where
  cursor := rfl
  mask_lt a := by cases a <;> decide
  rank a := by cases a <;> rfl

theorem MaskGen.mask_withBit (g : MaskGen) (k : Nat) (a : Axis) :
    ({ g with bit := k } : MaskGen).mask a = g.mask a := by
  cases a <;> rfl

/-- The candidate position plays no part in a tally. -/
theorem MaskGen.Tally.withBit {g : MaskGen} {b : Axis → Nat} (h : g.Tally b) (k : Nat) :
    ({ g with bit := k } : MaskGen).Tally b :=
  ⟨h.cursor, fun a => (g.mask_withBit k a).symm ▸ h.mask_lt a, fun a => (g.mask_withBit k a).symm ▸ h.rank a⟩

/-- An axis that takes the cursor's bit has one bit more, and the other axes have theirs. -/
theorem MaskGen.Tally.take {g : MaskGen} {b : Axis → Nat} (h : g.Tally b) (a : Axis) :
    (g.take a).Tally (Function.update b a (b a + 1)) := by
  have hpow : 2 ^ bitsTaken b < 2 ^ (bitsTaken b + 1) := Nat.pow_lt_pow_right (by omega) (by omega)
  refine ⟨?_, fun a' => ?_, fun a' => ?_⟩
  · rw [take_cursor, h.cursor, bitsTaken_update_succ, Nat.shiftLeft_eq, pow_one, ← pow_succ]
  · rw [take_mask, bitsTaken_update_succ, h.cursor]
    split_ifs
    · exact Nat.or_lt_two_pow ((h.mask_lt a').trans hpow) hpow
    · exact (h.mask_lt a').trans hpow
  · rw [take_mask, bitsTaken_update_succ, h.cursor]
    split_ifs with ha
    · rw [rank_or_two_pow, h.rank, ha, Function.update_self]
    · rw [rank_of_lt (h.mask_lt a') (Nat.le_succ _), h.rank, Function.update_of_ne ha]

/-- In round `r` an axis takes a bit exactly while it has fewer than clog2 of its extent. -/
theorem MaskGen.Tally.axisTurn {p : MaskGen × Bool} {b : Axis → Nat} {r : Nat} (h : p.1.Tally b)
    (hbit : p.1.bit = 2 ^ r) (a : Axis) (e : Nat) (hb : b a = min r (clog2 e)) :
    (axisTurn a e p).1.Tally (Function.update b a (min (r + 1) (clog2 e))) := by
  by_cases hr : r < clog2 e
  · rw [axisTurn_take (by rwa [hbit, ← lt_clog2_iff])]
    rw [show min (r + 1) (clog2 e) = b a + 1 by omega]
    exact h.take a
  · rw [axisTurn_skip (by rwa [hbit, ← lt_clog2_iff])]
    rwa [show min (r + 1) (clog2 e) = b a by omega, Function.update_eq_self]

/-- The bits every axis has after `r` rounds: one a round, up to clog2 of its extent. -/
def bitsAfter (w h d r : Nat) (a : Axis) : Nat := min r (clog2 (extent w h d a))

/-- Once no axis wants another bit, further rounds give none. -/
theorem bitsAfter_of_le {w h d r n : Nat} (hr : ∀ a, clog2 (extent w h d a) ≤ r) (hn : r ≤ n) :
    bitsAfter w h d n = fun a => clog2 (extent w h d a) :=
  funext fun a => Nat.min_eq_right ((hr a).trans hn)

theorem axisTurn_progress (a : Axis) (e : Nat) (p : MaskGen × Bool) :
    (axisTurn a e p).2 = (p.2 || decide (p.1.bit < e)) := by
  unfold Machine.axisTurn
  split <;> simp [*]

@[simp] theorem maskRound_bit (w h d : Nat) (g : MaskGen) : (maskRound w h d g).1.bit = g.bit <<< 1 := by
  simp [maskRound]

/-- A round makes progress if the candidate position is below some extent. -/
theorem maskRound_progress_iff (w h d : Nat) (g : MaskGen) :
    (maskRound w h d g).2 = true ↔ ∃ a, g.bit < extent w h d a := by
  simp only [maskRound, axisTurn_progress, axisTurn_bit, Bool.false_or, Bool.or_eq_true, decide_eq_true_eq]
  constructor
  · rintro ((h | h) | h)
    exacts [⟨.x, h⟩, ⟨.y, h⟩, ⟨.z, h⟩]
  · rintro ⟨a, h⟩
    cases a
    exacts [.inl (.inl h), .inl (.inr h), .inr h]

theorem MaskGen.Tally.maskRound {w h d r : Nat} {g : MaskGen} (hg : g.Tally (bitsAfter w h d r))
    (hbit : g.bit = 2 ^ r) : (maskRound w h d g).1.Tally (bitsAfter w h d (r + 1)) := by
  have hx := Tally.axisTurn (p := (g, false)) hg hbit .x w rfl
  have hy := hx.axisTurn (by simpa using hbit) .y h rfl
  have hz := hy.axisTurn (by simpa using hbit) .z d rfl
  have hall : bitsAfter w h d (r + 1) = Function.update (Function.update (Function.update (bitsAfter w h d r)
      .x (min (r + 1) (clog2 w))) .y (min (r + 1) (clog2 h))) .z (min (r + 1) (clog2 d)) := by
    funext a
    cases a <;> rfl
  rw [hall]
  exact hz.withBit _

/-- R85's loop: `n` more rounds after the first `r`, or fewer where a round without progress ends the loop. -/
theorem MaskGen.Tally.maskRounds {w h d n r : Nat} {g : MaskGen} (hg : g.Tally (bitsAfter w h d r))
    (hbit : g.bit = 2 ^ r) : (maskRounds w h d n g).Tally (bitsAfter w h d (r + n)) := by
  induction n generalizing r g with
  | zero => exact hg
  | succ n ih =>
    have hround := hg.maskRound hbit
    simp only [Machine.maskRounds]
    split_ifs with hp
    · rw [show r + (n + 1) = r + 1 + n by omega]
      exact ih hround (by rw [maskRound_bit, hbit, Nat.shiftLeft_eq, pow_one, ← pow_succ])
    · have hdone : ∀ a, clog2 (extent w h d a) ≤ r := fun a => by
        rw [clog2_le_iff, ← hbit, ← not_lt]
        exact fun hlt => hp ((maskRound_progress_iff w h d g).2 ⟨a, hlt⟩)
      rwa [bitsAfter_of_le hdone (by omega : r ≤ r + (n + 1)), ← bitsAfter_of_le hdone (Nat.le_succ r)]

/-- R89: on admitted dimensions each axis ends with clog2 of its extent many bits. -/
theorem genMasks_tally {w h d : Nat} (hd : DimsAdmitted w h d) :
    (genMasks w h d).Tally fun a => clog2 (extent w h d a) := by
  obtain ⟨-, -, -, hsum⟩ := hd
  have hstart : MaskGen.start.Tally (bitsAfter w h d 0) := by
    rw [show bitsAfter w h d 0 = fun _ => 0 from funext fun a => Nat.zero_min _]
    exact MaskGen.tally_start
  have hdone : ∀ a, clog2 (extent w h d a) ≤ 33 := fun a => by
    cases a <;> simp only [extent] <;> omega
  rw [← bitsAfter_of_le hdone (show 33 ≤ 0 + 33 from le_rfl)]
  exact hstart.maskRounds rfl

theorem genMasks_mask_lt {w h d : Nat} (hd : DimsAdmitted w h d) (a : Axis) :
    (genMasks w h d).mask a < 2 ^ (clog2 w + clog2 h + clog2 d) :=
  (genMasks_tally hd).mask_lt a

theorem popcount_genMasks_mask {w h d : Nat} (hd : DimsAdmitted w h d) (a : Axis) :
    popcount ((genMasks w h d).mask a) = clog2 (extent w h d a) := by
  have hsum : clog2 w + clog2 h + clog2 d ≤ 32 := by
    obtain ⟨-, -, -, h⟩ := hd
    omega
  rw [popcount_of_lt (genMasks_mask_lt hd a) hsum]
  exact (genMasks_tally hd).rank a

/-- Settles O16: the count, then the generator's tally after its last round. -/
theorem clog2CountsTheMaskBits : Obligations.Clog2CountsTheMaskBits := by
  unfold Obligations.Clog2CountsTheMaskBits
  exact ⟨fun n _ => ⟨clog2_eq_count n, fun _ hk => Nat.lt_two_pow_self.trans hk⟩,
    fun _ _ _ hd a => popcount_genMasks_mask hd a⟩

end Sys2Proof.Machine
end

section
/-!
PROOFS. O46, noninterference (00_scope.md R2): states that are alike in registers and platform, and in a set of
bytes that holds every byte a command reads, stay alike, now also in the bytes the command writes.
-/

namespace Sys2Proof.Machine

open Host (Outcome)

/-! ### Memories that read alike on a set of addresses -/

/-- Two canonical memories that read alike at the addresses of `S`. -/
structure Memory.AlikeOn (S : Set Nat) (m m' : Memory) : Prop where
  wf : m.Wf
  wf' : m'.Wf
  read : ∀ x ∈ S, m'.read x = m.read x

theorem Memory.AlikeOn.mono {S T : Set Nat} {m m' : Memory} (h : AlikeOn S m m') (hT : T ⊆ S) : AlikeOn T m m' :=
  ⟨h.wf, h.wf', fun x hx => h.read x (hT hx)⟩

/-- The same write on both sides adds its address. -/
theorem Memory.AlikeOn.write {S : Set Nat} {m m' : Memory} (h : AlikeOn S m m') {a : Nat} (ha : a < Config.memSpace)
    (b : Byte) : AlikeOn (S ∪ {a}) (m.write a b) (m'.write a b) := by
  refine ⟨write_wf h.wf ha b, write_wf h.wf' ha b, fun x hx => ?_⟩
  rw [read_write h.wf, read_write h.wf']
  split_ifs with hxa
  · rfl
  · exact h.read x (hx.resolve_right hxa)

theorem Memory.AlikeOn.writeAll {S : Set Nat} {m m' : Memory} (h : AlikeOn S m m') {as : List Nat}
    (has : ∀ a ∈ as, a < Config.memSpace) (f : Nat → Byte) :
    AlikeOn (S ∪ {a | a ∈ as}) (as.foldl (fun m a => m.write a (f a)) m)
      (as.foldl (fun m a => m.write a (f a)) m') := by
  refine ⟨writeAll_wf has f h.wf, writeAll_wf has f h.wf', fun x hx => ?_⟩
  rw [read_writeAll has f h.wf, read_writeAll has f h.wf']
  split_ifs with hxa
  · rfl
  · exact h.read x (hx.resolve_right hxa)

theorem Memory.AlikeOn.writeLE {S : Set Nat} {m m' : Memory} (h : AlikeOn S m m') {a n : Nat} (v : Nat)
    (hn : a + n ≤ Config.memSpace) : AlikeOn (S ∪ Set.Ico a (a + n)) (m.writeLE a n v) (m'.writeLE a n v) := by
  obtain ⟨hwf, hread⟩ := writeLE_spec h.wf v hn
  obtain ⟨hwf', hread'⟩ := writeLE_spec h.wf' v hn
  refine ⟨hwf, hwf', fun x hx => ?_⟩
  rw [hread, hread']
  split_ifs with hxa
  · rfl
  · exact h.read x (hx.resolve_right hxa)

/-! ### The effects of the two memory phases -/

theorem mem_pixelBytes {a x : Nat} : x ∈ pixelBytes a ↔ a ≤ x ∧ x < a + 4 := by
  simp only [pixelBytes, Config.bytesPerPixel, List.mem_map, List.mem_range]
  exact ⟨by rintro ⟨k, hk, rfl⟩; omega, fun ⟨h1, h2⟩ => ⟨x - a, by omega, by omega⟩⟩

/-- A pixel copied from four bytes that read alike adds its destination. -/
theorem Memory.AlikeOn.copyPixel {S : Set Nat} {m m' : Memory} (h : AlikeOn S m m') {s d : Nat}
    (hs : ∀ x ∈ pixelBytes s, x ∈ S) (hd : ∀ x ∈ pixelBytes d, x < Config.memSpace) :
    AlikeOn (S ∪ {x | x ∈ pixelBytes d}) (copyPixel s d m) (copyPixel s d m') := by
  have hsrc : ∀ k, k < 4 → m'.read (s + k) = m.read (s + k) := fun k hk =>
    h.read _ (hs _ (mem_pixelBytes.2 ⟨by omega, by omega⟩))
  have hdst : ∀ k, k < 4 → d + k < Config.memSpace := fun k hk => hd _ (mem_pixelBytes.2 ⟨by omega, by omega⟩)
  have h0 : m'.read s = m.read s := hsrc 0 (by omega)
  simp only [Machine.copyPixel, h0, hsrc 1 (by omega), hsrc 2 (by omega), hsrc 3 (by omega)]
  refine ((((h.write (hdst 0 (by omega)) _).write (hdst 1 (by omega)) _).write (hdst 2 (by omega)) _).write
    (hdst 3 (by omega)) _).mono fun x hx => ?_
  rcases hx with hx | hx
  · simp [hx]
  · have := mem_pixelBytes.1 hx
    simp only [Set.mem_union, Set.mem_singleton_iff]
    omega

/-- CopyAll from source bytes that read alike adds every destination byte: no copy changes what a later one reads
on one side only. -/
theorem Memory.AlikeOn.run {S : Set Nat} {m m' : Memory} (h : AlikeOn S m m') (j : CopyJob) (cs : List (Nat × Nat))
    (hs : ∀ c ∈ cs, ∀ x ∈ pixelBytes (srcPixelAddr j.src j.pitch c.1 c.2), x ∈ S)
    (hd : ∀ c ∈ cs, ∀ x ∈ pixelBytes (dstPixelAddr j.dst j.mx j.my c.1 c.2), x < Config.memSpace) :
    AlikeOn (S ∪ {x | ∃ c ∈ cs, x ∈ pixelBytes (dstPixelAddr j.dst j.mx j.my c.1 c.2)}) (j.run cs m)
      (j.run cs m') := by
  induction cs generalizing S m m' with
  | nil => exact h.mono (by simp)
  | cons c cs ih =>
    have hpixel := h.copyPixel (hs c (by simp)) (hd c (by simp))
    refine (ih hpixel (fun c' hc' x hx => .inl (hs c' (by simp [hc']) x hx))
      fun c' hc' => hd c' (by simp [hc'])).mono fun x hx => ?_
    rcases hx with hx | ⟨c', hc', hx⟩
    · exact .inl (.inl hx)
    · rcases List.mem_cons.1 hc' with rfl | hc'
      · exact .inl (.inr hx)
      · exact .inr ⟨c', hc', hx⟩

theorem Memory.AlikeOn.copyAll {S : Set Nat} {m m' : Memory} (h : AlikeOn S m m') (j : CopyJob)
    (hs : ∀ x ∈ j.footprint.reads, x ∈ S) (hd : ∀ x ∈ j.footprint.writes, x < Config.memSpace) :
    AlikeOn (S ∪ {x | x ∈ j.footprint.writes}) (j.copyAll m) (j.copyAll m') := by
  simp only [CopyJob.footprint, List.mem_flatMap] at hs hd ⊢
  exact h.run j _ (fun c hc x hx => hs x ⟨c, hc, hx⟩) fun c hc x hx => hd x ⟨c, hc, hx⟩

/-- Words written at their places from `a` up add their bytes. -/
theorem Memory.AlikeOn.writeWords {S : Set Nat} {m m' : Memory} (h : AlikeOn S m m') (a : Nat)
    (ps : List (Word × Nat)) (hps : ∀ p ∈ ps, a + 4 * p.2 + 4 ≤ Config.memSpace) :
    AlikeOn (S ∪ {x | ∃ p ∈ ps, x ∈ Set.Ico (a + 4 * p.2) (a + 4 * p.2 + 4)})
      (ps.foldl (fun m p => m.writeLE (a + 4 * p.2) 4 p.1.toNat) m)
      (ps.foldl (fun m p => m.writeLE (a + 4 * p.2) 4 p.1.toNat) m') := by
  induction ps generalizing S m m' with
  | nil => exact h.mono (by simp)
  | cons p ps ih =>
    refine (ih (h.writeLE p.1.toNat (hps p (by simp))) fun q hq => hps q (by simp [hq])).mono fun x hx => ?_
    rcases hx with hx | ⟨q, hq, hx⟩
    · exact .inl (.inl hx)
    · rcases List.mem_cons.1 hq with rfl | hq
      · exact .inl (.inr hx)
      · exact .inr ⟨q, hq, hx⟩

@[simp] theorem HeaderRecord.length_toList (f : HeaderRecord) : f.toList.length = 9 := rfl

theorem Memory.AlikeOn.writeHeader {S : Set Nat} {m m' : Memory} (h : AlikeOn S m m') {a : Nat} (f : HeaderRecord)
    (ha : a + 36 ≤ Config.memSpace) :
    AlikeOn (S ∪ Set.Ico a (a + 36)) (writeHeader a f m) (writeHeader a f m') := by
  refine (h.writeWords a f.toList.zipIdx fun p hp => ?_).mono fun x hx => ?_
  · have hlt : p.2 < 9 := by simpa using List.snd_lt_of_mem_zipIdx hp
    omega
  · rcases hx with hx | ⟨hlo, hhi⟩
    · exact .inl hx
    · have hi : (x - a) / 4 < f.toList.length := by rw [HeaderRecord.length_toList]; omega
      refine .inr ⟨(f.toList[(x - a) / 4], (x - a) / 4), ?_, ?_, ?_⟩
      · simp [List.mem_zipIdx_iff_getElem?]
      · show a + 4 * ((x - a) / 4) ≤ x
        omega
      · show x < a + 4 * ((x - a) / 4) + 4
        omega

/-! ### The bytes of the memory phases lie in the memory space -/

/-- Scatter stays below a bound of its mask. -/
theorem scatter_lt_two_pow {mask c : Nat} (hm : mask < 2 ^ c) (v : Nat) : scatter mask v < 2 ^ c := by
  refine Nat.lt_pow_two_of_testBit _ fun i hi => ?_
  rw [testBit_scatter, Nat.testBit_lt_two_pow (hm.trans_le (Nat.pow_le_pow_right (by omega) hi))]
  simp

theorem TransformAdmitted.dims {s : State} (h : TransformAdmitted s) :
    DimsAdmitted s.regs.width.toNat s.regs.height.toNat 1 := by
  obtain ⟨j, hj⟩ := h.widthPow
  obtain ⟨k, hk⟩ := h.heightPow
  have hbits := h.bits
  rw [h.depthOne] at hbits
  exact ⟨hj ▸ Nat.two_pow_pos j, hk ▸ Nat.two_pow_pos k, le_rfl, hbits⟩

/-- R93: on power-of-two extents the Morton index is below the number of pixels. -/
theorem TransformAdmitted.index_lt {s : State} (h : TransformAdmitted s) (x y : Nat) :
    scatter (transformJob s).mx x ||| scatter (transformJob s).my y < s.regs.width.toNat * s.regs.height.toNat := by
  have hpixels : s.regs.width.toNat * s.regs.height.toNat =
      2 ^ (clog2 s.regs.width.toNat + clog2 s.regs.height.toNat + clog2 1) := by
    obtain ⟨j, hj⟩ := h.widthPow
    obtain ⟨k, hk⟩ := h.heightPow
    rw [hj, hk, clog2_two_pow, clog2_two_pow, ← pow_add]
    rfl
  rw [hpixels]
  exact Nat.or_lt_two_pow (scatter_lt_two_pow (genMasks_mask_lt h.dims .x) x)
    (scatter_lt_two_pow (genMasks_mask_lt h.dims .y) y)

@[simp] theorem transformJob_dst (s : State) : (transformJob s).dst = s.regs.dstBase.toNat := rfl

/-- R50 for the bytes an admitted TRANSFORM writes. -/
theorem TransformAdmitted.writes_lt {s : State} (h : TransformAdmitted s) :
    ∀ a ∈ (transformJob s).footprint.writes, a < Config.memSpace := by
  intro a ha
  simp only [CopyJob.footprint, List.mem_flatMap] at ha
  obtain ⟨c, -, ha⟩ := ha
  obtain ⟨-, hlt⟩ := mem_pixelBytes.1 ha
  have hindex := h.index_lt c.1 c.2
  have hlen := h.dstLen
  have htop := h.dstTop
  rw [mul_assoc] at hlen
  simp only [dstPixelAddr, transformJob_dst, Config.bytesPerPixel, Config.memSpace] at hlt ⊢
  omega

theorem mem_headerFootprint_writes {s : State} {a : Nat} :
    a ∈ (headerFootprint s).writes ↔ a ∈ Set.Ico s.regs.hdrBase.toNat (s.regs.hdrBase.toNat + 36) := by
  simp only [headerFootprint, Config.headerSize, List.mem_map, List.mem_range, Set.mem_Ico]
  exact ⟨by rintro ⟨k, hk, rfl⟩; omega, fun ⟨h1, h2⟩ => ⟨a - s.regs.hdrBase.toNat, by omega, by omega⟩⟩

/-! ### The footprint of a command, case by case -/

theorem footprint_halted (i : Instr) {s : State} (h : s.status.fatal = true) : footprint i s = Footprint.empty := by
  cases i <;> simp [footprint, h]

theorem footprint_transform_rejected {s : State} (h : firstError (transformChecks s) ≠ none) :
    footprint .transform s = Footprint.empty := by
  simp [footprint, Option.isSome_iff_ne_none.2 h]

theorem footprint_transform_invariant {s : State}
    (h : (genMasks s.regs.width.toNat s.regs.height.toNat 1).invariant = false) :
    footprint .transform s = Footprint.empty := by
  simp [footprint, h]

theorem footprint_transform_live {s : State} (hs : s.status.fatal = false)
    (hc : firstError (transformChecks s) = none)
    (hi : (genMasks s.regs.width.toNat s.regs.height.toNat 1).invariant = true) :
    footprint .transform s = (transformJob s).footprint := by
  simp [footprint, hs, hc, hi]

theorem footprint_buildHeader_rejected {s : State} (h : firstError (headerChecks s) ≠ none) :
    footprint .buildHeader s = Footprint.empty := by
  simp [footprint, Option.isSome_iff_ne_none.2 h]

theorem footprint_buildHeader_live {s : State} (hs : s.status.fatal = false)
    (hc : firstError (headerChecks s) = none) : footprint .buildHeader s = headerFootprint s := by
  simp [footprint, hs, hc]

/-! ### States alike in everything a command depends on -/

/-- Two states alike in registers, platform and free draws, and in the bytes of `S`. -/
structure Alike (S : Set Nat) (s s' : State) : Prop where
  regs : s'.regs = s.regs
  status : s'.status = s.status
  platform : s'.platform = s.platform
  draws : s'.draws = s.draws
  mem : s.mem.AlikeOn S s'.mem

section
variable {S T : Set Nat} {s s' : State}

theorem Alike.mono (h : Alike S s s') (hT : T ⊆ S) : Alike T s s' :=
  ⟨h.regs, h.status, h.platform, h.draws, h.mem.mono hT⟩

theorem Alike.withRegs (h : Alike S s s') (r : Regs) : Alike S { s with regs := r } { s' with regs := r } :=
  ⟨rfl, h.status, h.platform, h.draws, h.mem⟩

theorem Alike.setLastOp (h : Alike S s s') (op : Byte) : Alike S (setLastOp op s) (setLastOp op s') :=
  ⟨h.regs, by simp [h.status], h.platform, h.draws, h.mem⟩

theorem Alike.withOutcome (h : Alike S s s') (op : Byte) (c : ErrCode) :
    Alike S (withOutcome s op c) (withOutcome s' op c) :=
  ⟨h.regs, by simp [h.status], h.platform, h.draws, h.mem⟩

theorem Alike.raiseError (h : Alike S s s') (c : ErrCode) : Alike S (raiseError c s) (raiseError c s') :=
  ⟨h.regs, by simp [h.status], h.platform, h.draws, h.mem⟩

theorem Alike.finishOk (h : Alike S s s') : Alike S (finishOk s) (finishOk s') :=
  ⟨h.regs, by simp [h.status], h.platform, h.draws, h.mem⟩

theorem Alike.setFatal (h : Alike S s s') : Alike S (setFatal s) (setFatal s') :=
  ⟨h.regs, by simp [h.status], h.platform, h.draws, h.mem⟩

theorem Alike.setMasksValid (h : Alike S s s') (n : Nat) : Alike S (setMasksValid n s) (setMasksValid n s') :=
  ⟨h.regs, by simp [h.status], h.platform, h.draws, h.mem⟩

theorem Alike.withMasks (h : Alike S s s') (w ht d : Nat) : Alike S (withMasks w ht d s) (withMasks w ht d s') := by
  simp only [Machine.withMasks, h.regs]
  exact (h.withRegs _).setMasksValid _

theorem Alike.coordMorton (h : Alike S s s') : coordMorton s' = coordMorton s := by
  simp only [Machine.coordMorton, h.regs]

theorem Alike.writeOffsets (h : Alike S s s') : Alike S (writeOffsets s) (writeOffsets s') := by
  simp only [Machine.writeOffsets, h.regs, h.coordMorton]
  exact h.withRegs _

theorem Alike.drawBytes (h : Alike S s s') {as : List Nat} (has : ∀ a ∈ as, a < Config.memSpace) :
    Alike (S ∪ {a | a ∈ as}) (drawBytes as s) (drawBytes as s') := by
  refine ⟨h.regs, h.status, h.platform, by simp [h.draws], ?_⟩
  simp only [Machine.drawBytes, h.draws]
  exact h.mem.writeAll has _

theorem Alike.calcAddrChecks (h : Alike S s s') : calcAddrChecks s' = calcAddrChecks s := by
  simp only [Machine.calcAddrChecks, h.regs, h.status]

theorem Alike.transformChecks (h : Alike S s s') : transformChecks s' = transformChecks s := by
  simp only [Machine.transformChecks, h.regs]

theorem Alike.transformJob (h : Alike S s s') : transformJob s' = transformJob s := by
  simp only [Machine.transformJob, h.regs]

theorem Alike.headerTotal (h : Alike S s s') : headerTotal s' = headerTotal s := by
  simp only [Machine.headerTotal, h.regs]

theorem Alike.headerChecks (h : Alike S s s') : headerChecks s' = headerChecks s := by
  simp only [Machine.headerChecks, h.regs, h.headerTotal]

theorem Alike.headerFootprint (h : Alike S s s') : headerFootprint s' = headerFootprint s := by
  simp only [Machine.headerFootprint, h.regs]

/-! ### Outcomes alike -/

/-- Alike next states, or the same refusal. -/
inductive OutcomeAlike (S : Set Nat) : Outcome State Fault Refusal → Outcome State Fault Refusal → Prop where
  | next {t t' : State} (h : Alike S t t') : OutcomeAlike S (.next t) (.next t')
  | refused (r : Refusal) : OutcomeAlike S (.refused r) (.refused r)

theorem OutcomeAlike.of_next {o o' : Outcome State Fault Refusal} {t : State} (h : OutcomeAlike S o o')
    (ho : o = .next t) : ∃ t', o' = .next t' ∧ Alike S t t' := by
  cases h with
  | next h => cases ho; exact ⟨_, rfl, h⟩
  | refused r => cases ho

/-- The same checks end alike. Where one fails nothing is written, so no byte need be added to `S`. -/
theorem Alike.checkedBody (h : Alike S s s') (checks : List (Bool × ErrCode))
    {rest rest' : State → Outcome State Fault Refusal} (hfail : firstError checks ≠ none → T ⊆ S)
    (hrest : firstError checks = none → OutcomeAlike T (rest s) (rest' s')) :
    OutcomeAlike T (checkedBody checks rest s) (checkedBody checks rest' s') := by
  cases hc : firstError checks with
  | some c =>
    rw [checkedBody_some hc, checkedBody_some hc]
    exact .next ((h.mono (hfail (by simp [hc]))).raiseError c)
  | none =>
    rw [checkedBody_none hc, checkedBody_none hc]
    exact hrest hc

/-- The same latch ends alike. -/
theorem Alike.latchMasks (h : Alike S s s') (w ht d : Nat) {rest rest' : State → Outcome State Fault Refusal}
    (hfail : (genMasks w ht d).invariant = false → T ⊆ S)
    (hrest : (genMasks w ht d).invariant = true →
      OutcomeAlike T (rest (Machine.withMasks w ht d s)) (rest' (Machine.withMasks w ht d s'))) :
    OutcomeAlike T (latchMasks w ht d rest s) (latchMasks w ht d rest' s') := by
  simp only [Machine.latchMasks]
  split_ifs with hi
  · exact hrest hi
  · exact .next ((h.mono (hfail (by simpa using hi))).setFatal.raiseError _)

/-- A memory phase over the same bytes ends alike, refused, served or with BUS. -/
theorem Alike.memoryPhase (h : Alike S s s') {f : Footprint} {effect : Memory → Memory}
    (hf : ∀ a ∈ f.writes, a < Config.memSpace)
    (heffect : (effect s.mem).AlikeOn (S ∪ {a | a ∈ f.writes}) (effect s'.mem)) :
    OutcomeAlike (S ∪ {a | a ∈ f.writes}) (memoryPhase f effect s) (memoryPhase f effect s') := by
  simp only [Machine.memoryPhase, h.platform]
  split_ifs
  · exact .refused _
  · exact .next (Alike.finishOk ⟨h.regs, h.status, rfl, h.draws, heffect⟩)
  · exact .next ((h.drawBytes hf).raiseError _)

/-! ### Each command -/

theorem Alike.exec_transform (h : Alike S s s') (hs : s.status.fatal = false)
    (hreads : ∀ a ∈ (footprint .transform s).reads, a ∈ S) :
    OutcomeAlike (S ∪ {a | a ∈ (footprint .transform s).writes}) (exec .transform s) (exec .transform s') := by
  rw [execTransform_live hs, execTransform_live (by rwa [h.status]), h.transformChecks, h.regs]
  refine (h.setLastOp 0x04).checkedBody _ (fun hc => ?_) fun hc =>
    (h.setLastOp 0x04).latchMasks _ _ _ (fun hi => ?_) fun hi => ?_
  · simp [footprint_transform_rejected hc, Footprint.empty]
  · simp [footprint_transform_invariant hi, Footprint.empty]
  · have hadm := (transformChecks_none_iff s).1 hc
    rw [footprint_transform_live hs hc hi] at hreads ⊢
    simp only [transformJob_withMasks, transformJob_setLastOp, h.transformJob]
    have hlatched := (h.setLastOp 0x04).withMasks s.regs.width.toNat s.regs.height.toNat 1
    exact hlatched.memoryPhase hadm.writes_lt (hlatched.mem.copyAll _ hreads hadm.writes_lt)

theorem Alike.exec_buildHeader (h : Alike S s s') (hs : s.status.fatal = false) :
    OutcomeAlike (S ∪ {a | a ∈ (footprint .buildHeader s).writes}) (exec .buildHeader s) (exec .buildHeader s') := by
  rw [execBuildHeader_live hs, execBuildHeader_live (by rwa [h.status]), h.headerChecks, h.headerTotal]
  refine (h.setLastOp 0x05).checkedBody _ (fun hc => ?_) fun hc => ?_
  · simp [footprint_buildHeader_rejected hc, Footprint.empty]
  · have htop := ((headerChecks_none_iff s).1 hc).top
    rw [footprint_buildHeader_live hs hc, (h.setLastOp 0x05).headerFootprint]
    simp only [setLastOp_regs, h.regs]
    refine ((h.setLastOp 0x05).withRegs _).memoryPhase (f := Machine.headerFootprint s) (fun a ha => ?_) ?_
    · obtain ⟨-, hlt⟩ := mem_headerFootprint_writes.1 ha
      exact hlt.trans_le htop
    · simp only [mem_headerFootprint_writes]
      exact h.mem.writeHeader _ htop

/-- R2: alike states stay alike through a command if they agree in the bytes it reads, and then agree in the bytes it
writes too. -/
theorem Alike.exec (h : Alike S s s') (i : Instr) (hreads : ∀ a ∈ (footprint i s).reads, a ∈ S) :
    OutcomeAlike (S ∪ {a | a ∈ (footprint i s).writes}) (exec i s) (exec i s') := by
  cases hs : s.status.fatal with
  | true =>
    rw [exec_halted i hs, exec_halted i (by rwa [h.status]), footprint_halted i hs]
    exact .next ((h.withOutcome _ _).mono (by simp [Footprint.empty]))
  | false =>
    have hs' : s'.status.fatal = false := by rwa [h.status]
    cases i with
    | transform => exact h.exec_transform hs hreads
    | buildHeader => exact h.exec_buildHeader hs
    | nop =>
      rw [execNop_live hs, execNop_live hs']
      exact .next ((h.withOutcome _ _).mono (by simp [footprint, Footprint.empty]))
    | permutePixel =>
      rw [execPermutePixel_live hs, execPermutePixel_live hs', h.regs]
      exact .next (((h.withOutcome _ _).withRegs _).mono (by simp [footprint, Footprint.empty]))
    | genMasks =>
      have hnone : S ∪ {a | a ∈ (footprint .genMasks s).writes} ⊆ S := by simp [footprint, Footprint.empty]
      rw [execGenMasks_live hs, execGenMasks_live hs', h.regs]
      exact (h.setLastOp 0x01).checkedBody _ (fun _ => hnone) fun _ =>
        (h.setLastOp 0x01).latchMasks _ _ _ (fun _ => hnone) fun _ =>
          .next ((((h.setLastOp 0x01).withMasks _ _ _).finishOk).mono hnone)
    | calcAddr =>
      have hnone : S ∪ {a | a ∈ (footprint .calcAddr s).writes} ⊆ S := by simp [footprint, Footprint.empty]
      rw [execCalcAddr_live hs, execCalcAddr_live hs', h.calcAddrChecks]
      exact (h.setLastOp 0x02).checkedBody _ (fun _ => hnone) fun _ =>
        .next ((h.setLastOp 0x02).writeOffsets.finishOk.mono hnone)

end

/-- Settles O46: the two states are alike in the bytes the command reads, so they end alike. -/
theorem commandsDependOnlyOnWhatTheyRead : Obligations.CommandsDependOnlyOnWhatTheyRead := by
  unfold Obligations.CommandsDependOnlyOnWhatTheyRead
  intro i s s' t hwf hwf' hregs hstatus hplatform hdraws hreads hexec
  have h : Alike {a | a ∈ (footprint i s).reads} s s' := ⟨hregs, hstatus, hplatform, hdraws, hwf, hwf', hreads⟩
  obtain ⟨t', hexec', ht⟩ := (h.exec i fun _ ha => ha).of_next hexec
  exact ⟨t', hexec', ht.regs, ht.status, fun a ha => ht.mem.read a (.inr ha)⟩

end Sys2Proof.Machine
end

section
/-!
PROOFS. O6, LAST_OP (10_state.md R23): a command ends with LAST_OP as R77 set it, however it ends, and the low byte of
a legal word is its command's opcode.
-/

namespace Sys2Proof.Machine

open Host (Outcome)

/-- A legal word's OPC field is the opcode of the command it selects. -/
theorem opcode_of_decodeWord {w : Word} {i : Instr} (h : decodeWord w = .ok i) : i.opcode = w.extractLsb 7 0 := by
  unfold decodeWord at h
  split at h
  · cases h
  · split at h <;> cases h
    all_goals exact BitVec.eq_of_toNat_eq (Eq.symm ‹_›)

/-- Every next state of the outcome has `op` in LAST_OP. -/
def LeavesLastOp (op : Byte) (o : Outcome State Fault Refusal) : Prop := ∀ t, o = .next t → t.status.lastOp = op

section
variable {op : Byte} {s : State} {rest : State → Outcome State Fault Refusal}

theorem leavesLastOp_next (h : s.status.lastOp = op) : LeavesLastOp op (.next s) := by
  rintro _ ⟨⟩
  exact h

theorem leavesLastOp_checkedBody (checks : List (Bool × ErrCode)) (hs : s.status.lastOp = op)
    (hrest : LeavesLastOp op (rest s)) : LeavesLastOp op (checkedBody checks rest s) := by
  rcases checkedBody_cases checks rest s with ⟨c, -, h⟩ | ⟨-, h⟩ <;> rw [h]
  · exact leavesLastOp_next hs
  · exact hrest

theorem leavesLastOp_latchMasks (w h d : Nat) (hs : s.status.lastOp = op)
    (hrest : LeavesLastOp op (rest (withMasks w h d s))) : LeavesLastOp op (latchMasks w h d rest s) := by
  rcases latchMasks_cases w h d rest s with ⟨-, h⟩ | ⟨-, h⟩ <;> rw [h]
  · exact hrest
  · exact leavesLastOp_next hs

theorem leavesLastOp_memoryPhase (f : Footprint) (effect : Memory → Memory) (hs : s.status.lastOp = op) :
    LeavesLastOp op (memoryPhase f effect s) := by
  rcases memoryPhase_cases f effect s with ⟨-, h⟩ | ⟨-, h⟩ | ⟨-, -, h⟩ <;> rw [h]
  · rintro _ ⟨⟩
  · exact leavesLastOp_next hs
  · exact leavesLastOp_next hs

end

/-- R23 for a legal word: a command ends with its opcode in LAST_OP. -/
theorem leavesLastOp_exec (i : Instr) (s : State) : LeavesLastOp i.opcode (exec i s) := by
  cases hs : s.status.fatal with
  | true => rw [exec_halted i hs]; exact leavesLastOp_next rfl
  | false =>
    cases i with
    | nop => rw [execNop_live hs]; exact leavesLastOp_next rfl
    | permutePixel => rw [execPermutePixel_live hs]; exact leavesLastOp_next rfl
    | genMasks =>
      rw [execGenMasks_live hs]
      exact leavesLastOp_checkedBody _ rfl (leavesLastOp_latchMasks _ _ _ rfl (leavesLastOp_next rfl))
    | calcAddr =>
      rw [execCalcAddr_live hs]
      exact leavesLastOp_checkedBody _ rfl (leavesLastOp_next rfl)
    | transform =>
      rw [execTransform_live hs]
      exact leavesLastOp_checkedBody _ rfl (leavesLastOp_latchMasks _ _ _ rfl (leavesLastOp_memoryPhase _ _ rfl))
    | buildHeader =>
      rw [execBuildHeader_live hs]
      exact leavesLastOp_checkedBody _ rfl (leavesLastOp_memoryPhase _ _ rfl)

/-- R23 for an illegal word (R80), halted or not. -/
theorem leavesLastOp_illegalCommand (w : Word) (s : State) :
    LeavesLastOp (w.extractLsb 7 0) (illegalCommand w s) := by
  unfold illegalCommand
  cases hs : s.status.fatal with
  | true => rw [runCommand_halted hs]; exact leavesLastOp_next rfl
  | false => rw [runCommand_live hs]; exact leavesLastOp_next rfl

theorem leavesLastOp_commandWrite (w : Word) (s : State) : LeavesLastOp (w.extractLsb 7 0) (commandWrite w s) := by
  unfold commandWrite
  split
  next i hw => exact opcode_of_decodeWord hw ▸ leavesLastOp_exec i s
  next => exact leavesLastOp_illegalCommand w s

/-- Settles O6: a CMD write's step is its `commandWrite`, legal word or not. -/
theorem lastOpShowsEveryCommandWord : Obligations.LastOpShowsEveryCommandWord := by
  unfold Obligations.LastOpShowsEveryCommandWord
  intro s t w rest hin hstep
  rw [step_cmdWrite hin] at hstep
  exact leavesLastOp_commandWrite w _ t hstep

end Sys2Proof.Machine
end

section
/-!
PROOFS. O53, the reset values (10_state.md R38): what a host reads once registers and STATUS hold their reset values.
-/

namespace Sys2Proof.Machine

@[simp] theorem Status.word_reset : Status.reset.word = 0 := by decide

/-- R38 as a host sees it: in a state with the reset registers and STATUS every register reads 0. -/
theorem readReg_of_reset {s : State} (hregs : s.regs = Regs.reset) (hstatus : s.status = Status.reset) (r : Reg) :
    readReg r s = 0 := by
  cases r with
  | status => rw [readReg, hstatus, Status.word_reset]
  | _ => simp only [readReg, hregs] <;> rfl

theorem step_reset {s : State} {rest : List Event} (h : s.input = .reset :: rest) :
    step s = .next (applyReset (afterFetch s rest)) := by
  rw [step_of_input h, handleEvent]

/-- Settles O53: the reset state and every state after the reset input hold the reset registers and STATUS. -/
theorem resetClearsEveryRegister : Obligations.ResetClearsEveryRegister := by
  unfold Obligations.ResetClearsEveryRegister
  refine ⟨readReg_of_reset rfl rfl, fun s rest hin => ?_⟩
  exact ⟨_, step_reset hin, readReg_of_reset rfl rfl, rfl, rfl, rfl, rfl, rfl, rfl⟩

end Sys2Proof.Machine
end

section
/-!
PROOFS. O37, the order of accesses (20_memory.md R55): what a list of byte writes leaves, and that every order of the
moves, of the single accesses and of the header's writes leaves just that.
-/

namespace Sys2Proof.Machine

/-! ### Memory with a list of bytes written -/

/-- `m'` is `m` with the listed bytes written, in whatever order. -/
structure Memory.WrittenBy (ws : List (Nat × Byte)) (m m' : Memory) : Prop where
  wf : m'.Wf
  written : ∀ p ∈ ws, m'.read p.1 = p.2
  kept : SameOutside (ws.map Prod.fst) m m'

theorem Memory.WrittenBy.unique {ws : List (Nat × Byte)} {m m₁ m₂ : Memory} (h₁ : WrittenBy ws m m₁)
    (h₂ : WrittenBy ws m m₂) : m₁ = m₂ := by
  refine ext_read h₁.wf h₂.wf fun x => ?_
  by_cases hx : x ∈ ws.map Prod.fst
  · obtain ⟨p, hp, rfl⟩ := List.mem_map.1 hx
    rw [h₁.written p hp, h₂.written p hp]
  · rw [h₁.kept x hx, h₂.kept x hx]

theorem Memory.WrittenBy.perm {ws ws' : List (Nat × Byte)} {m m' : Memory} (h : WrittenBy ws m m')
    (hws : ws.Perm ws') : WrittenBy ws' m m' :=
  ⟨h.wf, fun p hp => h.written p (hws.mem_iff.2 hp), fun x hx => h.kept x (mt (hws.map _).mem_iff.1 hx)⟩

/-- Byte writes inside the memory space, of which no two put different bytes at one address. -/
def Writable (ws : List (Nat × Byte)) : Prop :=
  ∀ p ∈ ws, p.1 < Config.memSpace ∧ ∀ q ∈ ws, q.1 = p.1 → q.2 = p.2

theorem Writable.perm {ws ws' : List (Nat × Byte)} (h : Writable ws) (hws : ws.Perm ws') : Writable ws' := by
  simpa only [Writable, hws.mem_iff] using h

theorem Writable.writeBytes {ws : List (Nat × Byte)} (hws : Writable ws) {m : Memory} (hm : m.Wf) :
    m.WrittenBy ws (writeBytes ws m) := by
  induction ws generalizing m with
  | nil => exact ⟨hm, by simp, fun _ _ => rfl⟩
  | cons p ws ih =>
    obtain ⟨hlt, hsame⟩ := hws p (by simp)
    have hrest := ih (fun q hq => ⟨(hws q (by simp [hq])).1, fun r hr => (hws q (by simp [hq])).2 r (by simp [hr])⟩)
      (Memory.write_wf hm hlt p.2)
    refine ⟨hrest.wf, List.forall_mem_cons.2 ⟨?_, hrest.written⟩, fun x hx => ?_⟩
    · by_cases hp : p.1 ∈ ws.map Prod.fst
      · obtain ⟨q, hq, haddr⟩ := List.mem_map.1 hp
        rw [← hsame q (by simp [hq]) haddr, ← haddr]
        exact hrest.written q hq
      · exact (hrest.kept _ hp).trans (Memory.read_write_same hm _ _)
    · rw [List.map_cons, List.mem_cons, not_or] at hx
      exact (hrest.kept x hx.2).trans (Memory.read_write_ne hm _ hx.1)

/-! ### Byte moves -/

/-- The byte writes that moves amount to when each takes its byte from `m`. -/
def fetched (m : Memory) (ms : List (Nat × Nat)) : List (Nat × Byte) := ms.map fun p => (p.2, m.read p.1)

@[simp] theorem map_fst_fetched (m : Memory) (ms : List (Nat × Nat)) :
    (fetched m ms).map Prod.fst = ms.map Prod.snd := by
  simp [fetched]

/-- R110 for byte moves: they write inside the memory space, no byte is written by two of them, and none is both read
and written. -/
structure MovesApart (ms : List (Nat × Nat)) : Prop where
  lt : ∀ p ∈ ms, p.2 < Config.memSpace
  once : ∀ p ∈ ms, ∀ q ∈ ms, p.2 = q.2 → p = q
  apart : ∀ p ∈ ms, p.1 ∉ ms.map Prod.snd

theorem MovesApart.perm {ms ms' : List (Nat × Nat)} (h : MovesApart ms) (hms : ms.Perm ms') : MovesApart ms' := by
  obtain ⟨hlt, honce, hapart⟩ := h
  exact ⟨by simpa only [hms.mem_iff] using hlt, by simpa only [hms.mem_iff] using honce,
    by simpa only [hms.mem_iff, (hms.map Prod.snd).mem_iff] using hapart⟩

theorem MovesApart.writable {ms : List (Nat × Nat)} (h : MovesApart ms) (m : Memory) : Writable (fetched m ms) := by
  simp only [Writable, fetched, List.forall_mem_map]
  exact fun p hp => ⟨h.lt p hp, fun q hq haddr => by rw [h.once q hq p hp haddr]⟩

/-- A move that writes no byte which later moves read leaves them the bytes they would have found before it. -/
theorem fetched_write {m : Memory} (hm : m.Wf) {ms : List (Nat × Nat)} {a : Nat} (b : Byte)
    (ha : ∀ p ∈ ms, p.1 ≠ a) : fetched (m.write a b) ms = fetched m ms :=
  List.map_congr_left fun p hp => by rw [Memory.read_write_ne hm b (ha p hp)]

theorem moveBytes_eq_writeBytes {ms : List (Nat × Nat)} (hlt : ∀ p ∈ ms, p.2 < Config.memSpace)
    (hapart : ∀ p ∈ ms, p.1 ∉ ms.map Prod.snd) {m : Memory} (hm : m.Wf) :
    moveBytes ms m = writeBytes (fetched m ms) m := by
  induction ms generalizing m with
  | nil => rfl
  | cons p ms ih =>
    rw [List.forall_mem_cons] at hlt
    have hp : ∀ q ∈ ms, q.1 ≠ p.2 := fun q hq h => hapart q (by simp [hq]) (by simp [h])
    have hrest := ih hlt.2 (fun q hq h => hapart q (by simp [hq]) (by simp_all))
      (Memory.write_wf hm hlt.1 (m.read p.1))
    rwa [fetched_write hm _ hp] at hrest

theorem MovesApart.moveBytes {ms : List (Nat × Nat)} (h : MovesApart ms) {m : Memory} (hm : m.Wf) :
    m.WrittenBy (fetched m ms) (moveBytes ms m) := by
  rw [moveBytes_eq_writeBytes h.lt h.apart hm]
  exact (h.writable m).writeBytes hm

/-! ### Single accesses -/

/-- Where a new access completes a read before its write. -/
theorem load_store_sublist_concat {p : Nat × Nat} {l : List ByteAccess} {a : ByteAccess} :
    [.load p, .store p].Sublist (l ++ [a]) ↔
      [.load p, .store p].Sublist l ∨ .load p ∈ l ∧ a = .store p := by
  rw [List.sublist_append_iff]
  constructor
  · rintro ⟨l₁, l₂, happ, h₁, h₂⟩
    rcases List.sublist_singleton.1 h₂ with rfl | rfl
    · exact .inl (by simpa [happ] using h₁)
    · obtain ⟨rfl, ha⟩ := List.append_inj' (show [ByteAccess.load p] ++ [.store p] = l₁ ++ [a] from happ) rfl
      exact .inr ⟨List.singleton_sublist.1 h₁, by simpa using ha.symm⟩
  · rintro (h | ⟨h, rfl⟩)
    · exact ⟨_, [], by simp, h, by simp⟩
    · exact ⟨[.load p], [.store p], rfl, List.singleton_sublist.2 h, List.Sublist.refl _⟩

/-- What the accesses `l` of the moves `ms` have done to memory `m`: each byte read is held as it was in `m`, and each
move whose read came before its write is made. -/
structure AccessRun.Follows (ms : List (Nat × Nat)) (m : Memory) (l : List ByteAccess) (r : AccessRun) : Prop where
  wf : r.mem.Wf
  held : ∀ p, r.held.lookup p = if .load p ∈ l then some (m.read p.1) else none
  moved : ∀ p ∈ ms, [.load p, .store p].Sublist l → r.mem.read p.2 = m.read p.1
  kept : SameOutside (ms.map Prod.snd) m r.mem

section
variable {ms : List (Nat × Nat)} {m : Memory} {l : List ByteAccess} {r : AccessRun}

theorem AccessRun.Follows.load (h : r.Follows ms m l) (hms : MovesApart ms) {p : Nat × Nat} (hp : p ∈ ms) :
    ((ByteAccess.load p).perform r).Follows ms m (l ++ [.load p]) := by
  refine ⟨h.wf, fun q => ?_, fun q hq hsub => ?_, h.kept⟩
  · rw [ByteAccess.perform_load_held, List.lookup_cons, h.held, h.kept _ (hms.apart p hp)]
    by_cases hqp : q = p
    · simp [hqp]
    · simp [hqp, beq_false_of_ne hqp]
  · exact h.moved q hq ((load_store_sublist_concat.1 hsub).resolve_right (by simp))

theorem AccessRun.Follows.store (h : r.Follows ms m l) (hms : MovesApart ms) {p : Nat × Nat} (hp : p ∈ ms) :
    ((ByteAccess.store p).perform r).Follows ms m (l ++ [.store p]) := by
  by_cases hload : .load p ∈ l
  · have hheld : r.held.lookup p = some (m.read p.1) := by rw [h.held, if_pos hload]
    rw [ByteAccess.perform_store_of_held hheld]
    refine ⟨Memory.write_wf h.wf (hms.lt p hp) _, fun q => by simpa using h.held q, fun q hq hsub => ?_,
      fun x hx => ?_⟩
    · rw [Memory.read_write h.wf]
      split_ifs with haddr
      · rw [hms.once q hq p hp haddr]
      · refine h.moved q hq ((load_store_sublist_concat.1 hsub).resolve_right fun ⟨_, heq⟩ => haddr ?_)
        cases heq
        rfl
    · have hne : x ≠ p.2 := fun hxp => hx (List.mem_map.2 ⟨p, hp, hxp.symm⟩)
      exact (Memory.read_write_ne h.wf _ hne).trans (h.kept x hx)
  · have hheld : r.held.lookup p = none := by rw [h.held, if_neg hload]
    have hnothing : (ByteAccess.store p).perform r = r := by simp only [ByteAccess.perform, hheld]
    rw [hnothing]
    refine ⟨h.wf, fun q => by simpa using h.held q, fun q hq hsub => ?_, h.kept⟩
    refine h.moved q hq ((load_store_sublist_concat.1 hsub).resolve_right fun ⟨hq', heq⟩ => hload ?_)
    cases heq
    exact hq'

end

/-- Accesses of moves that are apart, in any order and number. -/
theorem MovesApart.follows {ms : List (Nat × Nat)} (hms : MovesApart ms) {m : Memory} (hm : m.Wf)
    {l : List ByteAccess} (hl : ∀ a ∈ l, ∃ p ∈ ms, a = .load p ∨ a = .store p) :
    (l.foldl (fun r (a : ByteAccess) => a.perform r) { mem := m, held := [] }).Follows ms m l := by
  induction l using List.reverseRecOn with
  | nil => exact ⟨hm, by simp, by simp, fun _ _ => rfl⟩
  | append_singleton l a ih =>
    have hrun := ih fun b hb => hl b (by simp [hb])
    rw [List.foldl_append, List.foldl_cons, List.foldl_nil]
    obtain ⟨p, hp, rfl | rfl⟩ := hl a (by simp)
    · exact hrun.load hms hp
    · exact hrun.store hms hp

/-- R55: every order of the single accesses makes the moves. -/
theorem MovesApart.runAccesses {ms : List (Nat × Nat)} (hms : MovesApart ms) {m : Memory} (hm : m.Wf)
    {l : List ByteAccess} (hl : AccessOrder ms l) : m.WrittenBy (fetched m ms) (runAccesses l m) := by
  have hrun := hms.follows hm (l := l) fun a ha => by
    simpa using hl.once.mem_iff.1 ha
  refine ⟨hrun.wf, ?_, (map_fst_fetched m ms).symm ▸ hrun.kept⟩
  simp only [fetched, List.forall_mem_map]
  exact fun p hp => hrun.moved p hp (hl.readFirst p hp)

end Sys2Proof.Machine
end

section
/-!
PROOFS. The masks the generator makes do not meet, whatever the extents (41_morton_order_encoder.md R88), so Gather
finds every coordinate in its Morton index again (R94, R96).
-/

namespace Sys2Proof.Machine

/-- The generator has given each of the lowest `c` bits to one axis and no bit above them to any. -/
structure MaskGen.Shares (g : MaskGen) (c : Nat) : Prop where
  cursor : g.cursor = 2 ^ c
  owner : ∀ p, p < c → ∃ a, ∀ a', (g.mask a').testBit p = decide (a' = a)
  above : ∀ p, c ≤ p → ∀ a, (g.mask a).testBit p = false

theorem MaskGen.shares_start : MaskGen.start.Shares 0 where
  cursor := rfl
  owner p hp := by omega
  above p _ a := by cases a <;> exact Nat.zero_testBit p

theorem MaskGen.Shares.withBit {g : MaskGen} {c : Nat} (h : g.Shares c) (k : Nat) :
    ({ g with bit := k } : MaskGen).Shares c :=
  ⟨h.cursor, by simpa only [mask_withBit] using h.owner, by simpa only [mask_withBit] using h.above⟩

theorem MaskGen.Shares.testBit_take {g : MaskGen} {c : Nat} (h : g.Shares c) (a a' : Axis) (p : Nat) :
    ((g.take a).mask a').testBit p = ((g.mask a').testBit p || (decide (a' = a) && decide (c = p))) := by
  rw [take_mask, h.cursor]
  split_ifs with ha <;> simp [ha, Nat.testBit_or, Nat.testBit_two_pow]

/-- The axis whose turn it is becomes the owner of the cursor's bit. -/
theorem MaskGen.Shares.take {g : MaskGen} {c : Nat} (h : g.Shares c) (a : Axis) : (g.take a).Shares (c + 1) := by
  refine ⟨?_, fun p hp => ?_, fun p hp a' => ?_⟩
  · rw [take_cursor, h.cursor, Nat.shiftLeft_eq, pow_one, ← pow_succ]
  · by_cases hpc : p < c
    · obtain ⟨b, hb⟩ := h.owner p hpc
      exact ⟨b, fun a' => by rw [h.testBit_take, hb]; simp [show c ≠ p by omega]⟩
    · exact ⟨a, fun a' => by rw [h.testBit_take, h.above p (by omega)]; simp [show c = p by omega]⟩
  · rw [h.testBit_take, h.above p (by omega)]
    simp [show c ≠ p by omega]

theorem genMasks_shares (w h d : Nat) : ∃ c, (genMasks w h d).Shares c :=
  maskRounds_induct (fun g => ∃ c, g.Shares c) (fun _ k ⟨c, hc⟩ => ⟨c, hc.withBit k⟩)
    (fun _ a ⟨c, hc⟩ => ⟨c + 1, hc.take a⟩) w h d 33 ⟨0, MaskGen.shares_start⟩

/-- No bit belongs to two axes. -/
theorem MaskGen.Shares.axis_unique {g : MaskGen} {c : Nat} (h : g.Shares c) {a a' : Axis} {p : Nat}
    (ha : (g.mask a).testBit p = true) (ha' : (g.mask a').testBit p = true) : a' = a := by
  by_cases hp : p < c
  · obtain ⟨b, hb⟩ := h.owner p hp
    rw [hb, decide_eq_true_eq] at ha ha'
    rw [ha, ha']
  · rw [h.above p (by omega)] at ha
    cases ha

/-- R88: the generator's postcondition holds for all extents. -/
theorem genMasks_invariant (w h d : Nat) : (genMasks w h d).invariant = true := by
  obtain ⟨c, hc⟩ := genMasks_shares w h d
  rw [MaskGen.invariant, beq_iff_eq, hc.cursor]
  refine Nat.eq_of_testBit_eq fun p => ?_
  rw [Nat.testBit_xor, Nat.testBit_xor, Nat.testBit_two_pow_sub_one]
  by_cases hp : p < c
  · obtain ⟨a, ha⟩ := hc.owner p hp
    have hx := ha .x
    have hy := ha .y
    have hz := ha .z
    simp only [MaskGen.mask] at hx hy hz
    rw [hx, hy, hz]
    cases a <;> simp [hp]
  · have hx := hc.above p (by omega) .x
    have hy := hc.above p (by omega) .y
    have hz := hc.above p (by omega) .z
    simp only [MaskGen.mask] at hx hy hz
    simp [hx, hy, hz, hp]

/-! ### The Morton index -/

/-- R91 on the generator's masks, the coordinate given by axis. -/
def MaskGen.index (g : MaskGen) (v : Axis → Nat) : Nat := morton g.mx g.my g.mz (v .x) (v .y) (v .z)

theorem testBit_index (g : MaskGen) (v : Axis → Nat) (p : Nat) :
    (g.index v).testBit p = true ↔ ∃ a, (scatter (g.mask a) (v a)).testBit p = true := by
  simp only [MaskGen.index, morton, Nat.testBit_or, Bool.or_eq_true]
  constructor
  · rintro ((h | h) | h)
    exacts [⟨.x, h⟩, ⟨.y, h⟩, ⟨.z, h⟩]
  · rintro ⟨a, h⟩
    cases a
    exacts [.inl (.inl h), .inl (.inr h), .inr h]

/-- Gather along one axis sees only what that axis scattered. -/
theorem MaskGen.Shares.gather_index {g : MaskGen} {c : Nat} (h : g.Shares c) (v : Axis → Nat) (a : Axis) :
    gather (g.mask a) (g.index v) = gather (g.mask a) (scatter (g.mask a) (v a)) := by
  have hbit : ∀ p, (g.mask a).testBit p = true →
      ((g.index v).testBit p = true ↔ (scatter (g.mask a) (v a)).testBit p = true) := fun p hp => by
    rw [testBit_index]
    refine ⟨fun ⟨a', ha'⟩ => ?_, fun hs => ⟨a, hs⟩⟩
    have hmask : (g.mask a').testBit p = true := by
      rw [testBit_scatter] at ha'
      simp_all
    rwa [h.axis_unique hp hmask] at ha'
  refine Nat.eq_of_testBit_eq fun i => Bool.eq_iff_iff.2 ?_
  rw [testBit_gather, testBit_gather]
  exact exists_congr fun p => and_congr_right fun _ => and_congr_right fun hp => and_congr_right fun _ => hbit p hp

/-- Gather undoes Scatter on a value with no more bits than the mask. -/
theorem gather_scatter {mask v : Nat} (hv : v < 2 ^ popcount mask) : gather mask (scatter mask v) = v := by
  refine Nat.eq_of_testBit_eq fun i => Bool.eq_iff_iff.2 ?_
  rw [testBit_gather_scatter]
  refine ⟨And.left, fun hi => ⟨hi, lt_of_not_ge fun hle => ?_⟩⟩
  rw [Nat.testBit_lt_two_pow (hv.trans_le (Nat.pow_le_pow_right (by omega) hle))] at hi
  cases hi

/-- R96: Gather along an axis finds its coordinate again. -/
theorem gather_genMasks_index {w h d : Nat} (hd : DimsAdmitted w h d) (v : Axis → Nat) {a : Axis}
    (hv : v a < extent w h d a) : gather ((genMasks w h d).mask a) ((genMasks w h d).index v) = v a := by
  obtain ⟨c, hc⟩ := genMasks_shares w h d
  rw [hc.gather_index, gather_scatter]
  rw [popcount_genMasks_mask hd]
  exact hv.trans_le (le_two_pow_clog2 _)

/-- R94: coordinates of an admitted image with the same index are the same. -/
theorem genMasks_index_inj {w h d : Nat} (hd : DimsAdmitted w h d) {v v' : Axis → Nat}
    (hv : ∀ a, v a < extent w h d a) (hv' : ∀ a, v' a < extent w h d a)
    (heq : (genMasks w h d).index v = (genMasks w h d).index v') : v = v' :=
  funext fun a => by rw [← gather_genMasks_index hd v (hv a), heq, gather_genMasks_index hd v' (hv' a)]

end Sys2Proof.Machine
end

section
/-!
PROOFS. O37, the two memory phases as byte moves and byte writes: TRANSFORM's moves are apart (R110), and each phase
leaves memory with just its bytes written.
-/

namespace Sys2Proof.Machine

/-! ### The bytes of an admitted TRANSFORM -/

theorem mem_coords {w h : Nat} {c : Nat × Nat} : c ∈ coords w h ↔ c.1 < w ∧ c.2 < h := by
  obtain ⟨x, y⟩ := c
  simp [coords, and_comm]

theorem coords_nodup (w h : Nat) : (coords w h).Nodup := by
  refine List.nodup_flatMap.2 ⟨fun y _ => List.nodup_range.map fun x x' h => (Prod.mk.inj h).1, ?_⟩
  refine List.nodup_range.pairwise_of_forall_ne fun y _ y' _ hne => ?_
  simp only [Function.onFun, List.disjoint_left, List.mem_map, not_exists, not_and]
  rintro _ ⟨x, -, rfl⟩ x' - heq
  exact hne (Prod.mk.inj heq).2.symm

theorem pixelBytes_nodup (a : Nat) : (pixelBytes a).Nodup := List.nodup_range.map fun _ _ h => by simpa using h

/-- R91 on an image of depth 1: the Morton index has no z term. -/
@[simp] theorem scatter_zero (mask : Nat) : scatter mask 0 = 0 :=
  Nat.eq_of_testBit_eq fun p => by simp [testBit_scatter]

/-- The coordinate of a pixel, by axis. -/
def pixelCoord (c : Nat × Nat) : Axis → Nat
  | .x => c.1
  | .y => c.2
  | .z => 0

@[simp] theorem transformJob_width (s : State) : (transformJob s).width = s.regs.width.toNat := rfl
@[simp] theorem transformJob_height (s : State) : (transformJob s).height = s.regs.height.toNat := rfl
@[simp] theorem transformJob_pitch (s : State) : (transformJob s).pitch = s.regs.rowPitch.toNat := rfl
@[simp] theorem transformJob_src (s : State) : (transformJob s).src = s.regs.srcBase.toNat := rfl

theorem index_pixelCoord (g : MaskGen) (c : Nat × Nat) :
    g.index (pixelCoord c) = scatter g.mx c.1 ||| scatter g.my c.2 := by
  simp [MaskGen.index, morton, pixelCoord]

/-- R50 for the bytes an admitted TRANSFORM reads: they lie in the source region. -/
theorem TransformAdmitted.reads_region {s : State} (h : TransformAdmitted s) {a : Nat}
    (ha : a ∈ (transformJob s).footprint.reads) :
    s.regs.srcBase.toNat ≤ a ∧ a < s.regs.srcBase.toNat + s.regs.bufLen.toNat := by
  obtain ⟨⟨x, y⟩, hc, ha⟩ := List.mem_flatMap.1 ha
  obtain ⟨hx, hy⟩ := mem_coords.1 hc
  obtain ⟨hlo, hhi⟩ := mem_pixelBytes.1 ha
  have hrow : y * s.regs.rowPitch.toNat ≤ (s.regs.height.toNat - 1) * s.regs.rowPitch.toNat :=
    Nat.mul_le_mul_right _ (by simp only [transformJob_height] at hy; omega)
  have hlen := h.srcLen
  simp only [srcPixelAddr, Config.bytesPerPixel, transformJob_src, transformJob_pitch] at hlo hhi
  simp only [transformJob_width] at hx
  omega

/-- R50 for the bytes it writes: they lie in the destination region. -/
theorem TransformAdmitted.writes_region {s : State} (h : TransformAdmitted s) {a : Nat}
    (ha : a ∈ (transformJob s).footprint.writes) :
    s.regs.dstBase.toNat ≤ a ∧ a < s.regs.dstBase.toNat + s.regs.bufLen.toNat := by
  obtain ⟨c, -, ha⟩ := List.mem_flatMap.1 ha
  obtain ⟨hlo, hhi⟩ := mem_pixelBytes.1 ha
  have hindex := h.index_lt c.1 c.2
  have hlen := h.dstLen
  rw [mul_assoc] at hlen
  simp only [dstPixelAddr, Config.bytesPerPixel, transformJob_dst] at hlo hhi
  omega

/-- R110: no byte is both read and written. -/
theorem TransformAdmitted.reads_not_written {s : State} (h : TransformAdmitted s) {a : Nat}
    (ha : a ∈ (transformJob s).footprint.reads) : a ∉ (transformJob s).footprint.writes := fun ha' => by
  have := h.reads_region ha
  have := h.writes_region ha'
  have := h.apart
  omega

/-- R94 on an admitted image: distinct pixels have distinct indices. -/
theorem TransformAdmitted.index_inj {s : State} (h : TransformAdmitted s) {c c' : Nat × Nat}
    (hc : c ∈ coords s.regs.width.toNat s.regs.height.toNat)
    (hc' : c' ∈ coords s.regs.width.toNat s.regs.height.toNat)
    (heq : scatter (transformJob s).mx c.1 ||| scatter (transformJob s).my c.2 =
      scatter (transformJob s).mx c'.1 ||| scatter (transformJob s).my c'.2) : c = c' := by
  have hin : ∀ {c}, c ∈ coords s.regs.width.toNat s.regs.height.toNat →
      ∀ a, pixelCoord c a < extent s.regs.width.toNat s.regs.height.toNat 1 a := fun hc a => by
    obtain ⟨hx, hy⟩ := mem_coords.1 hc
    cases a
    exacts [hx, hy, Nat.one_pos]
  have hcoord : pixelCoord c = pixelCoord c' :=
    genMasks_index_inj h.dims (hin hc) (hin hc') (by rwa [index_pixelCoord, index_pixelCoord])
  exact Prod.ext (congrFun hcoord .x) (congrFun hcoord .y)

/-- R110: no byte is written twice. -/
theorem TransformAdmitted.writes_nodup {s : State} (h : TransformAdmitted s) :
    (transformJob s).footprint.writes.Nodup := by
  refine List.nodup_flatMap.2 ⟨fun c _ => pixelBytes_nodup _, ?_⟩
  refine (coords_nodup _ _).pairwise_of_forall_ne fun c hc c' hc' hne => ?_
  simp only [Function.onFun, List.disjoint_left, mem_pixelBytes, dstPixelAddr, Config.bytesPerPixel]
  intro a ha ha'
  exact hne (h.index_inj hc hc' (by omega))

/-! ### CopyAll as byte moves -/

/-- The four moves of one pixel, as `CopyJob.moves` lists them. -/
def pixelMoves (s d : Nat) : List (Nat × Nat) := [(s + 2, d), (s + 1, d + 1), (s, d + 2), (s + 3, d + 3)]

theorem CopyJob.moves_eq (j : CopyJob) : j.moves = (coords j.width j.height).flatMap fun c =>
    pixelMoves (srcPixelAddr j.src j.pitch c.1 c.2) (dstPixelAddr j.dst j.mx j.my c.1 c.2) := rfl

theorem CopyJob.map_snd_moves (j : CopyJob) : j.moves.map Prod.snd = j.footprint.writes :=
  List.map_flatMap

theorem CopyJob.mem_reads_of_mem_moves {j : CopyJob} {p : Nat × Nat} (hp : p ∈ j.moves) :
    p.1 ∈ j.footprint.reads := by
  rw [moves_eq] at hp
  obtain ⟨c, hc, hp⟩ := List.mem_flatMap.1 hp
  refine List.mem_flatMap.2 ⟨c, hc, mem_pixelBytes.2 ?_⟩
  simp only [pixelMoves, List.mem_cons, List.not_mem_nil, or_false] at hp
  rcases hp with rfl | rfl | rfl | rfl <;> simp

theorem TransformAdmitted.movesApart {s : State} (h : TransformAdmitted s) : MovesApart (transformJob s).moves := by
  have hdst : ∀ p ∈ (transformJob s).moves, p.2 ∈ (transformJob s).footprint.writes := fun p hp => by
    rw [← CopyJob.map_snd_moves]
    exact List.mem_map_of_mem hp
  refine ⟨fun p hp => h.writes_lt _ (hdst p hp), fun p hp q hq heq => ?_, fun p hp => ?_⟩
  · exact List.inj_on_of_nodup_map ((CopyJob.map_snd_moves _).symm ▸ h.writes_nodup) hp hq heq
  · rw [CopyJob.map_snd_moves]
    exact h.reads_not_written (CopyJob.mem_reads_of_mem_moves hp)

/-- A pixel's four reads may as well come each just before its write, where the writes meet none of the reads. -/
theorem copyPixel_eq_moveBytes {s d : Nat} (hlt : ∀ p ∈ pixelMoves s d, p.2 < Config.memSpace)
    (hapart : ∀ p ∈ pixelMoves s d, p.1 ∉ (pixelMoves s d).map Prod.snd) {m : Memory} (hm : m.Wf) :
    copyPixel s d m = moveBytes (pixelMoves s d) m :=
  (moveBytes_eq_writeBytes hlt hapart hm).symm

theorem moveBytes_append (ms ms' : List (Nat × Nat)) (m : Memory) :
    moveBytes (ms ++ ms') m = moveBytes ms' (moveBytes ms m) := List.foldl_append

theorem MovesApart.of_append {ms ms' : List (Nat × Nat)} (h : MovesApart (ms ++ ms')) :
    MovesApart ms ∧ MovesApart ms' := by
  obtain ⟨hlt, honce, hapart⟩ := h
  simp only [List.mem_append, List.map_append, not_or] at hlt honce hapart
  exact ⟨⟨fun p hp => hlt p (.inl hp), fun p hp q hq => honce p (.inl hp) q (.inl hq),
      fun p hp => (hapart p (.inl hp)).1⟩,
    ⟨fun p hp => hlt p (.inr hp), fun p hp q hq => honce p (.inr hp) q (.inr hq), fun p hp => (hapart p (.inr hp)).2⟩⟩

/-- R109: pixel by pixel, CopyAll makes its byte moves. -/
theorem CopyJob.run_eq_moveBytes (j : CopyJob) {cs : List (Nat × Nat)}
    (h : MovesApart (cs.flatMap fun c =>
      pixelMoves (srcPixelAddr j.src j.pitch c.1 c.2) (dstPixelAddr j.dst j.mx j.my c.1 c.2)))
    {m : Memory} (hm : m.Wf) :
    j.run cs m = moveBytes (cs.flatMap fun c =>
      pixelMoves (srcPixelAddr j.src j.pitch c.1 c.2) (dstPixelAddr j.dst j.mx j.my c.1 c.2)) m := by
  induction cs generalizing m with
  | nil => rfl
  | cons c cs ih =>
    rw [List.flatMap_cons] at h ⊢
    obtain ⟨hpixel, hrest⟩ := h.of_append
    rw [moveBytes_append, ← ih hrest (hpixel.moveBytes hm).wf, ← copyPixel_eq_moveBytes hpixel.lt hpixel.apart hm]
    rfl

/-- The memory an admitted TRANSFORM leaves: every destination byte holds its source byte. -/
theorem TransformAdmitted.copyAll {s : State} (h : TransformAdmitted s) {m : Memory} (hm : m.Wf) :
    m.WrittenBy (fetched m (transformJob s).moves) ((transformJob s).copyAll m) := by
  have hmoves := h.movesApart
  rw [CopyJob.copyAll, CopyJob.run_eq_moveBytes _ hmoves hm]
  exact hmoves.moveBytes hm

/-! ### The header's byte writes -/

/-- R116: the header's words are written byte by byte. -/
theorem writeHeader_eq_writeBytes (a : Nat) (f : HeaderRecord) (m : Memory) :
    writeHeader a f m = writeBytes (headerWrites a f) m := by
  rw [writeBytes, headerWrites, List.foldl_flatMap]
  rfl

theorem map_fst_headerWrites (s : State) (f : HeaderRecord) :
    (headerWrites s.regs.hdrBase.toNat f).map Prod.fst = (headerFootprint s).writes := rfl

theorem headerFootprint_nodup (s : State) : (headerFootprint s).writes.Nodup :=
  List.nodup_range.map fun _ _ h => by simpa using h

theorem HeaderAdmitted.writable {s : State} (h : HeaderAdmitted s) (f : HeaderRecord) :
    Writable (headerWrites s.regs.hdrBase.toNat f) := fun p hp => by
  have hmem : p.1 ∈ (headerFootprint s).writes := map_fst_headerWrites s f ▸ List.mem_map_of_mem hp
  refine ⟨(mem_headerFootprint_writes.1 hmem).2.trans_le h.top, fun q hq haddr => ?_⟩
  rw [List.inj_on_of_nodup_map (map_fst_headerWrites s f ▸ headerFootprint_nodup s) hq hp haddr]

/-- The memory an admitted BUILD_HEADER leaves. -/
theorem HeaderAdmitted.writeHeader {s : State} (h : HeaderAdmitted s) (f : HeaderRecord) {m : Memory} (hm : m.Wf) :
    m.WrittenBy (headerWrites s.regs.hdrBase.toNat f) (writeHeader s.regs.hdrBase.toNat f m) := by
  rw [writeHeader_eq_writeBytes]
  exact (h.writable f).writeBytes hm

/-- Settles O37: in every order the same bytes are written with the same values, and canonical memories with those
bytes written are equal. -/
theorem memoryDoesNotDependOnTheAccessOrder : Obligations.MemoryDoesNotDependOnTheAccessOrder := by
  unfold Obligations.MemoryDoesNotDependOnTheAccessOrder
  refine ⟨fun s ms hm h hms => ?_, fun s l hm h hl => ?_, fun s f ws hm h hws => ?_⟩
  · have hmoved := (h.movesApart.perm hms.symm).moveBytes hm
    exact (hmoved.perm (hms.map _)).unique (h.copyAll hm)
  · exact (h.movesApart.runAccesses hm hl).unique (h.copyAll hm)
  · have hwritten := ((h.writable f).perm hws.symm).writeBytes hm
    exact (hwritten.perm hws).unique (h.writeHeader f hm)

end Sys2Proof.Machine
end

section
/-!
PROOFS. O44, the bytes a command touches (20_memory.md R49), and O47, the bus error (R51): a command either ends
without its memory phase or is register work followed by one memory phase over its footprint.
-/

namespace Sys2Proof.Machine

open Host (Outcome)

/-! ### A command as register work and one memory phase -/

/-- The state in which a command that gets so far begins its memory phase: LAST_OP and the result registers are
written. -/
def beforeMemory : Instr → State → State
  | .transform, s => withMasks s.regs.width.toNat s.regs.height.toNat 1 (setLastOp 0x04 s)
  | .buildHeader, s =>
    { setLastOp 0x05 s with regs := { s.regs with hdr := headerFields (BitVec.ofNat 32 (headerTotal s)) } }
  | _, s => s

/-- What a memory phase without a bus error makes of memory. -/
def memoryEffect : Instr → State → Memory → Memory
  | .transform, s => (transformJob s).copyAll
  | .buildHeader, s => writeHeader s.regs.hdrBase.toNat (headerFields (BitVec.ofNat 32 (headerTotal s)))
  | _, _ => id

/-- The command `i` started in `s` gets to its memory phase, which touches bytes of the memory space (R50) and writes
exactly those of its footprint. -/
structure ReachesMemory (i : Instr) (s : State) : Prop where
  exec_eq : exec i s = memoryPhase (footprint i s) (memoryEffect i s) (beforeMemory i s)
  touched_lt : ∀ a ∈ (footprint i s).touched, a < Config.memSpace
  effect : ∀ m : Memory, m.Wf →
    ∃ ws, ws.map Prod.fst = (footprint i s).writes ∧ m.WrittenBy ws (memoryEffect i s m)

theorem footprint_transform_admitted {s : State} (hs : s.status.fatal = false) (h : TransformAdmitted s) :
    footprint .transform s = (transformJob s).footprint :=
  footprint_transform_live hs ((transformChecks_none_iff s).2 h) (genMasks_invariant _ _ _)

theorem footprint_buildHeader_admitted {s : State} (hs : s.status.fatal = false) (h : HeaderAdmitted s) :
    footprint .buildHeader s = headerFootprint s :=
  footprint_buildHeader_live hs ((headerChecks_none_iff s).2 h)

/-- R107: an admitted TRANSFORM gets to its memory phase. -/
theorem TransformAdmitted.reachesMemory {s : State} (h : TransformAdmitted s) (hs : s.status.fatal = false) :
    ReachesMemory .transform s := by
  have hfoot := footprint_transform_admitted hs h
  refine ⟨?_, ?_, fun m hm => ?_⟩
  · rw [execTransform_live hs, checkedBody_none ((transformChecks_none_iff s).2 h), hfoot]
    rcases latchMasks_cases s.regs.width.toNat s.regs.height.toNat 1
      (fun t => memoryPhase (transformJob t).footprint (transformJob t).copyAll t) (setLastOp 0x04 s)
      with ⟨-, hlatch⟩ | ⟨hi, -⟩
    · exact hlatch
    · rw [genMasks_invariant] at hi
      cases hi
  · rw [hfoot]
    intro a ha
    rcases List.mem_append.1 ha with ha | ha
    · have := h.reads_region ha
      have := h.srcTop
      simp only [Config.memSpace]
      omega
    · exact h.writes_lt a ha
  · rw [hfoot]
    exact ⟨_, by rw [map_fst_fetched, CopyJob.map_snd_moves], h.copyAll hm⟩

/-- R113: an admitted BUILD_HEADER gets to its memory phase. -/
theorem HeaderAdmitted.reachesMemory {s : State} (h : HeaderAdmitted s) (hs : s.status.fatal = false) :
    ReachesMemory .buildHeader s := by
  have hfoot := footprint_buildHeader_admitted hs h
  refine ⟨?_, ?_, fun m hm => ?_⟩
  · rw [execBuildHeader_live hs, checkedBody_none ((headerChecks_none_iff s).2 h), hfoot]
    rfl
  · rw [hfoot]
    exact fun a ha => (mem_headerFootprint_writes.1 ha).2.trans_le h.top
  · rw [hfoot]
    exact ⟨_, map_fst_headerWrites s _, h.writeHeader _ hm⟩

theorem footprint_transform_not_admitted {s : State} (h : ¬ TransformAdmitted s) :
    footprint .transform s = Footprint.empty :=
  footprint_transform_rejected (mt (transformChecks_none_iff s).1 h)

theorem footprint_buildHeader_not_admitted {s : State} (h : ¬ HeaderAdmitted s) :
    footprint .buildHeader s = Footprint.empty :=
  footprint_buildHeader_rejected (mt (headerChecks_none_iff s).1 h)

/-- The outcome is a next state that differs from `s` in registers and STATUS at most. -/
def RegistersOnly (s : State) (o : Outcome State Fault Refusal) : Prop :=
  ∃ regs status, o = .next { s with regs := regs, status := status }

theorem registersOnly_checkedBody {checks : List (Bool × ErrCode)} {rest : State → Outcome State Fault Refusal}
    {op : Byte} {s : State} (hrest : firstError checks = none → RegistersOnly s (rest (setLastOp op s))) :
    RegistersOnly s (checkedBody checks rest (setLastOp op s)) := by
  rcases checkedBody_cases checks rest (setLastOp op s) with ⟨c, -, h⟩ | ⟨hc, h⟩ <;> rw [h]
  · exact ⟨_, _, rfl⟩
  · exact hrest hc

theorem registersOnly_latchMasks {w h d : Nat} {op : Byte} {s : State} :
    RegistersOnly s (latchMasks w h d (fun t => .next (finishOk t)) (setLastOp op s)) := by
  rcases latchMasks_cases w h d (fun t => .next (finishOk t)) (setLastOp op s) with ⟨-, h⟩ | ⟨-, h⟩ <;>
    exact ⟨_, _, h⟩

/-- Everything a command can do: end without touching memory, or get to its memory phase. -/
theorem exec_cases (i : Instr) (s : State) :
    footprint i s = Footprint.empty ∧ RegistersOnly s (exec i s) ∨ ReachesMemory i s := by
  cases hs : s.status.fatal with
  | true => exact .inl ⟨footprint_halted i hs, _, _, exec_halted i hs⟩
  | false =>
    cases i with
    | nop => exact .inl ⟨rfl, _, _, execNop_live hs⟩
    | permutePixel => exact .inl ⟨rfl, _, _, execPermutePixel_live hs⟩
    | genMasks =>
      rw [execGenMasks_live hs]
      exact .inl ⟨rfl, registersOnly_checkedBody fun _ => registersOnly_latchMasks⟩
    | calcAddr =>
      rw [execCalcAddr_live hs]
      exact .inl ⟨rfl, registersOnly_checkedBody fun _ => ⟨_, _, rfl⟩⟩
    | transform =>
      by_cases h : TransformAdmitted s
      · exact .inr (h.reachesMemory hs)
      · rw [execTransform_live hs]
        exact .inl ⟨footprint_transform_not_admitted h,
          registersOnly_checkedBody fun hc => absurd ((transformChecks_none_iff s).1 hc) h⟩
    | buildHeader =>
      by_cases h : HeaderAdmitted s
      · exact .inr (h.reachesMemory hs)
      · rw [execBuildHeader_live hs]
        exact .inl ⟨footprint_buildHeader_not_admitted h,
          registersOnly_checkedBody fun hc => absurd ((headerChecks_none_iff s).1 hc) h⟩

/-! ### What the register work leaves alone -/

@[simp] theorem beforeMemory_mem (i : Instr) (s : State) : (beforeMemory i s).mem = s.mem := by cases i <;> rfl

@[simp] theorem beforeMemory_platform (i : Instr) (s : State) : (beforeMemory i s).platform = s.platform := by
  cases i <;> rfl

@[simp] theorem beforeMemory_input (i : Instr) (s : State) : (beforeMemory i s).input = s.input := by cases i <;> rfl

@[simp] theorem beforeMemory_draws (i : Instr) (s : State) : (beforeMemory i s).draws = s.draws := by cases i <;> rfl

/-! ### O44 -/

/-- R49: a command leaves every byte alone that is not one of those it writes. -/
theorem exec_sameOutside {i : Instr} {s t : State} (hm : s.mem.Wf) (h : exec i s = .next t) :
    SameOutside (footprint i s).writes s.mem t.mem := by
  rcases exec_cases i s with ⟨-, regs, status, hexec⟩ | hmem
  · rw [hexec] at h
    cases h
    exact fun _ _ => rfl
  · have hwrites : ∀ a ∈ (footprint i s).writes, a < Config.memSpace :=
      fun a ha => hmem.touched_lt a (List.mem_append_right _ ha)
    rw [hmem.exec_eq] at h
    rcases memoryPhase_cases (footprint i s) (memoryEffect i s) (beforeMemory i s)
      with ⟨-, hphase⟩ | ⟨-, hphase⟩ | ⟨-, -, hphase⟩ <;> rw [hphase] at h <;> cases h
    · obtain ⟨ws, hws, hwritten⟩ := hmem.effect s.mem hm
      simpa only [finishOk_mem, beforeMemory_mem, hws] using hwritten.kept
    · intro a ha
      rw [raiseError_mem, drawBytes_read hwrites (by simpa using hm), if_neg ha, beforeMemory_mem]

/-- A list of pixels' bytes, by coordinate and lane. -/
theorem mem_pixels_iff {w h : Nat} {addr : Nat × Nat → Nat} {a : Nat} :
    a ∈ (coords w h).flatMap (fun c => pixelBytes (addr c)) ↔
      ∃ x y k, x < w ∧ y < h ∧ k < 4 ∧ a = addr (x, y) + k := by
  simp only [List.mem_flatMap, Prod.exists, mem_coords, mem_pixelBytes]
  constructor
  · rintro ⟨x, y, ⟨hx, hy⟩, hlo, hhi⟩
    exact ⟨x, y, a - addr (x, y), hx, hy, by omega, by omega⟩
  · rintro ⟨x, y, k, hx, hy, hk, rfl⟩
    exact ⟨x, y, ⟨hx, hy⟩, by omega, by omega⟩

theorem mem_transformJob_reads {s : State} {a : Nat} :
    a ∈ (transformJob s).footprint.reads ↔ ∃ x y k, x < s.regs.width.toNat ∧ y < s.regs.height.toNat ∧ k < 4 ∧
      a = s.regs.srcBase.toNat + 4 * (y * s.regs.rowPitch.toNat + x) + k :=
  mem_pixels_iff

theorem mem_transformJob_writes {s : State} {a : Nat} :
    a ∈ (transformJob s).footprint.writes ↔ ∃ x y k, x < s.regs.width.toNat ∧ y < s.regs.height.toNat ∧ k < 4 ∧
      a = s.regs.dstBase.toNat + 4 * morton (genMasks s.regs.width.toNat s.regs.height.toNat 1).mx
        (genMasks s.regs.width.toNat s.regs.height.toNat 1).my 0 x y 0 + k := by
  simp only [morton, scatter_zero, Nat.or_zero]
  exact mem_pixels_iff

/-- Settles O44: the frame of every command, then the footprints by command. -/
theorem commandsTouchOnlyTheirBytes : Obligations.CommandsTouchOnlyTheirBytes := by
  unfold Obligations.CommandsTouchOnlyTheirBytes
  refine ⟨fun i s t hm h => exec_sameOutside hm h, fun i s ht hb => ?_, fun s => ⟨?_, fun hs h a => ?_⟩,
    fun s => ⟨?_, fun hs h => ?_⟩⟩
  · cases i with
    | transform => exact absurd rfl ht
    | buildHeader => exact absurd rfl hb
    | _ => rfl
  · rintro (hs | h)
    · rw [footprint_halted _ hs, touched_empty]
    · rw [footprint_transform_not_admitted h, touched_empty]
  · rw [footprint_transform_admitted hs h]
    exact ⟨mem_transformJob_reads, mem_transformJob_writes⟩
  · rintro (hs | h)
    · rw [footprint_halted _ hs, touched_empty]
    · rw [footprint_buildHeader_not_admitted h, touched_empty]
  · rw [footprint_buildHeader_admitted hs h]
    exact ⟨rfl, fun a => mem_headerFootprint_writes⟩

/-! ### O47 -/

/-- The state on a platform that answers every byte of the memory space. -/
def withoutBusErrors (s : State) : State := { s with platform := { s.platform with busErrors := [] } }

@[simp] theorem footprint_withoutBusErrors (i : Instr) (s : State) :
    footprint i (withoutBusErrors s) = footprint i s := by cases i <;> rfl

theorem beforeMemory_withoutBusErrors (i : Instr) (s : State) :
    beforeMemory i (withoutBusErrors s) = withoutBusErrors (beforeMemory i s) := by cases i <;> rfl

theorem serves_withoutBusErrors {s : State} {as : List Nat} (hlt : ∀ a ∈ as, a < Config.memSpace)
    (hwin : ∀ a ∈ as, inWindow s.platform a = false) : Serves (withoutBusErrors s).platform as :=
  fun a ha => ⟨by simp [memAdmits, withoutBusErrors, hlt a ha], hwin a ha⟩

/-- A command with a byte to touch gets to its memory phase. -/
theorem reachesMemory_of_mem_touched {i : Instr} {s : State} {a : Nat} (ha : a ∈ (footprint i s).touched) :
    ReachesMemory i s := by
  refine (exec_cases i s).resolve_left fun ⟨hfoot, _⟩ => ?_
  rw [hfoot, touched_empty] at ha
  exact List.not_mem_nil ha

/-- R51: a bus error ends the memory phase with BUS and free bytes. -/
theorem ReachesMemory.exec_bus {i : Instr} {s : State} (h : ReachesMemory i s)
    (hwin : ∀ a ∈ (footprint i s).touched, inWindow s.platform a = false)
    (hbus : ∃ a ∈ (footprint i s).touched, memAdmits s.platform a = false) :
    exec i s = .next (raiseError .bus (drawBytes (footprint i s).writes (beforeMemory i s))) := by
  rw [h.exec_eq]
  rcases memoryPhase_cases (footprint i s) (memoryEffect i s) (beforeMemory i s)
    with ⟨⟨a, ha, hin⟩, -⟩ | ⟨hserves, -⟩ | ⟨-, -, hphase⟩
  · rw [beforeMemory_platform, hwin a ha] at hin
    cases hin
  · obtain ⟨a, ha, hno⟩ := hbus
    rw [beforeMemory_platform] at hserves
    rw [(hserves a ha).1] at hno
    cases hno
  · exact hphase

/-- R78: a memory phase all of whose bytes answer ends with OK. -/
theorem ReachesMemory.exec_served {i : Instr} {s : State} (h : ReachesMemory i s)
    (hserves : Serves s.platform (footprint i s).touched) :
    exec i s = .next (finishOk { beforeMemory i s with mem := memoryEffect i s s.mem }) := by
  rw [h.exec_eq, memoryPhase_served ((beforeMemory_platform i s).symm ▸ hserves), beforeMemory_mem]

/-- Settles O47: the command and the same command without bus errors share the register work before their memory
phase. -/
theorem busErrorKeepsRegistersAndFreesTheBytes : Obligations.BusErrorKeepsRegistersAndFreesTheBytes := by
  unfold Obligations.BusErrorKeepsRegistersAndFreesTheBytes
  intro i s hm hwin hbus
  obtain ⟨a, ha, hno⟩ := hbus
  have hreach : ReachesMemory i s := reachesMemory_of_mem_touched ha
  have hreach' : ReachesMemory i (withoutBusErrors s) :=
    reachesMemory_of_mem_touched ((footprint_withoutBusErrors i s).symm ▸ ha)
  have hexec := hreach.exec_bus hwin ⟨a, ha, hno⟩
  have hexec' := hreach'.exec_served ((footprint_withoutBusErrors i s).symm ▸
    serves_withoutBusErrors hreach.touched_lt hwin)
  rw [beforeMemory_withoutBusErrors] at hexec'
  refine ⟨_, _, hexec, hexec', rfl, rfl, rfl, beforeMemory_platform i s, beforeMemory_input i s, fun x hx => ?_,
    exec_sameOutside hm hexec⟩
  rw [raiseError_mem, drawBytes_read (fun x hx => hreach.touched_lt x (List.mem_append_right _ hx)) (by simpa using hm),
    if_pos hx, beforeMemory_draws]

end Sys2Proof.Machine
end

section
/-!
PROOFS. O12, O13 and O50, the register port (20_memory.md R42, R43, R56): reserved offsets, illegal accesses, and
accesses of other masters to a running command's bytes.
-/

namespace Sys2Proof.Machine

open Host (Outcome)

/-- A quiet port access is the access itself, from the state with its event taken. -/
theorem step_port {s : State} {a : PortAccess} {rest : List Event} (h : s.input = .port a [] :: rest) :
    step s = portAccess a (afterFetch s rest) := by
  rw [step_of_input h, handleEvent, alongside_nil]

/-! ### Reserved offsets -/

theorem portAccess_read_reserved {s : State} {o : Nat} (v : Word) (hlo : 0x7C ≤ o) (hhi : o < 0x100)
    (hal : o % 4 = 0) :
    portAccess { dir := .read, bits := 32, addr := s.platform.regBase + o, data := v } s =
      .next { s with answer := some 0 } := by
  simp [portAccess, windowOffset_of_lt hhi, ofOffset_reserved hlo, hal]

theorem portAccess_write_reserved {s : State} {o : Nat} (v : Word) (hlo : 0x7C ≤ o) (hhi : o < 0x100)
    (hal : o % 4 = 0) :
    portAccess { dir := .write, bits := 32, addr := s.platform.regBase + o, data := v } s = .next s := by
  simp [portAccess, windowOffset_of_lt hhi, ofOffset_reserved hlo, hal]

/-- Settles O12: no register stands at a reserved offset. -/
theorem reservedOffsetsReadZero : Obligations.ReservedOffsetsReadZero := by
  unfold Obligations.ReservedOffsetsReadZero
  intro s o v rest hlo hhi hal
  refine ⟨fun hin => ?_, fun hin => ?_⟩
  · rw [step_port hin]
    exact portAccess_read_reserved (s := afterFetch s rest) v hlo (by omega) hal
  · rw [step_port hin]
    exact portAccess_write_reserved (s := afterFetch s rest) v hlo (by omega) hal

/-! ### Faults of a port access -/

theorem portAccess_illegal {a : PortAccess} {s : State} {o : Nat} (ho : windowOffset s.platform a.addr = some o)
    (h : ¬ (a.bits = 32 ∧ o % 4 = 0)) : portAccess a s = .fault .hostAccess := by
  simp only [portAccess, ho]
  rw [if_pos (by tauto)]

/-- The outcome is a next state or a refusal. -/
def FaultFree (o : Outcome State Fault Refusal) : Prop := ∀ f, o ≠ .fault f

theorem faultFree_next (s : State) : FaultFree (.next s) := by rintro f ⟨⟩

/-- No command faults: the only stop of a memory phase is the refusal of R52. -/
theorem exec_faultFree (i : Instr) (s : State) : FaultFree (exec i s) := by
  rcases exec_cases i s with ⟨-, regs, status, hexec⟩ | hmem
  · rw [hexec]
    exact faultFree_next _
  · rw [hmem.exec_eq]
    rcases memoryPhase_cases (footprint i s) (memoryEffect i s) (beforeMemory i s)
      with ⟨-, hphase⟩ | ⟨-, hphase⟩ | ⟨-, -, hphase⟩ <;> rw [hphase]
    · rintro f ⟨⟩
    · exact faultFree_next _
    · exact faultFree_next _

theorem illegalCommand_faultFree (w : Word) (s : State) : FaultFree (illegalCommand w s) := by
  unfold illegalCommand
  cases hs : s.status.fatal with
  | true => rw [runCommand_halted hs]; exact faultFree_next _
  | false => rw [runCommand_live hs]; exact faultFree_next _

theorem commandWrite_faultFree (w : Word) (s : State) : FaultFree (commandWrite w s) := by
  unfold commandWrite
  split
  next i _ => exact exec_faultFree i s
  next => exact illegalCommand_faultFree w s

theorem portAccess_legal_faultFree {a : PortAccess} {s : State} {o : Nat}
    (ho : windowOffset s.platform a.addr = some o) (hbits : a.bits = 32) (hal : o % 4 = 0) :
    FaultFree (portAccess a s) := by
  simp only [portAccess, ho]
  rw [if_neg (by omega)]
  split
  next => exact faultFree_next _
  next => exact faultFree_next _
  next => exact commandWrite_faultFree _ _
  next => exact faultFree_next _
  next => exact faultFree_next _

/-- Settles O13: the port faults on an access that is not an aligned word, and nothing it runs faults. -/
theorem onlyAlignedWordAccessesAreLegal : Obligations.OnlyAlignedWordAccessesAreLegal := by
  unfold Obligations.OnlyAlignedWordAccessesAreLegal
  intro s a rest hin hlo hhi
  have ho : windowOffset (afterFetch s rest).platform a.addr = some (a.addr - s.platform.regBase) :=
    windowOffset_eq_some_iff.2 ⟨by omega, by rw [afterFetch_platform]; omega⟩
  rw [step_port hin]
  exact ⟨portAccess_illegal ho, fun ⟨hbits, hal⟩ => portAccess_legal_faultFree ho hbits hal⟩

/-! ### Interference -/

/-- R17: an aligned word write of a legal word at REG_BASE starts its command. -/
theorem command_cmdWrite {s : State} {w : Word} {i : Instr} (hw : decodeWord w = .ok i) :
    PortAccess.command { dir := .write, bits := 32, addr := s.platform.regBase, data := w } s = some i := by
  have ho : windowOffset s.platform s.platform.regBase = some Reg.cmd.offset := windowOffset_reg _ .cmd
  simp [PortAccess.command, ho, hw]

/-- Taking the event changes nothing a footprint depends on. -/
@[simp] theorem footprint_afterFetch (i : Instr) (s : State) (rest : List Event) :
    footprint i (afterFetch s rest) = footprint i s := by cases i <;> rfl

theorem alongside_interference {a : PortAccess} {others : List MemAccess} {s : State}
    (rest : State → Outcome State Fault Refusal) (h : ∃ m ∈ others, m.addr ∈ (a.footprint s).touched) :
    alongside a others rest s = .fault .interference :=
  if_pos (by simpa using h)

/-- Settles O50: the access starts the command, so its footprint is the command's. -/
theorem interferenceIsAFault : Obligations.InterferenceIsAFault := by
  unfold Obligations.InterferenceIsAFault
  rintro s w i a others rest hw rfl hin hmeet
  have hfoot : PortAccess.footprint { dir := .write, bits := 32, addr := s.platform.regBase, data := w }
      (afterFetch s rest) = footprint i s := by
    have hcommand := command_cmdWrite (s := afterFetch s rest) hw
    rw [afterFetch_platform] at hcommand
    rw [PortAccess.footprint, hcommand]
    exact footprint_afterFetch i s rest
  rw [step_of_input hin, handleEvent]
  exact alongside_interference _ (hfoot ▸ hmeet)

end Sys2Proof.Machine
end

section
/-!
PROOFS. O3, the decoder's legal words (30_encoding.md R62): a legal word is RSV zero before the opcode of a command,
so it is that command's encoding; and a word that selects a command has both fields in their legal ranges.
-/

namespace Sys2Proof.Machine

/-! ### Opcodes and encoding -/

theorem opcode_toNat_le (i : Instr) : i.opcode.toNat ≤ 0x05 := by cases i <;> decide

/-- R63 leaves no gap: every opcode up to 0x05 is a command's. -/
theorem exists_opcode_eq {op : Byte} (h : op.toNat ≤ 0x05) : ∃ i : Instr, i.opcode = op := by
  obtain ⟨n, hn, rfl⟩ : ∃ n ≤ 5, op = BitVec.ofNat 8 n := ⟨op.toNat, h, by simp⟩
  match n, hn with
  | 0, _ => exact ⟨.nop, rfl⟩
  | 1, _ => exact ⟨.genMasks, rfl⟩
  | 2, _ => exact ⟨.calcAddr, rfl⟩
  | 3, _ => exact ⟨.permutePixel, rfl⟩
  | 4, _ => exact ⟨.transform, rfl⟩
  | 5, _ => exact ⟨.buildHeader, rfl⟩

theorem decodeWord_encodeWord (i : Instr) : decodeWord (encodeWord i) = .ok i := by cases i <;> rfl

/-- R61: RSV and OPC are all of a word. -/
theorem rsvField_append_opcField (w : Word) : rsvField w ++ opcField w = w := by
  have hjoin := BitVec.extractLsb'_append_extractLsb'_eq_extractLsb' (x := w) (start₁ := 0) (len₁ := 8)
    (start₂ := 8) (len₂ := 24) rfl
  exact hjoin.trans BitVec.extractLsb'_eq_self

/-- With RSV zero, the command whose opcode is OPC has no word but this one. -/
theorem encodeWord_eq_of_fields {w : Word} {i : Instr} (hrsv : rsvField w = 0) (hopc : i.opcode = opcField w) :
    encodeWord i = w :=
  calc encodeWord i = 0#24 ++ opcField w := by rw [encodeWord, hopc]
    _ = rsvField w ++ opcField w := by rw [hrsv]; rfl
    _ = w := rsvField_append_opcField w

/-! ### Decoding -/

theorem rsvField_of_decodeWord {w : Word} {i : Instr} (h : decodeWord w = .ok i) : rsvField w = 0 := by
  unfold decodeWord at h
  split at h
  next => cases h
  next hrsv => exact not_not.1 hrsv

theorem opcField_le_of_decodeWord {w : Word} {i : Instr} (h : decodeWord w = .ok i) : (opcField w).toNat ≤ 0x05 := by
  have hopc : i.opcode = opcField w := opcode_of_decodeWord h
  exact hopc ▸ opcode_toNat_le i

/-- Settles O3: a legal word is the encoding of its opcode's command, and a word with a command is legal. -/
theorem decodeSelectsByOpcodeAlone : Obligations.DecodeSelectsByOpcodeAlone := by
  unfold Obligations.DecodeSelectsByOpcodeAlone
  refine fun w => ⟨fun ⟨hrsv, hopc⟩ => ?_, fun hillegal => ?_⟩
  · obtain ⟨i, hi⟩ := exists_opcode_eq hopc
    have hw : encodeWord i = w := encodeWord_eq_of_fields hrsv hi
    exact ⟨i, hw ▸ decodeWord_encodeWord i, hi, hw⟩
  · cases hw : decodeWord w with
    | error e => exact ⟨e, rfl⟩
    | ok i => exact absurd ⟨rsvField_of_decodeWord hw, opcField_le_of_decodeWord hw⟩ hillegal

end Sys2Proof.Machine
end

section
/-!
PROOFS. O5 and O8, command dispatch (40_command_dispatch.md R79, R80): the outcome of an illegal command word, the word
a host then reads at STATUS, and NOP.
-/

namespace Sys2Proof.Machine

/-! ### Illegal words -/

/-- R80 on a SAC that is not halted. -/
theorem illegalCommand_live (w : Word) {s : State} (h : s.status.fatal = false) :
    illegalCommand w s = .next (withOutcome s (w.extractLsb 7 0) .illegalCmd) := runCommand_live h

/-- R77 before R80: a halted SAC reports HALTED. -/
theorem illegalCommand_halted (w : Word) {s : State} (h : s.status.fatal = true) :
    illegalCommand w s = .next (withOutcome s (w.extractLsb 7 0) .halted) := runCommand_halted h

/-- R64: a word with RSV set or a reserved OPC selects no command. -/
theorem commandWrite_of_illegal {w : Word} (hw : w.extractLsb 31 8 ≠ 0 ∨ 0x06 ≤ (w.extractLsb 7 0).toNat)
    (s : State) : commandWrite w s = illegalCommand w s := by
  have hillegal : ¬ (w.extractLsb 31 8 = 0 ∧ (w.extractLsb 7 0).toNat ≤ 0x05) := by
    rintro ⟨hrsv, hopc⟩
    rcases hw with hset | hreserved
    · exact hset hrsv
    · omega
  obtain ⟨e, he⟩ := (decodeSelectsByOpcodeAlone w).2 hillegal
  rw [commandWrite, he]

/-! ### The STATUS word -/

theorem toNat_append_eq_add {m n : Nat} (x : BitVec m) (y : BitVec n) :
    (x ++ y).toNat = x.toNat * 2 ^ n + y.toNat := by
  rw [BitVec.toNat_append, ← Nat.shiftLeft_add_eq_or_of_lt y.isLt, Nat.shiftLeft_eq]

/-- R18's layout as a sum of the fields at their places. -/
theorem Status.word_toNat (t : Status) :
    t.word.toNat = t.lastOp.toNat * 2 ^ 24 + t.tbits.toNat * 2 ^ 16 + t.err.toNat * 2 ^ 8 + t.fatal.toNat * 2 +
      t.maskValid.toNat := by
  simp only [Status.word, toNat_append_eq_add, BitVec.toNat_ofBool, BitVec.toNat_ofNat]
  omega

/-! ### The two obligations -/

/-- Settles O5: an illegal word's step is `illegalCommand`, whose two outcomes give the worked words of R80. -/
theorem illegalWordChangesOnlyErrAndLastOp : Obligations.IllegalWordChangesOnlyErrAndLastOp := by
  unfold Obligations.IllegalWordChangesOnlyErrAndLastOp
  intro s w rest hw hin
  have hstep : step s = illegalCommand w (afterFetch s rest) :=
    (step_cmdWrite hin).trans (commandWrite_of_illegal hw _)
  have hlive (hs : s.status.fatal = false) :
      step s = .next (withOutcome (afterFetch s rest) (w.extractLsb 7 0) .illegalCmd) :=
    hstep.trans (illegalCommand_live w hs)
  refine ⟨hlive, fun hs => hstep.trans (illegalCommand_halted w hs), ?_, ?_⟩
  · rintro rfl hs
    exact ⟨_, hlive hs, rfl, rfl, rfl⟩
  · rintro rfl hs
    refine ⟨_, hlive hs, ?_⟩
    have hop : ((0x00000006 : Word).extractLsb 7 0).toNat = 0x06 := rfl
    have herr : ErrCode.illegalCmd.code.toNat = 0x01 := rfl
    simp only [readReg, Status.word_toNat, withOutcome_status, afterFetch_status, hs, hop, herr, Bool.toNat_false]
    omega

/-- Settles O8: NOP has nothing to do between R77 and R78. -/
theorem nopLeavesOk : Obligations.NopLeavesOk := by
  unfold Obligations.NopLeavesOk
  exact ⟨rfl, fun s => ⟨execNop_live, exec_halted .nop⟩⟩

end Sys2Proof.Machine
end

section
/-!
PROOFS. O19, the rounds of the mask generator (41_morton_order_encoder.md R86): the loop is a fixed number of rounds,
one past the longest axis, so what one round does to the candidate position and the masks gives what the loop does.
-/

namespace Sys2Proof.Machine

/-- R86's B, the bits of the longest axis. -/
def longestBits (w h d : Nat) : Nat := max (clog2 w) (max (clog2 h) (clog2 d))

theorem exists_axis_iff {p : Axis → Prop} : (∃ a, p a) ↔ p .x ∨ p .y ∨ p .z := by
  constructor
  · rintro ⟨_ | _ | _, h⟩
    exacts [.inl h, .inr (.inl h), .inr (.inr h)]
  · rintro (h | h | h)
    exacts [⟨_, h⟩, ⟨_, h⟩, ⟨_, h⟩]

theorem lt_longestBits_iff {w h d r : Nat} : r < longestBits w h d ↔ ∃ a, r < clog2 (extent w h d a) := by
  rw [longestBits, lt_max_iff, lt_max_iff, exists_axis_iff]
  rfl

theorem clog2_le_longestBits (w h d : Nat) (a : Axis) : clog2 (extent w h d a) ≤ longestBits w h d :=
  le_of_not_gt fun hlt => lt_irrefl _ (lt_longestBits_iff.2 ⟨a, hlt⟩)

theorem DimsAdmitted.longestBits_le {w h d : Nat} (hd : DimsAdmitted w h d) : longestBits w h d ≤ 30 := by
  obtain ⟨-, -, -, hsum⟩ := hd
  rw [longestBits]
  omega

/-- R86: round `r` makes progress exactly while `r` is below B. -/
theorem maskRound_progress_iff_lt {w h d r : Nat} {g : MaskGen} (hbit : g.bit = 2 ^ r) :
    (maskRound w h d g).2 = true ↔ r < longestBits w h d := by
  simp only [maskRound_progress_iff, hbit, lt_longestBits_iff, lt_clog2_iff]

/-! ### The loop as an iteration -/

/-- `k` rounds from `g` on, progress or not. -/
def roundsFrom (w h d k : Nat) (g : MaskGen) : MaskGen := (fun g => (maskRound w h d g).1)^[k] g

theorem roundsFrom_succ (w h d k : Nat) (g : MaskGen) :
    roundsFrom w h d (k + 1) g = (maskRound w h d (roundsFrom w h d k g)).1 :=
  Function.iterate_succ_apply' _ k g

theorem roundsFrom_bit {w h d r : Nat} {g : MaskGen} (hbit : g.bit = 2 ^ r) (k : Nat) :
    (roundsFrom w h d k g).bit = 2 ^ (r + k) := by
  induction k with
  | zero => exact hbit
  | succ k ih => rw [roundsFrom_succ, maskRound_bit, ih, Nat.shiftLeft_eq, pow_one, ← pow_succ, Nat.add_assoc]

/-- R85's loop entered at round `r` ends after round B, if its bound lets it. -/
theorem maskRounds_eq_roundsFrom {w h d r : Nat} (n : Nat) {g : MaskGen} (hbit : g.bit = 2 ^ r)
    (hr : r ≤ longestBits w h d) :
    maskRounds w h d n g = roundsFrom w h d (min n (longestBits w h d + 1 - r)) g := by
  induction n generalizing r g with
  | zero => rw [Nat.zero_min]; rfl
  | succ n ih =>
    simp only [maskRounds, maskRound_progress_iff_lt hbit]
    split_ifs with hlt
    · have hnext : (maskRound w h d g).1.bit = 2 ^ (r + 1) := roundsFrom_bit hbit 1
      rw [ih hnext hlt,
        show min (n + 1) (longestBits w h d + 1 - r) = min n (longestBits w h d + 1 - (r + 1)) + 1 by omega]
      rfl
    · rw [show min (n + 1) (longestBits w h d + 1 - r) = 1 by omega]
      rfl

/-- R86: however many rounds are allowed, the generator makes those up to round B. -/
theorem maskRounds_start (w h d n : Nat) :
    maskRounds w h d n MaskGen.start = roundsFrom w h d (min n (longestBits w h d + 1)) MaskGen.start :=
  maskRounds_eq_roundsFrom n rfl (Nat.zero_le _)

theorem maskRounds_start_bit (w h d n : Nat) :
    (maskRounds w h d n MaskGen.start).bit = 2 ^ min n (longestBits w h d + 1) := by
  rw [maskRounds_start, roundsFrom_bit (r := 0) rfl, Nat.zero_add]

/-- More than B + 1 rounds change nothing. -/
theorem maskRounds_start_of_le {w h d m n : Nat} (hm : longestBits w h d + 1 ≤ m) (hn : longestBits w h d + 1 ≤ n) :
    maskRounds w h d m MaskGen.start = maskRounds w h d n MaskGen.start := by
  rw [maskRounds_start, maskRounds_start, Nat.min_eq_right hm, Nat.min_eq_right hn]

/-! ### The masks on the way -/

/-- The tally of R85's loop, whatever the extents. -/
theorem maskRounds_start_tally (w h d n : Nat) :
    (maskRounds w h d n MaskGen.start).Tally (bitsAfter w h d n) := by
  have hstart : MaskGen.start.Tally (bitsAfter w h d 0) := by
    rw [show bitsAfter w h d 0 = fun _ => 0 from funext fun a => Nat.zero_min _]
    exact MaskGen.tally_start
  simpa only [Nat.zero_add] using hstart.maskRounds (n := n) rfl

theorem DimsAdmitted.bitsTaken_le {w h d : Nat} (hd : DimsAdmitted w h d) (r : Nat) :
    bitsTaken (bitsAfter w h d r) ≤ 30 := by
  obtain ⟨-, -, -, hsum⟩ := hd
  simp only [bitsTaken, bitsAfter, extent]
  omega

/-- Settles O19: the loop's candidate position by rounds, and its tally. -/
theorem genMasksRunsOneRoundPastTheLongestAxis : Obligations.GenMasksRunsOneRoundPastTheLongestAxis := by
  unfold Obligations.GenMasksRunsOneRoundPastTheLongestAxis
  intro w h d B hd hB
  obtain rfl : B = longestBits w h d := hB
  have hle := hd.longestBits_le
  have hearly (n : Nat) (hn : n ≤ longestBits w h d) : (maskRounds w h d n MaskGen.start).bit = 2 ^ n := by
    rw [maskRounds_start_bit, Nat.min_eq_left (hn.trans (Nat.le_succ _))]
  refine ⟨hearly, fun n hn => maskRounds_start_of_le hn (by omega), ?_, ?_, (genMasks_tally hd).cursor,
    fun n => ⟨?_, ?_, fun a => ?_⟩⟩
  · rw [Bool.eq_false_iff, ne_eq, maskRound_progress_iff_lt (hearly _ le_rfl)]
    exact lt_irrefl _
  · rw [genMasks, maskRounds_start_bit, Nat.min_eq_right (by omega)]
  · rw [maskRounds_start_bit]
    exact Nat.pow_le_pow_right (by omega) (by omega)
  · rw [(maskRounds_start_tally w h d n).cursor]
    exact Nat.pow_le_pow_right (by omega) (hd.bitsTaken_le n)
  · exact ((maskRounds_start_tally w h d n).mask_lt a).trans_le (Nat.pow_le_pow_right (by omega) (hd.bitsTaken_le n))

end Sys2Proof.Machine
end

section
/-!
PROOFS. O20, the masks' properties (41_morton_order_encoder.md R88): on admitted dimensions they share out the low TB
bits, and no command raises INVARIANT.
-/

namespace Sys2Proof.Machine

open Host (Outcome)

/-! ### The masks of an admitted image -/

/-- The number of bits shared out is the number of times the cursor was moved, which is TB. -/
theorem genMasks_shares_tbits {w h d : Nat} (hd : DimsAdmitted w h d) :
    (genMasks w h d).Shares (clog2 w + clog2 h + clog2 d) := by
  obtain ⟨c, hc⟩ := genMasks_shares w h d
  have hcursor := hc.cursor.symm.trans (genMasks_tally hd).cursor
  rwa [Nat.pow_right_injective le_rfl hcursor] at hc

theorem MaskGen.Shares.disjoint {g : MaskGen} {c : Nat} (h : g.Shares c) {a a' : Axis} (hne : a' ≠ a) :
    g.mask a &&& g.mask a' = 0 := by
  refine Nat.eq_of_testBit_eq fun p => ?_
  rw [Nat.testBit_and, Nat.zero_testBit, ← Bool.not_eq_true, Bool.and_eq_true]
  exact fun ⟨ha, ha'⟩ => hne (h.axis_unique ha ha')

theorem MaskGen.Shares.union {g : MaskGen} {c : Nat} (h : g.Shares c) : g.mx ||| g.my ||| g.mz = 2 ^ c - 1 := by
  refine Nat.eq_of_testBit_eq fun p => Bool.eq_iff_iff.2 ?_
  have hunion : (g.mx ||| g.my ||| g.mz).testBit p = true ↔ ∃ a, (g.mask a).testBit p = true := by
    rw [exists_axis_iff, Nat.testBit_or, Nat.testBit_or, Bool.or_eq_true, Bool.or_eq_true, or_assoc]
    rfl
  rw [hunion, Nat.testBit_two_pow_sub_one, decide_eq_true_eq]
  constructor
  · rintro ⟨a, ha⟩
    by_contra hp
    rw [h.above p (not_lt.1 hp)] at ha
    cases ha
  · intro hp
    obtain ⟨a, ha⟩ := h.owner p hp
    exact ⟨a, by rw [ha, decide_eq_true_eq]⟩

/-! ### Commands and INVARIANT -/

theorem ErrCode.code_injective : Function.Injective ErrCode.code :=
  Function.LeftInverse.injective (g := fun k => ErrCode.ofNat k.toNat) fun c => by cases c <;> rfl

theorem mem_of_firstError {checks : List (Bool × ErrCode)} {c : ErrCode} (h : firstError checks = some c) :
    (true, c) ∈ checks := by
  induction checks with
  | nil => cases h
  | cons p checks ih =>
    obtain ⟨_ | _, c'⟩ := p
    · exact List.mem_cons_of_mem _ (ih h)
    · cases h
      exact List.mem_cons_self

/-- R87's check never fails, so the masks are always latched. -/
theorem latchMasks_eq (w h d : Nat) (rest : State → Outcome State Fault Refusal) (s : State) :
    latchMasks w h d rest s = rest (withMasks w h d s) :=
  if_pos (genMasks_invariant w h d)

/-- Every next state of the outcome has an error other than INVARIANT in ERR, and FATAL as in `s`. -/
def NoInvariant (s : State) (o : Outcome State Fault Refusal) : Prop :=
  ∀ t, o = .next t → t.status.err ≠ ErrCode.invariant.code ∧ t.status.fatal = s.status.fatal

section
variable {s t : State} {rest : State → Outcome State Fault Refusal}

theorem noInvariant_next {c : ErrCode} (hc : c ≠ .invariant) (herr : t.status.err = c.code)
    (hfatal : t.status.fatal = s.status.fatal) : NoInvariant s (.next t) := by
  rintro _ ⟨⟩
  exact ⟨herr ▸ ErrCode.code_injective.ne hc, hfatal⟩

theorem noInvariant_checkedBody {checks : List (Bool × ErrCode)} (hchecks : ∀ p ∈ checks, p.2 ≠ .invariant)
    (hfatal : t.status.fatal = s.status.fatal) (hrest : NoInvariant s (rest t)) :
    NoInvariant s (checkedBody checks rest t) := by
  rcases checkedBody_cases checks rest t with ⟨c, hc, h⟩ | ⟨-, h⟩ <;> rw [h]
  · exact noInvariant_next (hchecks _ (mem_of_firstError hc)) rfl hfatal
  · exact hrest

theorem noInvariant_memoryPhase (f : Footprint) (effect : Memory → Memory)
    (hfatal : t.status.fatal = s.status.fatal) : NoInvariant s (memoryPhase f effect t) := by
  rcases memoryPhase_cases f effect t with ⟨-, h⟩ | ⟨-, h⟩ | ⟨-, -, h⟩ <;> rw [h]
  · rintro _ ⟨⟩
  · exact noInvariant_next (c := .ok) (by decide) rfl hfatal
  · exact noInvariant_next (c := .bus) (by decide) rfl hfatal

end

/-- R88: whatever the registers hold, a command neither raises INVARIANT nor changes FATAL. -/
theorem noInvariant_exec (i : Instr) (s : State) : NoInvariant s (exec i s) := by
  cases hs : s.status.fatal with
  | true => rw [exec_halted i hs]; exact noInvariant_next (c := .halted) (by decide) rfl rfl
  | false =>
    cases i with
    | nop => rw [execNop_live hs]; exact noInvariant_next (c := .ok) (by decide) rfl rfl
    | permutePixel => rw [execPermutePixel_live hs]; exact noInvariant_next (c := .ok) (by decide) rfl rfl
    | genMasks =>
      rw [execGenMasks_live hs]
      refine noInvariant_checkedBody (by simp [dimChecks]) rfl ?_
      rw [latchMasks_eq]
      exact noInvariant_next (c := .ok) (by decide) rfl rfl
    | calcAddr =>
      rw [execCalcAddr_live hs]
      exact noInvariant_checkedBody (by simp [calcAddrChecks]) rfl
        (noInvariant_next (c := .ok) (by decide) rfl rfl)
    | transform =>
      rw [execTransform_live hs]
      refine noInvariant_checkedBody (by simp [transformChecks, dimChecks]) rfl ?_
      rw [latchMasks_eq]
      exact noInvariant_memoryPhase _ _ rfl
    | buildHeader =>
      rw [execBuildHeader_live hs]
      exact noInvariant_checkedBody (by simp [headerChecks]) rfl (noInvariant_memoryPhase _ _ rfl)

/-- Settles O20: every bit below TB has one owner and no other bit has any. -/
theorem masksPartitionTheLowBits : Obligations.MasksPartitionTheLowBits := by
  unfold Obligations.MasksPartitionTheLowBits
  refine ⟨fun w h d hd => ?_, noInvariant_exec⟩
  have hshares := genMasks_shares_tbits hd
  exact ⟨hshares.disjoint (a := .x) (a' := .y) (by decide), hshares.disjoint (a := .x) (a' := .z) (by decide),
    hshares.disjoint (a := .y) (a' := .z) (by decide), hshares.union, beq_iff_eq.1 (genMasks_invariant w h d)⟩

end Sys2Proof.Machine
end

section
/-!
PROOFS. O22, idempotence (41_morton_order_encoder.md R97): GEN_MASKS is decided by FATAL and the dimensions, which it
leaves as they are.
-/

namespace Sys2Proof.Machine

/-- All that can keep GEN_MASKS from its masks, in order: a halted SAC (R77), then the checks of R84. -/
def genMasksChecks (s : State) : List (Bool × ErrCode) :=
  (s.status.fatal, .halted) :: dimChecks s.regs.width.toNat s.regs.height.toNat s.regs.depth.toNat

/-- What a completed GEN_MASKS leaves (R84, R78). -/
def generated (s : State) : State :=
  finishOk (withMasks s.regs.width.toNat s.regs.height.toNat s.regs.depth.toNat (setLastOp 0x01 s))

theorem exec_genMasks_rejected {s : State} {c : ErrCode} (h : firstError (genMasksChecks s) = some c) :
    exec .genMasks s = .next (withOutcome s 0x01 c) := by
  unfold genMasksChecks at h
  cases hs : s.status.fatal with
  | true =>
    rw [hs, firstError_true] at h
    cases h
    exact exec_halted .genMasks hs
  | false =>
    rw [hs, firstError_false] at h
    rw [execGenMasks_live hs, checkedBody_some h]
    rfl

theorem exec_genMasks_generated {s : State} (h : firstError (genMasksChecks s) = none) :
    exec .genMasks s = .next (generated s) := by
  unfold genMasksChecks at h
  cases hs : s.status.fatal with
  | true => rw [hs, firstError_true] at h; cases h
  | false =>
    rw [hs, firstError_false] at h
    rw [execGenMasks_live hs, checkedBody_none h, latchMasks_eq]
    rfl

/-- Everything GEN_MASKS can do. -/
theorem exec_genMasks_cases {s t : State} (h : exec .genMasks s = .next t) :
    (∃ c, firstError (genMasksChecks s) = some c ∧ t = withOutcome s 0x01 c) ∨
    (firstError (genMasksChecks s) = none ∧ t = generated s) := by
  cases hc : firstError (genMasksChecks s) with
  | some c =>
    rw [exec_genMasks_rejected hc] at h
    cases h
    exact .inl ⟨c, rfl, rfl⟩
  | none =>
    rw [exec_genMasks_generated hc] at h
    cases h
    exact .inr ⟨rfl, rfl⟩

theorem eq_generated_of_ok {s t : State} (h : exec .genMasks s = .next t) (hok : t.status.err = 0x00) :
    t = generated s := by
  rcases exec_genMasks_cases h with ⟨c, hc, rfl⟩ | ⟨-, ht⟩
  · have hne : ∀ p ∈ genMasksChecks s, p.2 ≠ .ok := by simp [genMasksChecks, dimChecks]
    exact absurd hok (ErrCode.code_injective.ne (a₂ := .ok) (hne _ (mem_of_firstError hc)))
  · exact ht

/-- GEN_MASKS on a state it has left: the same checks decide, with the same result. -/
theorem exec_genMasks_idem {s t : State} (h : exec .genMasks s = .next t) : exec .genMasks t = .next t := by
  rcases exec_genMasks_cases h with ⟨c, hc, rfl⟩ | ⟨hc, rfl⟩
  · have hsame : genMasksChecks (withOutcome s 0x01 c) = genMasksChecks s := rfl
    exact exec_genMasks_rejected (hsame ▸ hc)
  · have hsame : genMasksChecks (generated s) = genMasksChecks s := rfl
    exact exec_genMasks_generated (hsame ▸ hc)

/-- Settles O22: a GEN_MASKS that ends with OK leaves `generated`, whose masks and TBITS speak of dimensions alone. -/
theorem genMasksIsIdempotent : Obligations.GenMasksIsIdempotent := by
  unfold Obligations.GenMasksIsIdempotent
  refine ⟨fun s s' t t' hw hh hd ht ht' hok hok' => ?_, fun _ _ => exec_genMasks_idem⟩
  obtain rfl := eq_generated_of_ok ht hok
  obtain rfl := eq_generated_of_ok ht' hok'
  simp only [generated, finishOk_regs, finishOk_status, withMasks, setMasksValid_regs, setMasksValid_status, hw, hh, hd,
    and_self, setLastOp_regs, setLastOp_status]

end Sys2Proof.Machine
end

section
/-!
PROOFS. O25, Scatter through one mask (41_morton_order_encoder.md R92), and O27, the bijection for powers of two (R93):
Scatter and Gather undo each other, and the masks share out every bit below TB.
-/

namespace Sys2Proof.Machine

/-! ### Scatter and Gather -/

theorem lt_of_testBit {mask c p : Nat} (hm : mask < 2 ^ c) (hp : mask.testBit p = true) : p < c :=
  (Nat.pow_lt_pow_iff_right (by omega)).1 ((Nat.ge_two_pow_of_testBit hp).trans_lt hm)

/-- The value bit a mask bit takes. -/
theorem testBit_scatter_of_testBit {mask p : Nat} (hm : mask < 2 ^ 32) (hp : mask.testBit p = true) (v : Nat) :
    (scatter mask v).testBit p = v.testBit (rank mask p) := by
  rw [testBit_scatter, hp, decide_eq_true (lt_of_testBit hm hp), Bool.true_and, Bool.true_and]

theorem testBit_scatter_of_not_testBit {mask p : Nat} (hp : mask.testBit p = false) (v : Nat) :
    (scatter mask v).testBit p = false := by
  rw [testBit_scatter, hp, Bool.and_false, Bool.false_and]

/-- Scatter stays inside its mask. -/
theorem testBit_of_testBit_scatter {mask v p : Nat} (h : (scatter mask v).testBit p = true) :
    mask.testBit p = true := by
  by_contra hp
  rw [testBit_scatter_of_not_testBit (by simpa using hp)] at h
  cases h

@[simp] theorem scatter_zero_mask (v : Nat) : scatter 0 v = 0 :=
  Nat.eq_of_testBit_eq fun p => by simp [testBit_scatter]

theorem scatter_ones {mask : Nat} (hm : mask < 2 ^ 32) : scatter mask (2 ^ popcount mask - 1) = mask := by
  refine Nat.eq_of_testBit_eq fun p => ?_
  cases hp : mask.testBit p with
  | false => exact testBit_scatter_of_not_testBit hp _
  | true =>
    rw [testBit_scatter_of_testBit hm hp, Nat.testBit_two_pow_sub_one,
      decide_eq_true (rank_lt_popcount (lt_of_testBit hm hp) hp)]

theorem gather_lt (mask m : Nat) : gather mask m < 2 ^ popcount mask := by
  refine Nat.lt_pow_two_of_testBit _ fun i hi => ?_
  by_contra hbit
  obtain ⟨p, hp, hmask, rfl, -⟩ := (testBit_gather mask m i).1 (by simpa using hbit)
  exact (rank_lt_popcount hp hmask).not_ge hi

/-- Scatter puts back the bits Gather collected. -/
theorem testBit_scatter_gather {mask p : Nat} (hm : mask < 2 ^ 32) (hp : mask.testBit p = true) (m : Nat) :
    (scatter mask (gather mask m)).testBit p = m.testBit p := by
  rw [testBit_scatter_of_testBit hm hp, Bool.eq_iff_iff, testBit_gather]
  constructor
  · rintro ⟨q, -, hq, hrank, hbit⟩
    rwa [rank_inj hq hp hrank] at hbit
  · exact fun hbit => ⟨p, lt_of_testBit hm hp, hp, rfl, hbit⟩

/-- Settles O25: injectivity is Gather's being a left inverse. -/
theorem scatterIsInjectiveInsideTheMask : Obligations.ScatterIsInjectiveInsideTheMask := by
  unfold Obligations.ScatterIsInjectiveInsideTheMask
  refine fun mask hm => ⟨fun v _ p => testBit_of_testBit_scatter, fun v v' hv hv' heq => ?_, scatter_zero mask,
    scatter_zero_mask, scatter_ones hm⟩
  rw [← gather_scatter hv, heq, gather_scatter hv']

/-! ### The Morton index of an admitted image -/

/-- The masks fit their registers. -/
theorem genMasks_mask_lt_word {w h d : Nat} (hd : DimsAdmitted w h d) (a : Axis) :
    (genMasks w h d).mask a < 2 ^ 32 := by
  have ⟨_, _, _, hsum⟩ := hd
  exact (genMasks_mask_lt hd a).trans_le (Nat.pow_le_pow_right (by omega) (by omega))

/-- R94: an index lies below 2^TB. -/
theorem genMasks_index_lt {w h d : Nat} (hd : DimsAdmitted w h d) (v : Axis → Nat) :
    (genMasks w h d).index v < 2 ^ (clog2 w + clog2 h + clog2 d) :=
  have hlt (a : Axis) := scatter_lt_two_pow (genMasks_mask_lt hd a) (v a)
  Nat.or_lt_two_pow (Nat.or_lt_two_pow (hlt .x) (hlt .y)) (hlt .z)

/-- R96: every number below 2^TB is the index of what is gathered from it. -/
theorem genMasks_index_gather {w h d n : Nat} (hd : DimsAdmitted w h d)
    (hn : n < 2 ^ (clog2 w + clog2 h + clog2 d)) :
    (genMasks w h d).index (fun a => gather ((genMasks w h d).mask a) n) = n := by
  have hmask (a : Axis) := genMasks_mask_lt_word hd a
  refine Nat.eq_of_testBit_eq fun p => Bool.eq_iff_iff.2 ?_
  rw [testBit_index]
  constructor
  · rintro ⟨a, hbit⟩
    rwa [testBit_scatter_gather (hmask a) (testBit_of_testBit_scatter hbit)] at hbit
  · intro hbit
    obtain ⟨a, howner⟩ := (genMasks_shares_tbits hd).owner p (lt_of_testBit hn hbit)
    exact ⟨a, by rwa [testBit_scatter_gather (hmask a) (by rw [howner, decide_eq_true_eq])]⟩

/-- R84 admits the powers of two of R93. -/
theorem dimsAdmitted_two_pow {a b c : Nat} (h : a + b + c ≤ 30) : DimsAdmitted (2 ^ a) (2 ^ b) (2 ^ c) :=
  ⟨Nat.one_le_two_pow, Nat.one_le_two_pow, Nat.one_le_two_pow, by simpa only [clog2_two_pow] using h⟩

theorem lt_extent {x y z w h d : Nat} (hx : x < w) (hy : y < h) (hz : z < d) (a : Axis) :
    extent x y z a < extent w h d a := by
  cases a
  exacts [hx, hy, hz]

/-- Settles O27: onto by Gather, whose values are coordinates where the extents are powers of two. -/
theorem mortonIsABijectionForPowersOfTwo : Obligations.MortonIsABijectionForPowersOfTwo := by
  unfold Obligations.MortonIsABijectionForPowersOfTwo
  intro a b c habc
  have hd := dimsAdmitted_two_pow habc
  have hsize : 2 ^ a * 2 ^ b * 2 ^ c = 2 ^ (clog2 (2 ^ a) + clog2 (2 ^ b) + clog2 (2 ^ c)) := by
    rw [clog2_two_pow, clog2_two_pow, clog2_two_pow, pow_add, pow_add]
  refine ⟨fun x y z _ _ _ => hsize ▸ genMasks_index_lt hd (extent x y z), ?_, fun n hn => ?_⟩
  · intro x y z x' y' z' hx hy hz hx' hy' hz' heq
    have hcoord : extent x y z = extent x' y' z' :=
      genMasks_index_inj hd (lt_extent hx hy hz) (lt_extent hx' hy' hz') heq
    exact ⟨congrFun hcoord .x, congrFun hcoord .y, congrFun hcoord .z⟩
  · have hlt (e : Axis) := gather_lt ((genMasks (2 ^ a) (2 ^ b) (2 ^ c)).mask e) n
    simp only [popcount_genMasks_mask hd] at hlt
    refine ⟨_, _, _, ?_, ?_, ?_, genMasks_index_gather hd (hsize ▸ hn)⟩
    · simpa only [extent, clog2_two_pow] using hlt .x
    · simpa only [extent, clog2_two_pow] using hlt .y
    · simpa only [extent, clog2_two_pow] using hlt .z

end Sys2Proof.Machine
end

section
/-!
PROOFS. O21, the closed form of the masks (41_morton_order_encoder.md R89): in round r an axis finds the cursor at
P(a, r), so its mask is the sum of those positions. O23, unit extents (R98).
-/

namespace Sys2Proof.Machine

/-! ### Masks given by the positions of their bits -/

/-- The mask with bits at the first `n` of the positions. -/
def maskAt (pos : Nat → Nat) (n : Nat) : Nat := ((List.range n).map fun r => 2 ^ pos r).sum

theorem maskAt_succ (pos : Nat → Nat) (n : Nat) : maskAt pos (n + 1) = maskAt pos n + 2 ^ pos n := by
  simp [maskAt, List.range_succ]

section
variable {pos : Nat → Nat} {n : Nat}

theorem maskAt_lt (hpos : ∀ r, r < n → pos r < pos (r + 1)) : maskAt pos n < 2 ^ pos n := by
  induction n with
  | zero => exact Nat.two_pow_pos _
  | succ n ih =>
    have hlow := ih fun r hr => hpos r (hr.trans n.lt_succ_self)
    calc maskAt pos (n + 1) < 2 ^ (pos n + 1) := by rw [maskAt_succ, pow_succ]; omega
      _ ≤ 2 ^ pos (n + 1) := Nat.pow_le_pow_right (by omega) (hpos n n.lt_succ_self)

theorem maskAt_succ_or (hpos : ∀ r, r < n → pos r < pos (r + 1)) :
    maskAt pos (n + 1) = maskAt pos n ||| 2 ^ pos n := by
  have hor := Nat.two_pow_add_eq_or_of_lt (maskAt_lt hpos) 1
  rw [mul_one] at hor
  rw [maskAt_succ, Nat.add_comm, hor, Nat.or_comm]

theorem testBit_maskAt (hpos : ∀ r, r < n → pos r < pos (r + 1)) {p : Nat} :
    (maskAt pos n).testBit p = true ↔ ∃ r, r < n ∧ pos r = p := by
  induction n with
  | zero => simp [maskAt]
  | succ n ih =>
    have hlow : ∀ r, r < n → pos r < pos (r + 1) := fun r hr => hpos r (hr.trans n.lt_succ_self)
    rw [maskAt_succ_or hlow, Nat.testBit_or, Bool.or_eq_true, ih hlow, Nat.testBit_two_pow, decide_eq_true_eq,
      Nat.exists_lt_succ_right]

theorem pos_le {r : Nat} (hpos : ∀ r, r < n → pos r < pos (r + 1)) (hr : r ≤ n) : pos r ≤ pos n := by
  induction hr with
  | refl => exact le_rfl
  | @step n _ ih => exact (ih fun s hs => hpos s (hs.trans n.lt_succ_self)).trans (hpos n n.lt_succ_self).le

/-- A mask bit does not count towards the positions up to its own. -/
theorem rank_or_two_pow_of_le {m c p : Nat} (h : p ≤ c) : rank (m ||| 2 ^ c) p = rank m p :=
  rank_congr fun q hq => by rw [Nat.testBit_or, Nat.testBit_two_pow_of_ne (by omega), Bool.or_false]

/-- The `r`-th position is where the bit of rank `r` is. -/
theorem rank_maskAt {r : Nat} (hpos : ∀ r, r < n → pos r < pos (r + 1)) (hr : r ≤ n) :
    rank (maskAt pos n) (pos r) = r := by
  induction n generalizing r with
  | zero =>
    obtain rfl : r = 0 := by omega
    exact rank_of_lt (m := 0) (c := 0) (by omega) (Nat.zero_le _)
  | succ n ih =>
    have hlow : ∀ r, r < n → pos r < pos (r + 1) := fun r hr => hpos r (hr.trans n.lt_succ_self)
    rw [maskAt_succ_or hlow]
    rcases hr.lt_or_eq with hlt | rfl
    · have hle : r ≤ n := Nat.le_of_lt_succ hlt
      rw [rank_or_two_pow_of_le (pos_le hlow hle), ih hlow hle]
    · have hpow : 2 ^ pos n < 2 ^ (pos n + 1) := Nat.pow_lt_pow_right (by omega) (by omega)
      have htop : maskAt pos n ||| 2 ^ pos n < 2 ^ (pos n + 1) :=
        Nat.or_lt_two_pow ((maskAt_lt hlow).trans hpow) hpow
      rw [rank_of_lt htop (hpos n n.lt_succ_self), rank_or_two_pow, ih hlow le_rfl]

end

/-! ### The positions of R89 -/

/-- The bits three axes have together after `r` rounds are those given in each of the rounds. -/
theorem bitsTaken_eq_sum (b : Axis → Nat) (r : Nat) :
    bitsTaken (fun a => min r (b a)) = ((List.range r).map (axesAbove b)).sum := by
  induction r with
  | zero => simp [bitsTaken]
  | succ r ih =>
    have hround : axesAbove b r = bitsTaken fun a => if r < b a then 1 else 0 := by
      rw [axesAbove, ← List.countP_eq_length_filter]
      simp [List.countP_cons, bitsTaken, Nat.add_comm, Nat.add_left_comm]
    rw [List.range_succ, List.map_append, List.sum_append, ← ih, List.map_singleton, List.sum_singleton, hround]
    simp only [bitsTaken]
    split_ifs <;> omega

/-- `P(a, r)`: the bits given before round `r`, and in it to the axes before `a`. -/
theorem maskPosition_eq (b : Axis → Nat) (a : Axis) (r : Nat) :
    maskPosition b a r =
      bitsTaken (fun a' => min r (b a')) + ((axesBefore a).filter fun a' => r < b a').length := by
  rw [maskPosition, bitsTaken_eq_sum]

/-- While an axis has bits to come, they come at rising positions. -/
theorem maskPosition_lt_succ {b : Axis → Nat} {a : Axis} {r : Nat} (hr : r < b a) :
    maskPosition b a r < maskPosition b a (r + 1) := by
  have hround : ((axesBefore a).filter fun a' => r < b a').length < axesAbove b r := by
    have hturns : (axesBefore a ++ [a]).Sublist [.x, .y, .z] := by cases a <;> decide
    have hlen := (hturns.filter fun a' => r < b a').length_le
    rwa [List.filter_append, List.filter_singleton, decide_eq_true hr, List.length_append] at hlen
  simp only [maskPosition, List.range_succ, List.map_append, List.sum_append, List.map_singleton, List.sum_singleton]
  omega

/-! ### What a round does to the masks -/

theorem axisTurn_mask (a : Axis) (e : Nat) (p : MaskGen × Bool) (a' : Axis) :
    (axisTurn a e p).1.mask a' =
      if a' = a ∧ p.1.bit < e then p.1.mask a' ||| p.1.cursor else p.1.mask a' := by
  by_cases h : p.1.bit < e
  · simp [axisTurn_take h, MaskGen.take_mask, h]
  · simp [axisTurn_skip h, h]

theorem axisTurn_cursor (a : Axis) (e : Nat) (p : MaskGen × Bool) :
    (axisTurn a e p).1.cursor = p.1.cursor <<< if p.1.bit < e then 1 else 0 := by
  by_cases h : p.1.bit < e
  · simp [axisTurn_take h, h]
  · simp [axisTurn_skip h, h]

/-- In a round an axis that makes progress takes the cursor's bit after the axes before it have taken theirs. -/
theorem maskRound_mask (w h d : Nat) (g : MaskGen) (a : Axis) :
    (maskRound w h d g).1.mask a = if g.bit < extent w h d a then
      g.mask a ||| g.cursor <<< ((axesBefore a).filter fun a' => g.bit < extent w h d a').length else g.mask a := by
  have hturns : (maskRound w h d g).1.mask a = (axisTurn .z (extent w h d .z) (axisTurn .y (extent w h d .y)
      (axisTurn .x (extent w h d .x) (g, false)))).1.mask a := MaskGen.mask_withBit _ _ _
  rw [hturns, ← List.countP_eq_length_filter]
  cases a <;>
    simp [axisTurn_mask, axisTurn_cursor, axesBefore, List.countP_cons, Nat.add_comm, Nat.shiftLeft_add]

/-! ### The masks after the rounds -/

theorem roundsFrom_start_tally (w h d k : Nat) :
    (roundsFrom w h d k MaskGen.start).Tally (bitsAfter w h d k) := by
  induction k with
  | zero => exact maskRounds_start_tally w h d 0
  | succ k ih =>
    rw [roundsFrom_succ]
    exact ih.maskRound (by rw [roundsFrom_bit (r := 0) rfl, Nat.zero_add])

/-- The bits R89 gives each axis of an image. -/
def axisBits (w h d : Nat) (a : Axis) : Nat := clog2 (extent w h d a)

theorem two_pow_lt_extent_iff {w h d r : Nat} {a : Axis} : 2 ^ r < extent w h d a ↔ r < axisBits w h d a :=
  (lt_clog2_iff _ _).symm

/-- R89 for the first `k` rounds. -/
theorem roundsFrom_start_mask (w h d k : Nat) (a : Axis) :
    (roundsFrom w h d k MaskGen.start).mask a =
      maskAt (maskPosition (axisBits w h d) a) (min k (axisBits w h d a)) := by
  induction k with
  | zero => rw [Nat.zero_min]; cases a <;> rfl
  | succ k ih =>
    have hbit : (roundsFrom w h d k MaskGen.start).bit = 2 ^ k := by rw [roundsFrom_bit (r := 0) rfl, Nat.zero_add]
    rw [roundsFrom_succ, maskRound_mask, ih, hbit, (roundsFrom_start_tally w h d k).cursor]
    simp only [two_pow_lt_extent_iff]
    split_ifs with hk
    · have hor := maskAt_succ_or (pos := maskPosition (axisBits w h d) a) (n := k)
        fun r hr => maskPosition_lt_succ (Nat.lt_trans hr hk)
      rw [Nat.min_eq_left hk.le, Nat.min_eq_left hk, hor, Nat.shiftLeft_eq, ← pow_add, maskPosition_eq]
      rfl
    · rw [show min (k + 1) (axisBits w h d a) = min k (axisBits w h d a) by omega]

/-- R89's closed form for any extents, the loop's bound included. -/
theorem genMasks_mask_eq (w h d : Nat) (a : Axis) :
    (genMasks w h d).mask a = maskAt (maskPosition (axisBits w h d) a) (min 33 (axisBits w h d a)) := by
  have hle : axisBits w h d a ≤ longestBits w h d := clog2_le_longestBits w h d a
  rw [genMasks, maskRounds_start, roundsFrom_start_mask]
  congr 1
  omega

section
variable {w h d : Nat}

theorem genMasks_mask_of_admitted (hd : DimsAdmitted w h d) (a : Axis) :
    (genMasks w h d).mask a = maskAt (maskPosition (axisBits w h d) a) (axisBits w h d a) := by
  have hle : axisBits w h d a ≤ 30 := (clog2_le_longestBits w h d a).trans hd.longestBits_le
  rw [genMasks_mask_eq, Nat.min_eq_right (by omega)]

/-- An admitted axis' bits are those at its positions. -/
theorem testBit_genMasks_mask (hd : DimsAdmitted w h d) {a : Axis} {p : Nat} :
    ((genMasks w h d).mask a).testBit p = true ↔
      ∃ r, r < axisBits w h d a ∧ maskPosition (axisBits w h d) a r = p := by
  rw [genMasks_mask_of_admitted hd, testBit_maskAt fun _ => maskPosition_lt_succ]

/-- R89: coordinate bit `r` of an axis lands at `P(a, r)`. -/
theorem testBit_scatter_maskPosition (hd : DimsAdmitted w h d) {a : Axis} {r : Nat} (hr : r < axisBits w h d a)
    (v : Nat) :
    (scatter ((genMasks w h d).mask a) v).testBit (maskPosition (axisBits w h d) a r) = v.testBit r := by
  have hbit := (testBit_genMasks_mask hd).2 ⟨r, hr, rfl⟩
  rw [testBit_scatter_of_testBit (genMasks_mask_lt_word hd a) hbit, genMasks_mask_of_admitted hd,
    rank_maskAt (fun _ => maskPosition_lt_succ) hr.le]

end

/-- Settles O21: the masks after the last round, and the rank of the bit at `P(a, r)`. -/
theorem masksHaveTheClosedForm : Obligations.MasksHaveTheClosedForm := by
  unfold Obligations.MasksHaveTheClosedForm
  exact fun w h d hd a => ⟨genMasks_mask_of_admitted hd a, popcount_genMasks_mask hd a,
    fun r hr => testBit_scatter_maskPosition hd hr⟩

/-- Settles O23: an axis of extent 1 has no bits in the closed form. -/
theorem unitExtentsHaveNoMask : Obligations.UnitExtentsHaveNoMask := by
  unfold Obligations.UnitExtentsHaveNoMask
  have hunit : ∀ w h d a, extent w h d a = 1 → (genMasks w h d).mask a = 0 := fun w h d a ha => by
    rw [genMasks_mask_eq, axisBits, ha]
    rfl
  exact ⟨hunit 1 1 1 .x rfl, hunit 1 1 1 .y rfl, hunit 1 1 1 .z rfl, by decide, hunit, scatter_zero_mask⟩

end Sys2Proof.Machine
end

section
/-!
PROOFS. O24, the square image (41_morton_order_encoder.md R99): with as many x bits as y bits and no z bits, the closed
form puts x at the even positions and y at the odd ones.
-/

namespace Sys2Proof.Machine

section
variable {k : Nat} {a : Axis}

theorem dimsAdmitted_square (hk : k ≤ 15) : DimsAdmitted (2 ^ k) (2 ^ k) 1 :=
  dimsAdmitted_two_pow (a := k) (b := k) (c := 0) (by omega)

@[simp] theorem axisBits_square_z : axisBits (2 ^ k) (2 ^ k) 1 .z = 0 := clog2_two_pow 0

theorem axisBits_square (ha : a ≠ .z) : axisBits (2 ^ k) (2 ^ k) 1 a = k := by
  cases a
  exacts [clog2_two_pow k, clog2_two_pow k, absurd rfl ha]

theorem maskPosition_square {r : Nat} (ha : a ≠ .z) (hr : r < k) :
    maskPosition (axisBits (2 ^ k) (2 ^ k) 1) a r = 2 * r + (axesBefore a).length := by
  rw [maskPosition_eq]
  cases a <;> simp_all [bitsTaken, axisBits_square, axesBefore] <;> omega

theorem length_axesBefore_lt (ha : a ≠ .z) : (axesBefore a).length < 2 := by
  cases a
  exacts [Nat.two_pos, Nat.one_lt_two, absurd rfl ha]

/-- R99: x has the even bits below 2k, y the odd ones. -/
theorem testBit_square_mask (hk : k ≤ 15) (ha : a ≠ .z) (p : Nat) :
    ((genMasks (2 ^ k) (2 ^ k) 1).mask a).testBit p = decide (p % 2 = (axesBefore a).length ∧ p < 2 * k) := by
  have hlane := length_axesBefore_lt ha
  rw [Bool.eq_iff_iff, decide_eq_true_eq, testBit_genMasks_mask (dimsAdmitted_square hk), axisBits_square ha]
  constructor
  · rintro ⟨r, hr, rfl⟩
    rw [maskPosition_square ha hr]
    omega
  · rintro ⟨hmod, hp⟩
    exact ⟨p / 2, by omega, by rw [maskPosition_square ha (by omega)]; omega⟩

/-- R99: coordinate bit `i` lands at bit `i` of the axis' positions, even or odd. -/
theorem testBit_scatter_square (hk : k ≤ 15) (ha : a ≠ .z) {v : Nat} (hv : v < 2 ^ k) (i : Nat) :
    (scatter ((genMasks (2 ^ k) (2 ^ k) 1).mask a) v).testBit (2 * i + (axesBefore a).length) = v.testBit i := by
  by_cases hi : i < k
  · rw [← maskPosition_square ha hi]
    exact testBit_scatter_maskPosition (dimsAdmitted_square hk) (by rwa [axisBits_square ha]) v
  · have hv' : v.testBit i = false :=
      Nat.testBit_lt_two_pow (hv.trans_le (Nat.pow_le_pow_right (by omega) (not_lt.1 hi)))
    have hmask : ((genMasks (2 ^ k) (2 ^ k) 1).mask a).testBit (2 * i + (axesBefore a).length) = false := by
      rw [testBit_square_mask hk ha, decide_eq_false_iff_not]
      omega
    rw [testBit_scatter_of_not_testBit hmask, hv']

/-- An axis puts nothing at the other axis' positions. -/
theorem testBit_scatter_square_ne (hk : k ≤ 15) (ha : a ≠ .z) {p : Nat} (hp : p % 2 ≠ (axesBefore a).length) (v : Nat) :
    (scatter ((genMasks (2 ^ k) (2 ^ k) 1).mask a) v).testBit p = false := by
  refine testBit_scatter_of_not_testBit ?_ v
  rw [testBit_square_mask hk ha, decide_eq_false_iff_not]
  exact fun ⟨hmod, _⟩ => hp hmod

end

/-- Settles O24: the two axes' bits side by side, and the masks of the deployment size by evaluation. -/
theorem squareImagesInterleave : Obligations.SquareImagesInterleave := by
  unfold Obligations.SquareImagesInterleave
  refine ⟨fun k hk => ⟨testBit_square_mask (a := .x) hk (by decide), testBit_square_mask (a := .y) hk (by decide), ?_,
    fun x y hx hy i => ⟨?_, ?_⟩⟩, by decide⟩
  · have hz := genMasks_mask_of_admitted (dimsAdmitted_square hk) .z
    rwa [axisBits_square_z] at hz
  · have hxbit : (scatter (genMasks (2 ^ k) (2 ^ k) 1).mx x).testBit (2 * i) = x.testBit i :=
      testBit_scatter_square (a := .x) hk (by decide) hx i
    have hybit : (scatter (genMasks (2 ^ k) (2 ^ k) 1).my y).testBit (2 * i) = false :=
      testBit_scatter_square_ne (a := .y) hk (by decide) (by simp [axesBefore]) y
    simp [morton, hxbit, hybit]
  · have hxbit : (scatter (genMasks (2 ^ k) (2 ^ k) 1).mx x).testBit (2 * i + 1) = false :=
      testBit_scatter_square_ne (a := .x) hk (by decide) (by simp [axesBefore]) x
    have hybit : (scatter (genMasks (2 ^ k) (2 ^ k) 1).my y).testBit (2 * i + 1) = y.testBit i :=
      testBit_scatter_square (a := .y) hk (by decide) hy i
    simp [morton, hxbit, hybit]

end Sys2Proof.Machine
end

section
/-!
PROOFS. O32, the destination offset (42_swizzle_address_calculator.md R101): masks that partition the low TBITS bits
keep the Morton index below 2^TBITS, so four times the index fits its register.
-/

namespace Sys2Proof.Machine

/-- What a completed CALC_ADDR leaves (R100, R78). -/
def calculated (s : State) : State := finishOk (writeOffsets (setLastOp 0x02 s))

theorem exec_calcAddr_calculated {s : State} (hs : s.status.fatal = false) (h : CoordAdmitted s) :
    exec .calcAddr s = .next (calculated s) := by
  rw [execCalcAddr_live hs, checkedBody_none ((calcAddrChecks_none_iff s).2 h)]
  rfl

/-! ### The index and the two offsets as numbers -/

theorem toNat_ofNat_of_lt {w n : Nat} (h : n < 2 ^ w) : (BitVec.ofNat w n).toNat = n :=
  (BitVec.toNat_ofNat n w).trans (Nat.mod_eq_of_lt h)

/-- R91 on masks that partition the low TBITS bits: no axis scatters a bit above them. -/
theorem MasksPartition.coordMorton_lt {s : State} (h : MasksPartition s) :
    coordMorton s < 2 ^ s.status.tbits.toNat := by
  have hunion : s.regs.maskX.toNat ||| s.regs.maskY.toNat ||| s.regs.maskZ.toNat < 2 ^ s.status.tbits.toNat := by
    rw [← BitVec.toNat_or, ← BitVec.toNat_or, h.union]
    exact Nat.sub_one_lt (Nat.two_pow_pos _).ne'
  have hxy := Nat.left_le_or.trans_lt hunion
  exact Nat.or_lt_two_pow
    (Nat.or_lt_two_pow (scatter_lt_two_pow (Nat.left_le_or.trans_lt hxy) _)
      (scatter_lt_two_pow (Nat.right_le_or.trans_lt hxy) _))
    (scatter_lt_two_pow (Nat.right_le_or.trans_lt hunion) _)

/-- R101: the index of such masks is below 2^30. -/
theorem MasksPartition.coordMorton_lt_two_pow_thirty {s : State} (h : MasksPartition s) : coordMorton s < 2 ^ 30 :=
  h.coordMorton_lt.trans_le (Nat.pow_le_pow_right (by omega) h.tbits)

theorem MasksPartition.mortonIndex_toNat {s : State} (h : MasksPartition s) :
    (calculated s).regs.mortonIndex.toNat = coordMorton s :=
  toNat_ofNat_of_lt (h.coordMorton_lt_two_pow_thirty.trans (by decide))

theorem MasksPartition.dstOffset_toNat {s : State} (h : MasksPartition s) :
    (calculated s).regs.dstOffset.toNat = 4 * coordMorton s := by
  have hfits : 4 * coordMorton s < 2 ^ 32 := by
    have := h.coordMorton_lt_two_pow_thirty
    omega
  exact toNat_ofNat_of_lt hfits

/-- R102: an admitted coordinate's source offset fits its register. -/
theorem CoordAdmitted.srcOffset_toNat {s : State} (h : CoordAdmitted s) :
    (calculated s).regs.srcOffset.toNat =
      sourceOffset s.regs.rowPitch.toNat s.regs.coordX.toNat s.regs.coordY.toNat :=
  toNat_ofNat_of_lt (Nat.lt_of_le_of_lt h.offset (by decide))

/-- Settles O32: the index is below 2^TBITS, hence below 2^30. -/
theorem destinationOffsetNeedsNoRangeCheck : Obligations.DestinationOffsetNeedsNoRangeCheck := by
  unfold Obligations.DestinationOffsetNeedsNoRangeCheck
  intro s t hmasks hs hcoord ht
  rw [exec_calcAddr_calculated hs hcoord] at ht
  cases ht
  have hlt := hmasks.coordMorton_lt_two_pow_thirty
  rw [hmasks.mortonIndex_toNat, hmasks.dstOffset_toNat]
  exact ⟨rfl, hmasks.coordMorton_lt, hmasks.tbits, rfl, by omega⟩

end Sys2Proof.Machine
end

section
/-!
PROOFS. O39, CALC_ADDR and TRANSFORM agree (42_swizzle_address_calculator.md R103): GEN_MASKS latches the masks
TRANSFORM makes for itself, CALC_ADDR admits every pixel TRANSFORM copies, and its two offsets are the addresses of one
pixel of CopyAll.
-/

namespace Sys2Proof.Machine

/-! ### The masks GEN_MASKS latches -/

theorem popcount_two_pow_sub_one {c : Nat} (hc : c ≤ 32) : popcount (2 ^ c - 1) = c := by
  have hbits : (2 ^ c - 1).testBit = fun p => decide (p < c) := funext fun p => Nat.testBit_two_pow_sub_one c p
  rw [popcount, hbits, length_filter_lt_range, Nat.min_eq_right hc]

/-- R26, R69: latched masks partition the low TB bits. -/
theorem masksPartition_withMasks {w h d : Nat} (hd : DimsAdmitted w h d) (s : State) :
    MasksPartition (withMasks w h d s) := by
  have hshares := genMasks_shares_tbits hd
  have ⟨_, _, _, hsum⟩ := hd
  have hdisjoint {a a' : Axis} (hne : a' ≠ a) :
      BitVec.ofNat 32 ((genMasks w h d).mask a) &&& BitVec.ofNat 32 ((genMasks w h d).mask a') = 0 := by
    rw [← BitVec.ofNat_and, hshares.disjoint hne]
    rfl
  have htbits : (withMasks w h d s).status.tbits.toNat = clog2 w + clog2 h + clog2 d := by
    simp only [withMasks, setMasksValid_status, hshares.union, popcount_two_pow_sub_one (hsum.trans (by omega))]
    exact toNat_ofNat_of_lt (by omega)
  refine ⟨htbits.trans_le hsum, hdisjoint (a := .x) (a' := .y) (by decide),
    hdisjoint (a := .x) (a' := .z) (by decide), hdisjoint (a := .y) (a' := .z) (by decide), ?_⟩
  have hfits : 2 ^ (clog2 w + clog2 h + clog2 d) - 1 < 2 ^ 32 :=
    (Nat.sub_le _ _).trans_lt (Nat.pow_lt_pow_right (by omega) (by omega))
  rw [htbits]
  simp only [withMasks, setMasksValid_regs]
  rw [← BitVec.ofNat_or, ← BitVec.ofNat_or, hshares.union, toNat_ofNat_of_lt hfits]

/-- The mask registers hold the generator's masks. -/
theorem withMasks_masks_toNat {w h d : Nat} (hd : DimsAdmitted w h d) (s : State) :
    (withMasks w h d s).regs.maskX.toNat = (genMasks w h d).mx ∧
    (withMasks w h d s).regs.maskY.toNat = (genMasks w h d).my ∧
    (withMasks w h d s).regs.maskZ.toNat = (genMasks w h d).mz :=
  have htoNat (a : Axis) := toNat_ofNat_of_lt (genMasks_mask_lt_word hd a)
  ⟨htoNat .x, htoNat .y, htoNat .z⟩

/-! ### The pixel CALC_ADDR is asked for -/

/-- The state with the coordinate registers written (R27). -/
def atCoord (x y z : Word) (s : State) : State :=
  { s with regs := { s.regs with coordX := x, coordY := y, coordZ := z } }

section
variable {s : State} {x y z : Word}

theorem MasksPartition.atCoord (h : MasksPartition s) : MasksPartition (atCoord x y z s) :=
  ⟨h.tbits, h.xy, h.xz, h.yz, h.union⟩

theorem masksPartition_generated (hd : DimsAdmitted s.regs.width.toNat s.regs.height.toNat s.regs.depth.toNat) :
    MasksPartition (generated s) :=
  have ⟨htbits, hxy, hxz, hyz, hunion⟩ := masksPartition_withMasks hd (setLastOp 0x01 s)
  ⟨htbits, hxy, hxz, hyz, hunion⟩

/-- R91 on the masks GEN_MASKS has left in the registers. -/
theorem coordMorton_atCoord_generated
    (hd : DimsAdmitted s.regs.width.toNat s.regs.height.toNat s.regs.depth.toNat) :
    coordMorton (atCoord x y z (generated s)) =
      (genMasks s.regs.width.toNat s.regs.height.toNat s.regs.depth.toNat).index
        (extent x.toNat y.toNat z.toNat) := by
  obtain ⟨hx, hy, hz⟩ := withMasks_masks_toNat hd (setLastOp 0x01 s)
  simp only [MaskGen.index, ← hx, ← hy, ← hz]
  rfl

end

/-! ### GEN_MASKS and CALC_ADDR from the registers of an admitted TRANSFORM -/

section
variable {s : State} {x y : Word}

theorem TransformAdmitted.dims_depth (h : TransformAdmitted s) :
    DimsAdmitted s.regs.width.toNat s.regs.height.toNat s.regs.depth.toNat :=
  h.depthOne ▸ h.dims

theorem TransformAdmitted.exec_genMasks (h : TransformAdmitted s) (hs : s.status.fatal = false) :
    exec .genMasks s = .next (generated s) := by
  refine exec_genMasks_generated ?_
  rw [genMasksChecks, hs, firstError_false]
  exact (dimChecks_none_iff _ _ _).2 h.dims_depth

/-- R102 on the pixels of an admitted TRANSFORM: their source offsets lie inside BUF_LEN. -/
theorem TransformAdmitted.coordAdmitted (h : TransformAdmitted s) (hx : x < s.regs.width) (hy : y < s.regs.height) :
    CoordAdmitted (atCoord x y 0 (generated s)) := by
  have hx : x.toNat < s.regs.width.toNat := hx
  have hy : y.toNat < s.regs.height.toNat := hy
  refine ⟨rfl, hx, hy, Nat.zero_lt_of_ne_zero (h.depthOne.trans_ne one_ne_zero), ?_⟩
  change (y.toNat * s.regs.rowPitch.toNat + x.toNat) * 4 ≤ 0xFFFFFFFF
  have hrow : y.toNat * s.regs.rowPitch.toNat ≤ (s.regs.height.toNat - 1) * s.regs.rowPitch.toNat :=
    Nat.mul_le_mul_right _ (by omega)
  have hlen := h.srcLen
  have hword := s.regs.bufLen.isLt
  omega

/-- The masks are those TRANSFORM makes for itself, with depth 1 (R107), and z = 0 scatters nothing. -/
theorem TransformAdmitted.coordMorton_atCoord (h : TransformAdmitted s) :
    coordMorton (atCoord x y 0 (generated s)) =
      scatter (transformJob s).mx x.toNat ||| scatter (transformJob s).my y.toNat := by
  rw [coordMorton_atCoord_generated h.dims_depth, h.depthOne]
  exact index_pixelCoord _ (x.toNat, y.toNat)

/-! ### The addresses of one pixel -/

theorem TransformAdmitted.dstPixelAddr_eq (h : TransformAdmitted s) :
    s.regs.dstBase.toNat + (calculated (atCoord x y 0 (generated s))).regs.dstOffset.toNat =
      dstPixelAddr (transformJob s).dst (transformJob s).mx (transformJob s).my x.toNat y.toNat := by
  rw [(masksPartition_generated h.dims_depth).atCoord.dstOffset_toNat, h.coordMorton_atCoord]
  rfl

theorem TransformAdmitted.srcPixelAddr_eq (h : TransformAdmitted s) (hx : x < s.regs.width) (hy : y < s.regs.height) :
    s.regs.srcBase.toNat + (calculated (atCoord x y 0 (generated s))).regs.srcOffset.toNat =
      srcPixelAddr (transformJob s).src (transformJob s).pitch x.toNat y.toNat := by
  rw [(h.coordAdmitted hx hy).srcOffset_toNat, srcPixelAddr, mul_comm Config.bytesPerPixel]
  rfl

/-- R109: CopyAll makes the four moves of each pixel of the image. -/
theorem TransformAdmitted.read_copyAll (h : TransformAdmitted s) (hx : x < s.regs.width) (hy : y < s.regs.height)
    {m : Memory} (hm : m.Wf) :
    ∀ p ∈ pixelMoves (srcPixelAddr (transformJob s).src (transformJob s).pitch x.toNat y.toNat)
      (dstPixelAddr (transformJob s).dst (transformJob s).mx (transformJob s).my x.toNat y.toNat),
      ((transformJob s).copyAll m).read p.2 = m.read p.1 := by
  intro p hp
  have hmove : p ∈ (transformJob s).moves := by
    rw [CopyJob.moves_eq]
    exact List.mem_flatMap.2 ⟨(x.toNat, y.toNat), mem_coords.2 ⟨hx, hy⟩, hp⟩
  exact (h.copyAll hm).written _ (List.mem_map_of_mem hmove)

end

/-- Settles O39: CALC_ADDR's two offsets are those of the pixel whose four bytes CopyAll moves. -/
theorem calcAddrPredictsTheTransform : Obligations.CalcAddrPredictsTheTransform := by
  unfold Obligations.CalcAddrPredictsTheTransform
  intro s t x y hm hs hadm hserves hx hy ht
  rw [(hadm.reachesMemory hs).exec_served hserves] at ht
  cases ht
  refine ⟨generated s, calculated (atCoord x y 0 (generated s)), hadm.exec_genMasks hs,
    exec_calcAddr_calculated hs (hadm.coordAdmitted hx hy), rfl, ?_⟩
  have hmoved := hadm.read_copyAll hx hy hm
  simp only [pixelMoves, List.forall_mem_cons] at hmoved
  obtain ⟨hblue, hgreen, hred, halpha, -⟩ := hmoved
  simp only [hadm.srcPixelAddr_eq hx hy, hadm.dstPixelAddr_eq]
  exact ⟨hblue, hgreen, hred, halpha⟩

end Sys2Proof.Machine
end

section
/-!
PROOFS. O34, the channel reorder (43_swizzle_transform.md R104, R106), on a word taken apart into its four lanes; and
O33, PERMUTE_PIXEL (R105).
-/

namespace Sys2Proof.Machine

/-! ### A word and its lanes -/

/-- R44: lane k of a word put together from four bytes is its k-th byte. -/
theorem byteOfWord_wordOfBytes (b0 b1 b2 b3 : Byte) :
    byteOfWord (wordOfBytes b0 b1 b2 b3) 0 = b0 ∧ byteOfWord (wordOfBytes b0 b1 b2 b3) 1 = b1 ∧
    byteOfWord (wordOfBytes b0 b1 b2 b3) 2 = b2 ∧ byteOfWord (wordOfBytes b0 b1 b2 b3) 3 = b3 := by
  have hdrop {n : Nat} (hi : BitVec n) (lo : Byte) (k : Nat) :
      (hi ++ lo).extractLsb' (k + 8) 8 = hi.extractLsb' k 8 :=
    BitVec.extractLsb'_append_eq_of_le (Nat.le_add_left 8 k)
  refine ⟨BitVec.extractLsb'_append_eq_right, (hdrop _ _ 0).trans BitVec.extractLsb'_append_eq_right,
    (hdrop _ _ 8).trans ((hdrop _ _ 0).trans BitVec.extractLsb'_append_eq_right),
    (hdrop _ _ 16).trans ((hdrop _ _ 8).trans BitVec.extractLsb'_append_eq_left)⟩

/-- R44: the four lanes are all of a word. -/
theorem wordOfBytes_byteOfWord (w : Word) :
    wordOfBytes (byteOfWord w 0) (byteOfWord w 1) (byteOfWord w 2) (byteOfWord w 3) = w := by
  have hjoin (k n : Nat) : w.extractLsb' (k + 8) n ++ w.extractLsb' k 8 = w.extractLsb' k (n + 8) :=
    BitVec.extractLsb'_append_extractLsb'_eq_extractLsb' rfl
  calc wordOfBytes (byteOfWord w 0) (byteOfWord w 1) (byteOfWord w 2) (byteOfWord w 3)
    _ = w.extractLsb' 16 16 ++ byteOfWord w 1 ++ byteOfWord w 0 :=
      congrArg (· ++ byteOfWord w 1 ++ byteOfWord w 0) (hjoin 16 8)
    _ = w.extractLsb' 8 24 ++ byteOfWord w 0 := congrArg (· ++ byteOfWord w 0) (hjoin 8 16)
    _ = w.extractLsb' 0 32 := hjoin 0 24
    _ = w := BitVec.extractLsb'_eq_self

/-! ### Perm -/

/-- R104 by lanes: the word's bytes 2, 1, 0 and 3, in that order. -/
theorem permWord_eq_wordOfBytes (p : Word) :
    permWord p = wordOfBytes (byteOfWord p 2) (byteOfWord p 1) (byteOfWord p 0) (byteOfWord p 3) := rfl

/-- Settles O34: the lanes of `permWord p`, which a second Perm puts back in their places. -/
theorem permIsItsOwnInverse : Obligations.PermIsItsOwnInverse := by
  unfold Obligations.PermIsItsOwnInverse
  intro p
  obtain ⟨h0, h1, h2, h3⟩ :=
    byteOfWord_wordOfBytes (byteOfWord p 2) (byteOfWord p 1) (byteOfWord p 0) (byteOfWord p 3)
  rw [← permWord_eq_wordOfBytes] at h0 h1 h2 h3
  refine ⟨?_, h0, h1, h2, h3⟩
  rw [permWord_eq_wordOfBytes (permWord p), h0, h1, h2, h3, wordOfBytes_byteOfWord]

/-- Settles O33: the two outcomes of PERMUTE_PIXEL, and Perm of the source's pixel. -/
theorem permutePixelCompletes : Obligations.PermutePixelCompletes := by
  unfold Obligations.PermutePixelCompletes
  refine ⟨rfl, fun s => ⟨execPermutePixel_live, exec_halted .permutePixel, fun hs hin => ?_⟩⟩
  have hpixel : permWord 0x44332211 = 0x44112233 := by decide
  exact ⟨_, execPermutePixel_live hs, (congrArg permWord hin).trans hpixel⟩

end Sys2Proof.Machine
end

section
/-!
PROOFS. O38, R110's disjointness (43_swizzle_transform.md): the destination groups by the injective Morton index, the
source pixels by a pitch of at least the width.
-/

namespace Sys2Proof.Machine

/-- R110 (2): row-major positions are injective on columns below the pitch. -/
theorem rowMajor_inj {p x y x' y' : Nat} (hx : x < p) (hx' : x' < p) (heq : y * p + x = y' * p + x') :
    x = x' ∧ y = y' := by
  have hdivmod {u : Nat} (v : Nat) (hu : u < p) : (v * p + u) / p = v ∧ (v * p + u) % p = u :=
    (Nat.div_mod_unique (Nat.zero_lt_of_lt hu)).2 ⟨by rw [Nat.add_comm, Nat.mul_comm], hu⟩
  obtain ⟨hrow, hcol⟩ := hdivmod y hx
  obtain ⟨hrow', hcol'⟩ := hdivmod y' hx'
  rw [heq] at hrow hcol
  exact ⟨hcol.symm.trans hcol', hrow.symm.trans hrow'⟩

section
variable {s : State} {c c' : Nat × Nat}

/-- R110 (1): a byte common to two destination groups makes them the same pixel's. -/
theorem TransformAdmitted.dstPixelAddr_inj (h : TransformAdmitted s)
    (hc : c ∈ coords s.regs.width.toNat s.regs.height.toNat)
    (hc' : c' ∈ coords s.regs.width.toNat s.regs.height.toNat) {k k' : Nat} (hk : k < 4) (hk' : k' < 4)
    (heq : dstPixelAddr (transformJob s).dst (transformJob s).mx (transformJob s).my c.1 c.2 + k =
      dstPixelAddr (transformJob s).dst (transformJob s).mx (transformJob s).my c'.1 c'.2 + k') : c = c' := by
  simp only [dstPixelAddr, Config.bytesPerPixel] at heq
  exact h.index_inj hc hc' (by omega)

/-- R110 (2). -/
theorem TransformAdmitted.srcPixelAddr_inj (h : TransformAdmitted s)
    (hc : c ∈ coords s.regs.width.toNat s.regs.height.toNat)
    (hc' : c' ∈ coords s.regs.width.toNat s.regs.height.toNat)
    (heq : srcPixelAddr (transformJob s).src (transformJob s).pitch c.1 c.2 =
      srcPixelAddr (transformJob s).src (transformJob s).pitch c'.1 c'.2) : c = c' := by
  have hcolumn {e : Nat × Nat} (he : e ∈ coords s.regs.width.toNat s.regs.height.toNat) :
      e.1 < (transformJob s).pitch := (mem_coords.1 he).1.trans_le h.pitch
  simp only [srcPixelAddr, Config.bytesPerPixel] at heq
  obtain ⟨hx, hy⟩ := rowMajor_inj (y := c.2) (y' := c'.2) (hcolumn hc) (hcolumn hc') (by omega)
  exact Prod.ext hx hy

end

/-- Settles O38: (1) and (2) by the two injections, (3) by the OVERLAP check, and their two consequences. -/
theorem transformWritesEachByteOnce : Obligations.TransformWritesEachByteOnce := by
  unfold Obligations.TransformWritesEachByteOnce
  refine fun s h => ⟨fun x y x' y' hx hy hx' hy' hne => ?_, fun _ => h.reads_region, fun _ => h.writes_region,
    fun a hlo hhi hdst => ?_, h.writes_nodup, fun _ => h.reads_not_written⟩
  · have hc : (x, y) ∈ coords s.regs.width.toNat s.regs.height.toNat := mem_coords.2 ⟨hx, hy⟩
    have hc' : (x', y') ∈ coords s.regs.width.toNat s.regs.height.toNat := mem_coords.2 ⟨hx', hy'⟩
    exact ⟨fun k k' hk hk' heq => hne (h.dstPixelAddr_inj hc hc' hk hk' heq),
      fun heq => hne (h.srcPixelAddr_inj hc hc' heq)⟩
  · have := h.apart
    omega

end Sys2Proof.Machine
end

section
/-!
PROOFS. O36, what TRANSFORM leaves (43_swizzle_transform.md R111): on power-of-two extents every pixel number is the
Morton index of the coordinate gathered from it, so CopyAll's moves fill the first 4*W*H bytes at DST_BASE.
-/

namespace Sys2Proof.Machine

/-! ### The registers it leaves -/

theorem clog2_one : clog2 1 = 0 := clog2_two_pow 0

/-- R22: TBITS counts the bits of the three masks. -/
theorem popcount_genMasks_union {w h d : Nat} (hd : DimsAdmitted w h d) :
    popcount ((genMasks w h d).mx ||| (genMasks w h d).my ||| (genMasks w h d).mz) =
      clog2 w + clog2 h + clog2 d := by
  have ⟨_, _, _, hsum⟩ := hd
  rw [(genMasks_shares_tbits hd).union, popcount_two_pow_sub_one (hsum.trans (by omega))]

/-- R98: an image of depth 1 has no z mask. -/
theorem genMasks_depth_one_mz (w h : Nat) : (genMasks w h 1).mz = 0 :=
  have ⟨_, _, _, _, hunit, _⟩ := unitExtentsHaveNoMask
  hunit w h 1 .z rfl

/-- R107's latch of the masks of W x H x 1. -/
theorem withMasks_depth_one {w h : Nat} (hd : DimsAdmitted w h 1) (s : State) :
    withMasks w h 1 s =
      { s with
        regs := { s.regs with maskX := BitVec.ofNat 32 (genMasks w h 1).mx
                              maskY := BitVec.ofNat 32 (genMasks w h 1).my
                              maskZ := 0 }
        status := { s.status with maskValid := true, tbits := BitVec.ofNat 6 (clog2 w + clog2 h) } } := by
  rw [withMasks, popcount_genMasks_union hd, genMasks_depth_one_mz, clog2_one]
  rfl

/-- What a completed TRANSFORM leaves (R107, R78): the memory after CopyAll and the masks of W x H x 1. -/
def transformed (s : State) : State :=
  { s with
    mem := (transformJob s).copyAll s.mem
    regs :=
      { s.regs with
        maskX := BitVec.ofNat 32 (transformJob s).mx
        maskY := BitVec.ofNat 32 (transformJob s).my
        maskZ := 0 }
    status :=
      { maskValid := true, fatal := false, err := 0x00, lastOp := 0x04
        tbits := BitVec.ofNat 6 (clog2 s.regs.width.toNat + clog2 s.regs.height.toNat) } }

section
variable {s : State}

theorem TransformAdmitted.exec_transformed (h : TransformAdmitted s) (hs : s.status.fatal = false)
    (hserves : Serves s.platform (footprint .transform s).touched) :
    exec .transform s = .next (transformed s) := by
  rw [(h.reachesMemory hs).exec_served hserves, beforeMemory, withMasks_depth_one h.dims, transformed, ← hs]
  rfl

/-! ### The pixel with a number -/

theorem two_pow_clog2 {n : Nat} (hn : ∃ k, n = 2 ^ k) : 2 ^ clog2 n = n := by
  obtain ⟨k, rfl⟩ := hn
  rw [clog2_two_pow]

/-- R93: W*H is 2^TB on power-of-two extents. -/
theorem TransformAdmitted.pixels_eq (h : TransformAdmitted s) : s.regs.width.toNat * s.regs.height.toNat =
    2 ^ (clog2 s.regs.width.toNat + clog2 s.regs.height.toNat + clog2 1) := by
  rw [clog2_one, Nat.add_zero, pow_add, two_pow_clog2 h.widthPow, two_pow_clog2 h.heightPow]

/-- R93: what is gathered along an axis is a coordinate of the image. -/
theorem TransformAdmitted.gather_in_image (h : TransformAdmitted s) (n : Nat) :
    gather (transformJob s).mx n < s.regs.width.toNat ∧ gather (transformJob s).my n < s.regs.height.toNat := by
  have hlt (a : Axis) := gather_lt ((genMasks s.regs.width.toNat s.regs.height.toNat 1).mask a) n
  simp only [popcount_genMasks_mask h.dims] at hlt
  have hx := hlt .x
  have hy := hlt .y
  rw [extent, two_pow_clog2 h.widthPow] at hx
  rw [extent, two_pow_clog2 h.heightPow] at hy
  exact ⟨hx, hy⟩

/-- R96: pixel n of the destination is the one whose coordinate is gathered from n. -/
theorem TransformAdmitted.dstPixelAddr_gather (h : TransformAdmitted s) {n : Nat}
    (hn : n < s.regs.width.toNat * s.regs.height.toNat) :
    dstPixelAddr (transformJob s).dst (transformJob s).mx (transformJob s).my
      (gather (transformJob s).mx n) (gather (transformJob s).my n) = s.regs.dstBase.toNat + 4 * n := by
  have hindex := genMasks_index_gather h.dims (h.pixels_eq ▸ hn)
  simp only [MaskGen.index, MaskGen.mask, morton, genMasks_depth_one_mz, scatter_zero_mask, Nat.or_zero] at hindex
  rw [dstPixelAddr]
  exact congrArg (s.regs.dstBase.toNat + 4 * ·) hindex

/-- R111, pixel by pixel: the four moves into destination pixel n. -/
theorem TransformAdmitted.read_pixel (h : TransformAdmitted s) {m : Memory} (hm : m.Wf) {n : Nat}
    (hn : n < s.regs.width.toNat * s.regs.height.toNat) :
    ∀ p ∈ pixelMoves (srcPixelAddr (transformJob s).src (transformJob s).pitch
        (gather (transformJob s).mx n) (gather (transformJob s).my n)) (s.regs.dstBase.toNat + 4 * n),
      ((transformJob s).copyAll m).read p.2 = m.read p.1 := by
  obtain ⟨hx, hy⟩ := h.gather_in_image n
  have hxword := toNat_ofNat_of_lt (hx.trans s.regs.width.isLt)
  have hyword := toNat_ofNat_of_lt (hy.trans s.regs.height.isLt)
  have hmoved := h.read_copyAll (BitVec.lt_def.2 (hxword.trans_lt hx)) (BitVec.lt_def.2 (hyword.trans_lt hy)) hm
  rwa [hxword, hyword, h.dstPixelAddr_gather hn] at hmoved

/-- R111: no byte outside the W*H destination pixels is written. -/
theorem TransformAdmitted.not_written (h : TransformAdmitted s) {a : Nat} (ha : a < s.regs.dstBase.toNat ∨
      s.regs.dstBase.toNat + 4 * (s.regs.width.toNat * s.regs.height.toNat) ≤ a) :
    a ∉ (transformJob s).footprint.writes := fun hmem => by
  obtain ⟨c, -, hpixel⟩ := List.mem_flatMap.1 hmem
  obtain ⟨hlo, hhi⟩ := mem_pixelBytes.1 hpixel
  have hindex := h.index_lt c.1 c.2
  simp only [dstPixelAddr, Config.bytesPerPixel, transformJob_dst] at hlo hhi
  omega

end

/-- Settles O36: the memory is CopyAll's, which every access order makes (O37). -/
theorem transformMovesTheImage : Obligations.TransformMovesTheImage := by
  unfold Obligations.TransformMovesTheImage
  intro s hm hs hadm hserves
  obtain ⟨hmoves, haccesses, -⟩ := memoryDoesNotDependOnTheAccessOrder
  refine ⟨(transformJob s).copyAll s.mem, hadm.exec_transformed hs hserves, fun n hn => ?_, fun a ha => ?_,
    fun ms hms => hmoves s ms hm hadm hms, fun l hl => haccesses s l hm hadm hl⟩
  · have hmoved := hadm.read_pixel hm hn
    simp only [pixelMoves, List.forall_mem_cons] at hmoved
    obtain ⟨hblue, hgreen, hred, halpha, -⟩ := hmoved
    exact ⟨hblue, hgreen, hred, halpha⟩
  · refine (hadm.copyAll hm).kept a ?_
    rw [map_fst_fetched, CopyJob.map_snd_moves]
    exact hadm.not_written ha

end Sys2Proof.Machine
end

section
/-!
PROOFS. O41, the errors of BUILD_HEADER (44_texture_header_serializer.md R113, R115): its checks decide between the two
errors, and a command past its checks ends with OK or BUS.
-/

namespace Sys2Proof.Machine

section
variable {s t : State}

/-! ### The checks -/

/-- A check's code is the first error exactly where it fails and no check before it does (R123). -/
theorem firstError_cons_eq_some_iff (fails : Bool) (e c : ErrCode) (l : List (Bool × ErrCode)) :
    firstError ((fails, e) :: l) = some c ↔ (fails = true ∧ e = c) ∨ (fails = false ∧ firstError l = some c) := by
  cases fails with
  | true => simp
  | false => simp

/-- R115: the first check fails exactly where the exact total does not fit 32 bits. -/
theorem headerChecks_pack_iff :
    firstError (headerChecks s) = some .pack ↔ 0xFFFFFFFF < 36 + s.regs.payloadLen.toNat := by
  simp [headerChecks, headerTotal, Config.headerSize, firstError_cons_eq_some_iff]

/-- R113: the second check is reached exactly where the total fits, and fails where the record passes the top of
memory. -/
theorem headerChecks_addrRange_iff : firstError (headerChecks s) = some .addrRange ↔
    36 + s.regs.payloadLen.toNat ≤ 0xFFFFFFFF ∧ 2 ^ 32 < s.regs.hdrBase.toNat + 36 := by
  simp [headerChecks, headerTotal, Config.headerSize, Config.memSpace, firstError_cons_eq_some_iff]

/-! ### The command -/

/-- A failed check leaves its code in ERR and changes nothing else but LAST_OP (R113, R119). -/
theorem exec_buildHeader_rejected (hs : s.status.fatal = false) {c : ErrCode}
    (h : firstError (headerChecks s) = some c) : exec .buildHeader s = .next (withOutcome s 0x05 c) :=
  (execBuildHeader_live hs).trans (checkedBody_some h _ _)

/-- A memory phase with a next state ends with OK or BUS (R51, R78). -/
theorem memoryPhase_err {f : Footprint} {effect : Memory → Memory} (h : memoryPhase f effect s = .next t) :
    t.status.err = ErrCode.ok.code ∨ t.status.err = ErrCode.bus.code := by
  rcases memoryPhase_cases f effect s with ⟨-, h'⟩ | ⟨-, h'⟩ | ⟨-, -, h'⟩ <;> rw [h'] at h <;> cases h
  · exact .inl rfl
  · exact .inr rfl

/-- Every end of BUILD_HEADER: a failed check, or OK or BUS past the checks. -/
theorem exec_buildHeader_cases (hs : s.status.fatal = false) (h : exec .buildHeader s = .next t) :
    (∃ c, firstError (headerChecks s) = some c ∧ t = withOutcome s 0x05 c) ∨
    (firstError (headerChecks s) = none ∧ (t.status.err = ErrCode.ok.code ∨ t.status.err = ErrCode.bus.code)) := by
  cases hc : firstError (headerChecks s) with
  | some c =>
    rw [exec_buildHeader_rejected hs hc] at h
    cases h
    exact .inl ⟨c, rfl, rfl⟩
  | none =>
    rw [execBuildHeader_live hs, checkedBody_none hc] at h
    exact .inr ⟨rfl, memoryPhase_err h⟩

/-- BUILD_HEADER reports PACK exactly where PACK is its first failing check. -/
theorem exec_buildHeader_err_pack_iff (hs : s.status.fatal = false) (h : exec .buildHeader s = .next t) :
    t.status.err = ErrCode.pack.code ↔ firstError (headerChecks s) = some .pack := by
  rcases exec_buildHeader_cases hs h with ⟨c, hc, rfl⟩ | ⟨hc, herr⟩
  · rw [hc, withOutcome_status, ErrCode.code_injective.eq_iff, Option.some_inj]
  · rcases herr with herr | herr <;> simp [hc, herr, ErrCode.code_injective.eq_iff]

end

/-- Settles O41: the word bounds 0xFFFFFFDB and 0xFFFFFFDC are the bounds of the two checks on exact numbers. -/
theorem buildHeaderRejectsInOrder : Obligations.BuildHeaderRejectsInOrder := by
  unfold Obligations.BuildHeaderRejectsInOrder
  intro s hs
  refine ⟨fun hlen => ?_, fun hlen hbase => ?_, fun t ht => ?_⟩
  · exact exec_buildHeader_rejected hs (headerChecks_pack_iff.2 (by bv_omega))
  · exact exec_buildHeader_rejected hs (headerChecks_addrRange_iff.2 ⟨by bv_omega, by bv_omega⟩)
  · have hfatal : t.status.fatal = s.status.fatal := (noInvariant_exec .buildHeader s t ht).2
    exact ⟨(exec_buildHeader_err_pack_iff hs ht).trans headerChecks_pack_iff, hfatal.trans hs⟩

end Sys2Proof.Machine
end

section
/-!
PROOFS. O54, reset during a command (70_reset_and_hazards.md R134): the access cut short leaves the reset over one free
draw of the bytes its command would have written.
-/

namespace Sys2Proof.Machine

section
variable {s : State} {i : Instr}

/-- R50: every byte a command touches is a byte of the memory space. -/
theorem footprint_touched_lt {a : Nat} (ha : a ∈ (footprint i s).touched) : a < Config.memSpace :=
  (reachesMemory_of_mem_touched ha).touched_lt a ha

/-- R17, R49: the write of a legal word to CMD touches the bytes of the word's command. -/
theorem portFootprint_cmdWrite {w : Word} (hw : decodeWord w = .ok i) :
    PortAccess.footprint { dir := .write, bits := 32, addr := s.platform.regBase, data := w } s = footprint i s := by
  rw [PortAccess.footprint, command_cmdWrite hw]

/-- R134: cutting an aligned 32-bit access short resets SAC and frees the bytes the access would have made it write. -/
theorem resetDuring_next {a : PortAccess} {o : Nat} (ho : windowOffset s.platform a.addr = some o)
    (hbits : a.bits = 32) (hal : o % 4 = 0) (hwin : ∀ x ∈ (a.footprint s).touched, inWindow s.platform x = false) :
    resetDuring a s = .next (applyReset (drawBytes (a.footprint s).writes s)) := by
  have hno : (a.footprint s).touched.any (inWindow s.platform) = false := by simpa using hwin
  simp [resetDuring, ho, hbits, hal, hno]

/-- R134: reset while the command of a legal word runs, outside SAC's own window. -/
theorem step_resetDuringCommand {w : Word} {rest : List Event} (hw : decodeWord w = .ok i)
    (hin : s.input = .portReset { dir := .write, bits := 32, addr := s.platform.regBase, data := w } [] :: rest)
    (hwin : ∀ a ∈ (footprint i s).touched, inWindow s.platform a = false) :
    step s = .next (applyReset (drawBytes (footprint i s).writes (afterFetch s rest))) := by
  have hfoot : PortAccess.footprint { dir := .write, bits := 32, addr := s.platform.regBase, data := w }
      (afterFetch s rest) = footprint i s :=
    (portFootprint_cmdWrite (s := afterFetch s rest) hw).trans (footprint_afterFetch i s rest)
  rw [step_of_input hin, handleEvent, alongside_nil,
    resetDuring_next (windowOffset_reg _ .cmd) rfl Reg.cmd.offset_aligned (hfoot ▸ hwin), hfoot]

end

/-- Settles O54: the step is a reset over one free draw of the command's bytes, all of which are memory bytes. -/
theorem resetDuringACommandFreesItsBytes : Obligations.ResetDuringACommandFreesItsBytes := by
  unfold Obligations.ResetDuringACommandFreesItsBytes
  intro s w i rest hm hw hin hwin
  have hread := drawBytes_read (s := afterFetch s rest)
    (fun a ha => footprint_touched_lt (List.mem_append_right (footprint i s).reads ha)) hm
  refine ⟨_, step_resetDuringCommand hw hin hwin, readReg_of_reset rfl rfl, fun a ha => ?_, fun a ha => ?_⟩
  · exact (hread a).trans (if_pos ha)
  · exact (hread a).trans (if_neg ha)

end Sys2Proof.Machine
end

section
/-!
PROOFS. The form all six commands have (40_command_dispatch.md R77, R78; 60_exceptions.md R123): checks in order,
register work, one memory phase. With it the completions and errors of GEN_MASKS and CALC_ADDR (O17, O18, O30, O31), the
errors of TRANSFORM (O35), the halted SAC (O7), and where a command may touch memory or stop (O45, O48).
-/

namespace Sys2Proof.Machine

open Host (Outcome)

/-! ### Checks and register work of each command -/

/-- The checks a command makes itself, in order (R123). -/
def ownChecks : Instr → State → List (Bool × ErrCode)
  | .nop, _ | .permutePixel, _ => []
  | .genMasks, s => dimChecks s.regs.width.toNat s.regs.height.toNat s.regs.depth.toNat
  | .calcAddr, s => calcAddrChecks s
  | .transform, s => transformChecks s
  | .buildHeader, s => headerChecks s

/-- All that can keep a command from its first write: a halted SAC (R77), then its own checks (R78). -/
def commandChecks (i : Instr) (s : State) : List (Bool × ErrCode) := (s.status.fatal, .halted) :: ownChecks i s

/-- What a command writes before its memory phase, LAST_OP apart. -/
def registerWork : Instr → State → State
  | .nop, s => s
  | .genMasks, s => withMasks s.regs.width.toNat s.regs.height.toNat s.regs.depth.toNat s
  | .calcAddr, s => writeOffsets s
  | .permutePixel, s => { s with regs := { s.regs with pixelOut := permWord s.regs.pixelIn } }
  | .transform, s => withMasks s.regs.width.toNat s.regs.height.toNat 1 s
  | .buildHeader, s => { s with regs := { s.regs with hdr := headerFields (BitVec.ofNat 32 (headerTotal s)) } }

/-- The registers a command's own checks admit, in the words of its rule. -/
def Admits : Instr → State → Prop
  | .nop, _ | .permutePixel, _ => True
  | .genMasks, s => DimsAdmitted s.regs.width.toNat s.regs.height.toNat s.regs.depth.toNat
  | .calcAddr, s => CoordAdmitted s
  | .transform, s => TransformAdmitted s
  | .buildHeader, s => HeaderAdmitted s

theorem ownChecks_none_iff (i : Instr) (s : State) : firstError (ownChecks i s) = none ↔ Admits i s := by
  cases i with
  | nop | permutePixel => exact iff_of_true rfl trivial
  | genMasks => exact dimChecks_none_iff _ _ _
  | calcAddr => exact calcAddrChecks_none_iff s
  | transform => exact transformChecks_none_iff s
  | buildHeader => exact headerChecks_none_iff s

theorem checks_live {i : Instr} {s : State} (hs : s.status.fatal = false) :
    firstError (commandChecks i s) = firstError (ownChecks i s) := by
  rw [commandChecks, hs, firstError_false]

theorem checks_none_iff (i : Instr) (s : State) :
    firstError (commandChecks i s) = none ↔ s.status.fatal = false ∧ Admits i s := by
  rw [← ownChecks_none_iff]
  cases hs : s.status.fatal with
  | true => simp [commandChecks, hs]
  | false => simp [checks_live hs]

section
variable (i : Instr) (s : State)

@[simp] theorem registerWork_mem : (registerWork i s).mem = s.mem := by cases i <;> rfl
@[simp] theorem registerWork_platform : (registerWork i s).platform = s.platform := by cases i <;> rfl
@[simp] theorem registerWork_input : (registerWork i s).input = s.input := by cases i <;> rfl
@[simp] theorem registerWork_answer : (registerWork i s).answer = s.answer := by cases i <;> rfl
@[simp] theorem registerWork_draws : (registerWork i s).draws = s.draws := by cases i <;> rfl
@[simp] theorem registerWork_fatal : (registerWork i s).status.fatal = s.status.fatal := by cases i <;> rfl

end

/-! ### Every command, in one form -/

/-- A memory phase without bytes ends with OK at once. -/
theorem memoryPhase_empty (s : State) : memoryPhase Footprint.empty id s = .next (finishOk s) := rfl

section
variable {i : Instr} {s t : State} {c : ErrCode}

/-- R119, R123: the first failing check, or HALTED, is all a rejected command shows. -/
theorem exec_rejected (h : firstError (commandChecks i s) = some c) : exec i s = .next (withOutcome s i.opcode c) := by
  cases hs : s.status.fatal with
  | true =>
    rw [commandChecks, hs, firstError_true] at h
    cases h
    exact exec_halted i hs
  | false =>
    rw [checks_live hs] at h
    cases i with
    | nop | permutePixel => cases h
    | genMasks => exact (execGenMasks_live hs).trans (checkedBody_some h _ _)
    | calcAddr => exact (execCalcAddr_live hs).trans (checkedBody_some h _ _)
    | transform => exact (execTransform_live hs).trans (checkedBody_some h _ _)
    | buildHeader => exact (execBuildHeader_live hs).trans (checkedBody_some h _ _)

/-- R78: past its checks a command does its register work and then its memory phase. -/
theorem exec_passed (h : firstError (commandChecks i s) = none) :
    exec i s = memoryPhase (footprint i s) (memoryEffect i s) (setLastOp i.opcode (registerWork i s)) := by
  obtain ⟨hs, hadm⟩ := (checks_none_iff i s).1 h
  rw [checks_live hs] at h
  cases i with
  | nop => exact execNop_live hs
  | permutePixel => exact execPermutePixel_live hs
  | genMasks => exact (execGenMasks_live hs).trans ((checkedBody_none h _ _).trans (latchMasks_eq _ _ _ _ _))
  | calcAddr => exact (execCalcAddr_live hs).trans (checkedBody_none h _ _)
  | transform => exact (TransformAdmitted.reachesMemory hadm hs).exec_eq
  | buildHeader => exact (HeaderAdmitted.reachesMemory hadm hs).exec_eq

/-- R78: a command whose bytes all answer ends with OK. -/
theorem exec_served (hs : s.status.fatal = false) (hadm : Admits i s)
    (hserves : Serves s.platform (footprint i s).touched) :
    exec i s = .next { withOutcome (registerWork i s) i.opcode .ok with mem := memoryEffect i s s.mem } := by
  have hphase := memoryPhase_served (s := setLastOp i.opcode (registerWork i s))
    ((registerWork_platform i s).symm ▸ hserves) (memoryEffect i s)
  rw [exec_passed ((checks_none_iff i s).2 ⟨hs, hadm⟩), hphase, setLastOp_mem, registerWork_mem]
  rfl

/-- A memory phase that is reached keeps memory canonical. -/
theorem memoryEffect_wf (h : firstError (commandChecks i s) = none) {m : Memory} (hm : m.Wf) :
    (memoryEffect i s m).Wf := by
  obtain ⟨hs, hadm⟩ := (checks_none_iff i s).1 h
  cases i with
  | transform => exact (TransformAdmitted.copyAll hadm hm).wf
  | buildHeader => exact (HeaderAdmitted.writeHeader hadm _ hm).wf
  | _ => exact hm

/-- Everything a command that answers a next state can have done: end at a check, or do its register work and end with
OK, or with BUS where a byte it touches does not answer. -/
inductive Ends (i : Instr) (s : State) : State → Prop where
  | rejected {c : ErrCode} (h : firstError (commandChecks i s) = some c) : Ends i s (withOutcome s i.opcode c)
  | passed {c : ErrCode} {mem : Memory} {draws : Nat} (h : firstError (commandChecks i s) = none)
      (hc : c = .ok ∨ c = .bus ∧ ∃ a ∈ (footprint i s).touched, memAdmits s.platform a = false)
      (hmem : s.mem.Wf → mem.Wf) :
      Ends i s { withOutcome (registerWork i s) i.opcode c with mem := mem, draws := draws }

theorem exec_ends (h : exec i s = .next t) : Ends i s t := by
  cases hc : firstError (commandChecks i s) with
  | some c =>
    rw [exec_rejected hc] at h
    cases h
    exact .rejected hc
  | none =>
    rw [exec_passed hc] at h
    rcases memoryPhase_cases (footprint i s) (memoryEffect i s) (setLastOp i.opcode (registerWork i s))
      with ⟨-, hphase⟩ | ⟨-, hphase⟩ | ⟨-, hbus, hphase⟩ <;> rw [hphase] at h <;> cases h
    · exact .passed hc (.inl rfl) fun hm => memoryEffect_wf hc (by simpa using hm)
    · refine .passed hc (.inr ⟨rfl, by simpa using hbus⟩) fun hm => ?_
      exact drawBytes_wf (fun a ha => footprint_touched_lt (List.mem_append_right _ ha)) (by simpa using hm)

theorem exec_input (h : exec i s = .next t) : t.input = s.input := by
  cases exec_ends h with
  | rejected _ => rfl
  | passed _ _ _ => exact registerWork_input i s

theorem exec_answer (h : exec i s = .next t) : t.answer = s.answer := by
  cases exec_ends h with
  | rejected _ => rfl
  | passed _ _ _ => exact registerWork_answer i s

theorem exec_platform (h : exec i s = .next t) : t.platform = s.platform := by
  cases exec_ends h with
  | rejected _ => rfl
  | passed _ _ _ => exact registerWork_platform i s

/-! ### Where a command stops -/

theorem exec_rejected_live (hs : s.status.fatal = false) (h : firstError (ownChecks i s) = some c) :
    exec i s = .next (withOutcome s i.opcode c) :=
  exec_rejected ((checks_live hs).trans h)

/-- R52: one byte in SAC's own window refuses the command. -/
theorem exec_refused (h : ∃ a ∈ (footprint i s).touched, inWindow s.platform a = true) :
    exec i s = .refused .ownWindow := by
  obtain ⟨a, ha, hwin⟩ := h
  rw [(reachesMemory_of_mem_touched ha).exec_eq, memoryPhase, if_pos]
  exact List.any_eq_true.2 ⟨a, ha, by rwa [beforeMemory_platform]⟩

theorem exec_next_of_outside (h : ∀ a ∈ (footprint i s).touched, inWindow s.platform a = false) :
    ∃ t, exec i s = .next t := by
  rcases exec_cases i s with ⟨-, regs, status, hexec⟩ | hmem
  · exact ⟨_, hexec⟩
  · rcases memoryPhase_cases (footprint i s) (memoryEffect i s) (beforeMemory i s)
      with ⟨⟨a, ha, hwin⟩, -⟩ | ⟨-, hphase⟩ | ⟨-, -, hphase⟩
    · rw [beforeMemory_platform, h a ha] at hwin
      cases hwin
    · exact ⟨_, hmem.exec_eq.trans hphase⟩
    · exact ⟨_, hmem.exec_eq.trans hphase⟩

end

/-- Settles O48: the memory phase is the only place a command stops in. -/
theorem commandsStopOnlyAtTheirOwnWindow : Obligations.CommandsStopOnlyAtTheirOwnWindow := by
  unfold Obligations.CommandsStopOnlyAtTheirOwnWindow
  exact fun i s => ⟨exec_next_of_outside, exec_refused⟩

/-- Settles O45: a command touches bytes of the memory space, and none where its ADDR_RANGE check fails. -/
theorem noAccessWrapsPastTheTop : Obligations.NoAccessWrapsPastTheTop := by
  unfold Obligations.NoAccessWrapsPastTheTop
  refine ⟨fun i s a => footprint_touched_lt, fun s hpast => ?_, fun s hpast => ?_⟩
  · have hno : ¬ TransformAdmitted s := fun h => by
      have := h.srcTop
      have := h.dstTop
      omega
    rw [footprint_transform_not_admitted hno, touched_empty]
  · have hno : ¬ HeaderAdmitted s := fun h => by
      have := h.top
      omega
    rw [footprint_buildHeader_not_admitted hno, touched_empty]

/-- Settles O7: the halted SAC is the first check of every command. -/
theorem haltedCommandsChangeOnlyErrAndLastOp : Obligations.HaltedCommandsChangeOnlyErrAndLastOp := by
  unfold Obligations.HaltedCommandsChangeOnlyErrAndLastOp
  exact fun i s => exec_halted i

/-! ### Completions of GEN_MASKS and CALC_ADDR -/

/-- Settles O17: the register work of GEN_MASKS, whose union of masks has as many bits as TBITS says. -/
theorem genMasksCompletes : Obligations.GenMasksCompletes := by
  unfold Obligations.GenMasksCompletes
  intro s hs hd
  rw [exec_served (i := .genMasks) hs hd (by simp [Serves, footprint]), ← hs, ← popcount_genMasks_union hd]
  rfl

/-- Settles O30: the register work of CALC_ADDR. -/
theorem calcAddrCompletes : Obligations.CalcAddrCompletes := by
  unfold Obligations.CalcAddrCompletes
  intro s hs h
  exact exec_calcAddr_calculated hs h

/-! ### The first failing check -/

/-- R123 as nested cases. -/
theorem firstError_cons (fails : Bool) (c : ErrCode) (l : List (Bool × ErrCode)) :
    firstError ((fails, c) :: l) = if fails = true then some c else firstError l := rfl

/-- R84's checks on numbers. -/
theorem firstError_dimChecks (w h d : Nat) :
    firstError (dimChecks w h d) =
      if w = 0 ∨ h = 0 ∨ d = 0 then some .dimZero
      else if 30 < clog2 w + clog2 h + clog2 d then some .dimRange else none := by
  simp [dimChecks, firstError_cons, Config.maxTbits, or_assoc]

/-- R100's checks on numbers. -/
theorem firstError_calcAddrChecks (s : State) :
    firstError (calcAddrChecks s) =
      if s.status.maskValid = false then some .noMasks
      else if s.regs.width ≤ s.regs.coordX ∨ s.regs.height ≤ s.regs.coordY ∨ s.regs.depth ≤ s.regs.coordZ then
        some .coordRange
      else if 0xFFFFFFFF < (s.regs.coordY.toNat * s.regs.rowPitch.toNat + s.regs.coordX.toNat) * 4 then
        some .offsetRange
      else none := by
  simp [calcAddrChecks, firstError_cons, sourceOffset, Config.bytesPerPixel, BitVec.le_def, or_assoc]

/-- R107's checks on numbers. -/
theorem firstError_transformChecks (s : State) {w h d p l src dst : Nat} (hw : w = s.regs.width.toNat)
    (hh : h = s.regs.height.toNat) (hd : d = s.regs.depth.toNat) (hp : p = s.regs.rowPitch.toNat)
    (hl : l = s.regs.bufLen.toNat) (hsrc : src = s.regs.srcBase.toNat) (hdst : dst = s.regs.dstBase.toNat) :
    firstError (transformChecks s) =
      if w = 0 ∨ h = 0 ∨ d = 0 then some .dimZero
      else if 30 < clog2 w + clog2 h + clog2 d then some .dimRange
      else if d ≠ 1 then some .depth
      else if ¬ ispow2 w = true ∨ ¬ ispow2 h = true then some .npot
      else if p < w then some .pitch
      else if l < 4 * ((h - 1) * p + w) ∨ l < 4 * w * h then some .len
      else if 2 ^ 32 < src + l ∨ 2 ^ 32 < dst + l then some .addrRange
      else if src < dst + l ∧ dst < src + l then some .overlap
      else none := by
  subst hw hh hd hp hl hsrc hdst
  simp only [transformChecks, dimChecks, List.cons_append, List.nil_append, firstError_cons, firstError_nil,
    Bool.or_eq_true, Bool.and_eq_true, beq_iff_eq, bne_iff_ne, decide_eq_true_eq, Bool.not_eq_true', ← Bool.not_eq_true,
    or_assoc, Config.maxTbits, Config.bytesPerPixel, Config.memSpace, gt_iff_lt]

/-- Settles O18: the two checks of R84 in their order. -/
theorem genMasksRejectsInOrder : Obligations.GenMasksRejectsInOrder := by
  unfold Obligations.GenMasksRejectsInOrder
  intro s hs
  have hfirst := firstError_dimChecks s.regs.width.toNat s.regs.height.toNat s.regs.depth.toNat
  refine ⟨fun hzero => ?_, fun ⟨hw, hh, hd, hbits⟩ => ?_⟩ <;>
    refine exec_rejected_live (i := .genMasks) hs (hfirst.trans ?_)
  · rw [if_pos (by bv_omega)]
  · rw [if_neg (by bv_omega), if_pos hbits]

/-- Settles O31: the three checks of R100 in their order. -/
theorem calcAddrRejectsInOrder : Obligations.CalcAddrRejectsInOrder := by
  unfold Obligations.CalcAddrRejectsInOrder
  intro s hs
  have hfirst := firstError_calcAddrChecks s
  refine ⟨fun hmasks => ?_, fun ⟨hmasks, hout⟩ => ?_, fun ⟨hmasks, hx, hy, hz, hoff⟩ => ?_⟩ <;>
    refine exec_rejected_live (i := .calcAddr) hs (hfirst.trans ?_)
  · rw [if_pos hmasks]
  · rw [if_neg (by simp [hmasks]), if_pos hout]
  · rw [if_neg (by simp [hmasks]), if_neg (by simp [BitVec.not_le, hx, hy, hz]), if_pos hoff]

/-- Settles O35: the eight checks of R107 in their order, one case of the statement for each. -/
theorem transformRejectsInOrder : Obligations.TransformRejectsInOrder := by
  unfold Obligations.TransformRejectsInOrder
  intro s hs w h d p l src dst hw hh hd hp hl hsrc hdst
  simp only [← ispow2_iff]
  have hfirst := firstError_transformChecks s hw hh hd hp hl hsrc hdst
  have hrejected {c : ErrCode} (hc : firstError (transformChecks s) = some c) :
      exec .transform s = .next (withOutcome s 0x04 c) := exec_rejected_live (i := .transform) hs hc
  rw [hfirst] at hrejected
  refine ⟨fun hzero => hrejected (if_pos hzero), fun hw1 hh1 hd1 => ?_⟩
  rw [if_neg (by omega)] at hrejected
  refine ⟨fun hbits => hrejected (if_pos hbits), fun hbits => ?_⟩
  rw [if_neg (by omega)] at hrejected
  refine ⟨fun hdepth => hrejected (if_pos hdepth), fun hdepth => ?_⟩
  rw [if_neg (by omega)] at hrejected
  refine ⟨fun hpow => hrejected (if_pos hpow), fun hwpow hhpow => ?_⟩
  rw [if_neg (by tauto)] at hrejected
  refine ⟨fun hpitch => hrejected (if_pos hpitch), fun hpitch => ?_⟩
  rw [if_neg (by omega)] at hrejected
  refine ⟨fun hlen => hrejected (if_pos hlen), fun hsrclen hdstlen => ?_⟩
  rw [if_neg (by omega)] at hrejected
  refine ⟨fun htop => hrejected (if_pos htop), fun hsrctop hdsttop hlo hhi => ?_⟩
  rw [if_neg (by omega)] at hrejected
  exact hrejected (if_pos ⟨hlo, hhi⟩)

end Sys2Proof.Machine
end

section
/-!
PROOFS. What a step can do, event by event (20_memory.md R41 to R45, R54, R56): the writes of other masters, the effect
of a port access, and the inversion of a step. With it O49, O51 and O52, the statements about other masters.
-/

namespace Sys2Proof.Machine

open Host (Outcome)

/-! ### Accesses of other masters -/

/-- What an access of another master does to memory (R54). -/
def MemAccess.apply : MemAccess → Memory → Memory
  | .read _, m => m
  | .write a b, m => m.write a.toNat b

/-- What a list of such accesses does to memory, in order. -/
def applyAll (ms : List MemAccess) (mem : Memory) : Memory := ms.foldl (fun mem m => m.apply mem) mem

@[simp] theorem applyAll_nil (mem : Memory) : applyAll [] mem = mem := rfl

theorem applyAll_cons (m : MemAccess) (ms : List MemAccess) (mem : Memory) :
    applyAll (m :: ms) mem = applyAll ms (m.apply mem) := rfl

theorem MemAccess.apply_wf {mem : Memory} (hm : mem.Wf) (m : MemAccess) : (m.apply mem).Wf := by
  cases m with
  | read a => exact hm
  | write a b => exact Memory.write_wf hm a.isLt b

theorem applyAll_wf {mem : Memory} (hm : mem.Wf) (ms : List MemAccess) : (applyAll ms mem).Wf := by
  induction ms generalizing mem with
  | nil => exact hm
  | cons m ms ih => exact ih (m.apply_wf hm)

theorem memoryAccess_eq_next_iff {m : MemAccess} {s t : State} :
    memoryAccess m s = .next t ↔ inWindow s.platform m.addr = false ∧ t = { s with mem := m.apply s.mem } := by
  cases hwin : inWindow s.platform m.addr with
  | true => simp [memoryAccess, hwin]
  | false => cases m <;> simp only [memoryAccess, hwin, MemAccess.apply, Bool.false_eq_true, if_false,
      Outcome.next.injEq, true_and] <;> exact eq_comm

/-- Accesses of other masters stop at one in the window, and otherwise change memory alone. -/
theorem memoryAccesses_cases (ms : List MemAccess) (s : State) :
    ((∃ m ∈ ms, inWindow s.platform m.addr = true) ∧ memoryAccesses ms s = .fault .hostAccess) ∨
    ((∀ m ∈ ms, inWindow s.platform m.addr = false) ∧
      memoryAccesses ms s = .next { s with mem := applyAll ms s.mem }) := by
  induction ms generalizing s with
  | nil => exact .inr ⟨by simp, rfl⟩
  | cons m ms ih =>
    simp only [List.mem_cons, exists_eq_or_imp, forall_eq_or_imp, memoryAccesses]
    cases hwin : inWindow s.platform m.addr with
    | true => exact .inl ⟨.inl rfl, by simp [memoryAccess, hwin]⟩
    | false =>
      rw [memoryAccess_eq_next_iff.2 ⟨hwin, rfl⟩]
      rcases ih { s with mem := m.apply s.mem } with ⟨hstop, h⟩ | ⟨hpass, h⟩
      · exact .inl ⟨.inr hstop, h⟩
      · exact .inr ⟨⟨rfl, hpass⟩, h⟩

theorem memoryAccesses_eq_next_iff {ms : List MemAccess} {s t : State} :
    memoryAccesses ms s = .next t ↔
      (∀ m ∈ ms, inWindow s.platform m.addr = false) ∧ t = { s with mem := applyAll ms s.mem } := by
  rcases memoryAccesses_cases ms s with ⟨⟨m, hm, hwin⟩, h⟩ | ⟨hpass, h⟩ <;> rw [h]
  · exact iff_of_false (by rintro ⟨⟩) fun ⟨hpass, _⟩ => Bool.false_ne_true ((hpass m hm).symm.trans hwin)
  · rw [Outcome.next.injEq, and_iff_right hpass]
    exact eq_comm

/-! ### What a port access depends on -/

section
variable {a : PortAccess} {s t : State} {i : Instr}

/-- R2: the bytes a command touches depend on registers and STATUS alone. -/
theorem footprint_congr {s' : State} (hregs : s'.regs = s.regs) (hstatus : s'.status = s.status) :
    footprint i s' = footprint i s := by
  cases s
  cases s'
  cases hregs
  cases hstatus
  cases i <;> rfl

/-- Neither the command an access starts nor the bytes it touches depend on memory, or on the events and the answer. -/
theorem portFootprint_congr {s' : State} (hregs : s'.regs = s.regs) (hstatus : s'.status = s.status)
    (hplatform : s'.platform = s.platform) : a.footprint s' = a.footprint s := by
  have hcommand : a.command s' = a.command s := by simp only [PortAccess.command, hplatform]
  simp only [PortAccess.footprint, hcommand, footprint_congr hregs hstatus]

theorem portFootprint_of_command (h : a.command s = some i) : a.footprint s = footprint i s := by
  rw [PortAccess.footprint, h]

theorem portFootprint_of_no_command (h : a.command s = none) : a.footprint s = Footprint.empty := by
  rw [PortAccess.footprint, h]

/-- R41, R42 by the offset of the access. -/
theorem legalAccess_iff : LegalAccess s a ↔ ∃ o, windowOffset s.platform a.addr = some o ∧ a.bits = 32 ∧ o % 4 = 0 := by
  constructor
  · rintro ⟨hbits, hlow, hhigh, hal⟩
    exact ⟨_, windowOffset_eq_some_iff.2 ⟨by omega, by omega⟩, hbits, hal⟩
  · rintro ⟨o, ho, hbits, hal⟩
    obtain ⟨hlt, haddr⟩ := windowOffset_eq_some_iff.1 ho
    exact ⟨hbits, by omega, by omega, by omega⟩

theorem offset_of_ofOffset {o : Nat} {r : Reg} (h : Reg.ofOffset o = some r) : o = r.offset :=
  (beq_iff_eq.1 (List.find?_some (p := fun r => Reg.offset r == o) h)).symm

/-- R17: only a write to CMD starts a command. -/
theorem command_eq_some_iff : a.command s = some i ↔ a.dir = .write ∧ a.bits = 32 ∧
    windowOffset s.platform a.addr = some Reg.cmd.offset ∧ decodeWord a.data = .ok i := by
  unfold PortAccess.command
  split_ifs with h
  · cases hw : decodeWord a.data <;> simp [h]
  · simp only [false_iff]
    exact fun ⟨hdir, hbits, ho, _⟩ => h ⟨hdir, hbits, ho⟩

/-- The access that starts a command is the command. -/
theorem portAccess_command (h : a.command s = some i) : portAccess a s = exec i s := by
  obtain ⟨hdir, hbits, ho, hw⟩ := command_eq_some_iff.1 h
  simp [portAccess, ho, hbits, hdir, Reg.offset_aligned, commandWrite, hw]

/-- R16: the access that writes a register other than CMD. -/
theorem portAccess_register {r : Reg} (hr : r ≠ .cmd) (hdir : a.dir = .write) (hbits : a.bits = 32)
    (haddr : a.addr = s.platform.regBase + r.offset) : portAccess a s = .next (hostWriteReg r a.data s) := by
  simp only [portAccess, haddr, windowOffset_reg, hbits, hdir, Reg.offset_aligned, ofOffset_offset]
  cases r <;> simp_all

/-- R77, R80: the code an illegal command word ends with. -/
def illegalCode (s : State) : ErrCode := if s.status.fatal then .halted else .illegalCmd

theorem illegalCommand_eq (w : Word) (s : State) :
    illegalCommand w s = .next (withOutcome s (w.extractLsb 7 0) (illegalCode s)) := by
  cases hs : s.status.fatal with
  | true => rw [illegalCommand_halted w hs, illegalCode, if_pos hs]
  | false => rw [illegalCommand_live w hs, illegalCode, if_neg (by simp [hs])]

theorem hostWriteReg_eq (r : Reg) (v : Word) (s : State) : hostWriteReg r v s =
    { s with regs := (hostWriteReg r v s).regs, status := (hostWriteReg r v s).status } := by cases r <;> rfl

@[simp] theorem hostWriteReg_mem (r : Reg) (v : Word) (s : State) : (hostWriteReg r v s).mem = s.mem := by
  rw [hostWriteReg_eq]

@[simp] theorem hostWriteReg_platform (r : Reg) (v : Word) (s : State) :
    (hostWriteReg r v s).platform = s.platform := by
  rw [hostWriteReg_eq]

@[simp] theorem hostWriteReg_input (r : Reg) (v : Word) (s : State) : (hostWriteReg r v s).input = s.input := by
  rw [hostWriteReg_eq]

@[simp] theorem hostWriteReg_answer (r : Reg) (v : Word) (s : State) : (hostWriteReg r v s).answer = s.answer := by
  rw [hostWriteReg_eq]

@[simp] theorem hostWriteReg_draws (r : Reg) (v : Word) (s : State) : (hostWriteReg r v s).draws = s.draws := by
  rw [hostWriteReg_eq]

/-- What a port access that answers a next state can have done (R16, R17, R43, R64). -/
inductive PortEffect (a : PortAccess) (s : State) : State → Prop where
  /-- A read. -/
  | read (v : Word) (h : a.command s = none) : PortEffect a s { s with answer := some v }
  /-- A write to a reserved offset. -/
  | reserved (h : a.command s = none) : PortEffect a s s
  /-- A write to a register other than CMD. -/
  | register {r : Reg} (hr : r ≠ .cmd) (hdir : a.dir = .write) (haddr : a.addr = s.platform.regBase + r.offset)
      (h : a.command s = none) : PortEffect a s (hostWriteReg r a.data s)
  /-- An illegal command word. -/
  | illegal (h : a.command s = none) : PortEffect a s (withOutcome s (a.data.extractLsb 7 0) (illegalCode s))
  /-- A command. -/
  | command {i : Instr} {t : State} (h : a.command s = some i) (ht : exec i s = .next t) : PortEffect a s t

/-- A legal access that starts no command answers a next state, and what it does beside memory does not depend on
memory, which it leaves alone. -/
theorem portAccess_no_command (hlegal : LegalAccess s a) (h : a.command s = none) :
    ∃ t, PortEffect a s t ∧ t.mem = s.mem ∧
      ∀ mem, portAccess a { s with mem := mem } = .next { t with mem := mem } := by
  obtain ⟨o, ho, hbits, hal⟩ := legalAccess_iff.1 hlegal
  cases hdir : a.dir with
  | read =>
    cases hr : Reg.ofOffset o with
    | none => exact ⟨_, .read 0 h, rfl, fun mem => by simp [portAccess, ho, hbits, hal, hdir, hr]⟩
    | some r =>
      refine ⟨_, .read (readReg r s) h, rfl, fun mem => ?_⟩
      have hread : readReg r { s with mem := mem } = readReg r s := by cases r <;> rfl
      simp [portAccess, ho, hbits, hal, hdir, hr, hread]
  | write =>
    cases hr : Reg.ofOffset o with
    | none => exact ⟨_, .reserved h, rfl, fun mem => by simp [portAccess, ho, hbits, hal, hdir, hr]⟩
    | some r =>
      obtain rfl := offset_of_ofOffset hr
      by_cases hcmd : r = .cmd
      · subst hcmd
        cases hw : decodeWord a.data with
        | ok i => cases (command_eq_some_iff.2 ⟨hdir, hbits, ho, hw⟩).symm.trans h
        | error e =>
          refine ⟨_, .illegal h, rfl, fun mem => ?_⟩
          simp [portAccess, ho, hbits, hdir, Reg.offset_aligned, commandWrite, hw, illegalCommand_eq, illegalCode,
            withOutcome]
      · have haddr := (windowOffset_eq_some_iff.1 ho).2
        refine ⟨_, .register hcmd hdir haddr h, hostWriteReg_mem r a.data s, fun mem => ?_⟩
        rw [portAccess_register (s := { s with mem := mem }) hcmd hdir hbits haddr]
        cases r <;> rfl

theorem portAccess_legal (h : portAccess a s = .next t) : LegalAccess s a := by
  rw [legalAccess_iff]
  unfold portAccess at h
  split at h
  next => cases h
  next o ho =>
    split_ifs at h with hillegal
    exact ⟨o, ho, by tauto, by tauto⟩

/-- Everything a port access can do. -/
theorem portAccess_effect (h : portAccess a s = .next t) : PortEffect a s t := by
  cases hcommand : a.command s with
  | some i => exact .command hcommand (portAccess_command hcommand ▸ h)
  | none =>
    obtain ⟨u, hu, hmem, heq⟩ := portAccess_no_command (portAccess_legal h) hcommand
    have hsame := (heq s.mem).symm.trans h
    rw [← hmem] at hsame
    cases hsame
    exact hu

theorem PortEffect.platform (h : PortEffect a s t) : t.platform = s.platform := by
  cases h with
  | register _ _ _ _ => exact hostWriteReg_platform _ _ _
  | command _ ht => exact exec_platform ht
  | _ => rfl

end

/-! ### When a port access goes through -/

section
variable {a : PortAccess} {s t : State}

/-- R42, R52: an access answers a next state exactly where it is legal and its command stays off the window. -/
theorem portAccess_next_iff : (∃ t, portAccess a s = .next t) ↔
    LegalAccess s a ∧ ∀ x ∈ (a.footprint s).touched, inWindow s.platform x = false := by
  cases hcommand : a.command s with
  | none =>
    rw [portFootprint_of_no_command hcommand]
    refine ⟨fun ⟨t, h⟩ => ⟨portAccess_legal h, by simp⟩, fun ⟨hlegal, _⟩ => ?_⟩
    obtain ⟨t, -, -, heq⟩ := portAccess_no_command hlegal hcommand
    exact ⟨_, heq s.mem⟩
  | some i =>
    rw [portFootprint_of_command hcommand]
    refine ⟨fun ⟨t, h⟩ => ⟨portAccess_legal h, fun x hx => Bool.eq_false_iff.2 fun hwin => ?_⟩, fun ⟨_, hout⟩ => ?_⟩
    · rw [portAccess_command hcommand, exec_refused ⟨x, hx, hwin⟩] at h
      cases h
    · rw [portAccess_command hcommand]
      exact exec_next_of_outside hout

/-- R134: an access cut short by reset, on the same terms. -/
theorem resetDuring_eq_next_iff : resetDuring a s = .next t ↔
    (LegalAccess s a ∧ ∀ x ∈ (a.footprint s).touched, inWindow s.platform x = false) ∧
    t = applyReset (drawBytes (a.footprint s).writes s) := by
  constructor
  · intro h
    unfold resetDuring at h
    split at h
    next => cases h
    next o ho =>
      split_ifs at h with hillegal hwin
      cases h
      exact ⟨⟨legalAccess_iff.2 ⟨o, ho, by tauto, by tauto⟩, by simpa using hwin⟩, rfl⟩
  · rintro ⟨⟨hlegal, hout⟩, rfl⟩
    obtain ⟨o, ho, hbits, hal⟩ := legalAccess_iff.1 hlegal
    exact resetDuring_next ho hbits hal hout

/-- R56: an access with others alongside goes through exactly where those stay off the window and off its bytes, and is
then the access alone from the memory they leave. -/
theorem alongside_eq_next_iff {others : List MemAccess} {rest : State → Outcome State Fault Refusal} :
    alongside a others rest s = .next t ↔
      (∀ m ∈ others, inWindow s.platform m.addr = false ∧ m.addr ∉ (a.footprint s).touched) ∧
      rest { s with mem := applyAll others s.mem } = .next t := by
  by_cases hmeet : ∃ m ∈ others, m.addr ∈ (a.footprint s).touched
  · rw [alongside_interference rest hmeet]
    obtain ⟨m, hm, hin⟩ := hmeet
    exact iff_of_false (by rintro ⟨⟩) fun ⟨h, _⟩ => (h m hm).2 hin
  · have hoff : ∀ m ∈ others, m.addr ∉ (a.footprint s).touched := fun m hm hin => hmeet ⟨m, hm, hin⟩
    have hany : others.any (fun m => (a.footprint s).touched.contains m.addr) = false := by simpa using hoff
    simp only [alongside, hany, Bool.false_eq_true, if_false]
    rcases memoryAccesses_cases others s with ⟨⟨m, hm, hwin⟩, hu⟩ | ⟨hpass, hu⟩ <;> rw [hu]
    · exact iff_of_false (by rintro ⟨⟩) fun ⟨h, _⟩ => Bool.false_ne_true ((h m hm).1.symm.trans hwin)
    · exact (and_iff_right fun m hm => ⟨hpass m hm, hoff m hm⟩).symm

end

/-! ### A step, event by event -/

/-- Where an access begins: its event taken, and other masters' accesses made. -/
def accessStart (s : State) (rest : List Event) (others : List MemAccess) : State :=
  { afterFetch s rest with mem := applyAll others s.mem }

section
variable {s t : State} {a : PortAccess} {others : List MemAccess} {rest : List Event}

@[simp] theorem accessStart_regs : (accessStart s rest others).regs = s.regs := rfl
@[simp] theorem accessStart_status : (accessStart s rest others).status = s.status := rfl
@[simp] theorem accessStart_mem : (accessStart s rest others).mem = applyAll others s.mem := rfl
@[simp] theorem accessStart_platform : (accessStart s rest others).platform = s.platform := rfl
@[simp] theorem accessStart_command : a.command (accessStart s rest others) = a.command s := rfl

@[simp] theorem accessStart_footprint : a.footprint (accessStart s rest others) = a.footprint s :=
  portFootprint_congr rfl rfl rfl

theorem accessStart_legal_iff : LegalAccess (accessStart s rest others) a ↔ LegalAccess s a :=
  ⟨fun ⟨hbits, hlow, hhigh, hal⟩ => ⟨hbits, hlow, hhigh, hal⟩,
    fun ⟨hbits, hlow, hhigh, hal⟩ => ⟨hbits, hlow, hhigh, hal⟩⟩

/-- R56's terms for the other masters beside an access. -/
def KeepOff (s : State) (a : PortAccess) (others : List MemAccess) : Prop :=
  ∀ m ∈ others, inWindow s.platform m.addr = false ∧ m.addr ∉ (a.footprint s).touched

theorem step_port_eq_next_iff (hin : s.input = .port a others :: rest) :
    step s = .next t ↔ KeepOff s a others ∧ portAccess a (accessStart s rest others) = .next t := by
  have hfoot : a.footprint (afterFetch s rest) = a.footprint s := portFootprint_congr rfl rfl rfl
  rw [step_of_input hin, handleEvent, alongside_eq_next_iff, hfoot]
  rfl

theorem step_portReset_eq_next_iff (hin : s.input = .portReset a others :: rest) :
    step s = .next t ↔ KeepOff s a others ∧ resetDuring a (accessStart s rest others) = .next t := by
  have hfoot : a.footprint (afterFetch s rest) = a.footprint s := portFootprint_congr rfl rfl rfl
  rw [step_of_input hin, handleEvent, alongside_eq_next_iff, hfoot]
  rfl

theorem step_memory_eq_next_iff {m : MemAccess} (hin : s.input = .memory m :: rest) :
    step s = .next t ↔ inWindow s.platform m.addr = false ∧ t = { afterFetch s rest with mem := m.apply s.mem } := by
  rw [step_of_input hin, handleEvent, memoryAccess_eq_next_iff]
  rfl

theorem step_powerUp (hin : s.input = .powerUp :: rest) : step s = .next (powerUp (afterFetch s rest)) := by
  rw [step_of_input hin, handleEvent]

/-- Everything a step that answers a next state can have done. -/
inductive StepEffect (s : State) : State → Prop where
  | idle (hin : s.input = []) : StepEffect s s
  | port {a : PortAccess} {others : List MemAccess} {rest : List Event} {t : State}
      (hin : s.input = .port a others :: rest) (hoff : KeepOff s a others)
      (ht : portAccess a (accessStart s rest others) = .next t) : StepEffect s t
  | portReset {a : PortAccess} {others : List MemAccess} {rest : List Event}
      (hin : s.input = .portReset a others :: rest) :
      StepEffect s (applyReset (drawBytes (a.footprint s).writes (accessStart s rest others)))
  | memory {m : MemAccess} {rest : List Event} (hin : s.input = .memory m :: rest) :
      StepEffect s { afterFetch s rest with mem := m.apply s.mem }
  | reset {rest : List Event} (hin : s.input = .reset :: rest) : StepEffect s (applyReset (afterFetch s rest))
  | powerUp {rest : List Event} (hin : s.input = .powerUp :: rest) : StepEffect s (powerUp (afterFetch s rest))

theorem step_effect (h : step s = .next t) : StepEffect s t := by
  cases hin : s.input with
  | nil =>
    rw [step_idle hin] at h
    cases h
    exact .idle hin
  | cons e rest =>
    cases e with
    | port a others =>
      obtain ⟨hoff, ht⟩ := (step_port_eq_next_iff hin).1 h
      exact .port hin hoff ht
    | portReset a others =>
      obtain ⟨-, ht⟩ := (step_portReset_eq_next_iff hin).1 h
      obtain ⟨-, rfl⟩ := resetDuring_eq_next_iff.1 ht
      rw [accessStart_footprint]
      exact .portReset hin
    | memory m =>
      obtain ⟨-, rfl⟩ := (step_memory_eq_next_iff hin).1 h
      exact .memory hin
    | reset =>
      rw [step_reset hin] at h
      cases h
      exact .reset hin
    | powerUp =>
      rw [step_powerUp hin] at h
      cases h
      exact .powerUp hin

end

/-! ### The statements about other masters -/

/-- Settles O49: the write is the whole step. -/
theorem memoryWritesBetweenCommandsAreSeen : Obligations.MemoryWritesBetweenCommandsAreSeen := by
  unfold Obligations.MemoryWritesBetweenCommandsAreSeen
  intro s a b rest hm hin hwin
  refine ⟨_, (step_memory_eq_next_iff hin).2 ⟨hwin, rfl⟩, Memory.read_write_same hm _ _, fun x hx => ?_⟩
  exact Memory.read_write_ne hm b (by simpa using hx)

/-- What each kind of event needs for a next state is what `Lawful` asks of it. -/
theorem safeStep_iff_lawful {s : State} {e : Event} {rest : List Event} (hin : s.input = e :: rest) :
    SafeStep s ↔ Lawful s e := by
  unfold SafeStep
  cases e with
  | port a others =>
    simp only [step_port_eq_next_iff hin, exists_and_left, portAccess_next_iff, accessStart_legal_iff,
      accessStart_footprint, accessStart_platform, Lawful, KeepOff]
    tauto
  | portReset a others =>
    simp only [step_portReset_eq_next_iff hin, resetDuring_eq_next_iff, exists_and_left, exists_eq, and_true,
      accessStart_legal_iff, accessStart_footprint, accessStart_platform, Lawful, KeepOff]
    tauto
  | memory m => simp only [step_memory_eq_next_iff hin, exists_and_left, exists_eq, and_true, Lawful]
  | reset => exact iff_of_true ⟨_, step_reset hin⟩ trivial
  | powerUp => exact iff_of_true ⟨_, step_powerUp hin⟩ trivial

/-- Settles O52: with no event to come SAC idles, and otherwise the event at the head decides. -/
theorem stepsAreSafeExactlyOnLawfulEvents : Obligations.StepsAreSafeExactlyOnLawfulEvents := by
  unfold Obligations.StepsAreSafeExactlyOnLawfulEvents
  intro s
  cases hin : s.input with
  | nil => exact iff_of_true ⟨s, step_idle hin⟩ (by rintro e rest ⟨⟩)
  | cons e rest =>
    rw [safeStep_iff_lawful hin]
    refine ⟨?_, fun h => h e rest rfl⟩
    rintro h _ _ ⟨⟩
    exact h

/-! ### Disjoint accesses and a command -/

/-- The addresses none of the accesses meets. -/
def untouchedBy (ms : List MemAccess) : Set Nat := {x | ∀ m ∈ ms, m.addr ≠ x}

theorem read_applyAll {ms : List MemAccess} {mem : Memory} (hm : mem.Wf) {x : Nat} (hx : x ∈ untouchedBy ms) :
    (applyAll ms mem).read x = mem.read x := by
  induction ms generalizing mem with
  | nil => rfl
  | cons m ms ih =>
    obtain ⟨hne, hrest⟩ := List.forall_mem_cons.1 hx
    rw [applyAll_cons, ih (m.apply_wf hm) hrest]
    cases m with
    | read a => rfl
    | write a b => exact Memory.read_write_ne hm b (Ne.symm hne)

theorem Memory.AlikeOn.applyAll {S : Set Nat} {mem mem' : Memory} (h : AlikeOn S mem mem') (ms : List MemAccess) :
    AlikeOn S (applyAll ms mem) (applyAll ms mem') := by
  induction ms generalizing mem mem' with
  | nil => exact h
  | cons m ms ih =>
    refine ih ?_
    cases m with
    | read a => exact h
    | write a b => exact (h.write a.isLt b).mono Set.subset_union_left

/-- A command and other masters' accesses off its bytes leave the same memory in either order. -/
theorem exec_commutes {i : Instr} {s t : State} {ms : List MemAccess} (hm : s.mem.Wf)
    (hoff : ∀ m ∈ ms, m.addr ∉ (footprint i s).touched)
    (ht : exec i { s with mem := applyAll ms s.mem } = .next t) :
    ∃ q, exec i s = .next q ∧ q.regs = t.regs ∧ q.status = t.status ∧ applyAll ms q.mem = t.mem := by
  have hfoot : footprint i { s with mem := applyAll ms s.mem } = footprint i s := footprint_congr rfl rfl
  have happlied := applyAll_wf hm ms
  have halike : Alike (untouchedBy ms) { s with mem := applyAll ms s.mem } s :=
    ⟨rfl, rfl, rfl, rfl, happlied, hm, fun x hx => (read_applyAll hm hx).symm⟩
  have hreads : ∀ x ∈ (footprint i { s with mem := applyAll ms s.mem }).reads, x ∈ untouchedBy ms := by
    rintro x hx m hmem rfl
    exact hoff m hmem (List.mem_append_left _ (hfoot ▸ hx))
  obtain ⟨q, hq, hqt⟩ := (halike.exec i hreads).of_next ht
  refine ⟨q, hq, hqt.regs, hqt.status, ?_⟩
  have hkept : SameOutside (footprint i s).writes s.mem q.mem := exec_sameOutside hm hq
  have hkept' : SameOutside (footprint i s).writes (applyAll ms s.mem) t.mem := hfoot ▸ exec_sameOutside happlied ht
  refine Memory.ext_read (applyAll_wf hqt.mem.wf' ms) hqt.mem.wf fun x => ?_
  by_cases hx : x ∈ untouchedBy ms
  · rw [read_applyAll hqt.mem.wf' hx]
    exact hqt.mem.read x (.inl hx)
  · have hwrites : x ∉ (footprint i s).writes := fun hin => hx fun m hmem hmx =>
      hoff m hmem (List.mem_append_right _ (hmx ▸ hin))
    have hsame : s.mem.AlikeOn {x | x ∉ (footprint i s).writes} q.mem := ⟨hm, hqt.mem.wf', hkept⟩
    exact ((hsame.applyAll ms).read x hwrites).trans (hkept' x hwrites).symm

/-- Settles O51: the quiet access starts from the memory before the others' accesses, off whose bytes it stays. -/
theorem disjointAccessesCommuteWithTheCommand : Obligations.DisjointAccessesCommuteWithTheCommand := by
  unfold Obligations.DisjointAccessesCommuteWithTheCommand
  intro s t a others rest hm hin hstep
  obtain ⟨hoff, ht⟩ := (step_port_eq_next_iff hin).1 hstep
  have hquiet : step { s with input := .port a [] :: rest } = portAccess a (afterFetch s rest) := step_port rfl
  have hothers {q : State} (hq : q.platform = s.platform) :
      memoryAccesses others q = .next { q with mem := applyAll others q.mem } :=
    memoryAccesses_eq_next_iff.2 ⟨fun m hmem => hq ▸ (hoff m hmem).1, rfl⟩
  rw [hquiet]
  cases hcommand : a.command s with
  | none =>
    have hlegal : LegalAccess (afterFetch s rest) a := accessStart_legal_iff.1 (portAccess_legal ht)
    obtain ⟨q, hq, -, heq⟩ := portAccess_no_command hlegal hcommand
    cases (heq (applyAll others s.mem)).symm.trans ht
    exact ⟨_, _, heq s.mem, hothers hq.platform, rfl, rfl, rfl, rfl, rfl⟩
  | some i =>
    have hstart (st : State) (hst : a.command st = a.command s) : portAccess a st = exec i st :=
      portAccess_command (hst.trans hcommand)
    rw [hstart (accessStart s rest others) rfl] at ht
    rw [hstart (afterFetch s rest) rfl]
    have hoff : ∀ m ∈ others, m.addr ∉ (footprint i (afterFetch s rest)).touched := fun m hmem => by
      rw [footprint_afterFetch, ← portFootprint_of_command hcommand]
      exact (hoff m hmem).2
    obtain ⟨q, hq, hregs, hstatus, hmem⟩ := exec_commutes (s := afterFetch s rest) hm hoff ht
    refine ⟨q, _, hq, hothers ((exec_platform hq).trans rfl), hregs, hstatus, ?_, ?_,
      hmem⟩
    · exact (exec_answer hq).trans (exec_answer ht).symm
    · exact (exec_input hq).trans (exec_input ht).symm

end Sys2Proof.Machine
end

section
/-!
PROOFS. O57, O58, O59 and O60, the invariants (10_state.md section 3, 20_memory.md section 2): what host writes,
commands and resets keep, every step but power-up keeps.
-/

namespace Sys2Proof.Machine

/-! ### Invariants of registers and STATUS -/

/-- What it takes for a property of registers and STATUS to hold after every step but power-up. -/
structure RegisterProperty (P : State → Prop) : Prop where
  congr : ∀ {s t : State}, P s → t.regs = s.regs → t.status = s.status → P t
  reset : ∀ {s : State}, s.regs = Regs.reset → s.status = Status.reset → P s
  hostWrite : ∀ {s : State} (r : Reg) (v : Word), P s → P (hostWriteReg r v s)
  illegal : ∀ {s : State} (op : Byte), P s → P (withOutcome s op (illegalCode s))
  exec : ∀ {i : Instr} {s t : State}, exec i s = .next t → P s → P t

theorem RegisterProperty.portAccess {P : State → Prop} (hP : RegisterProperty P) {a : PortAccess} {s t : State}
    (h : portAccess a s = .next t) (hs : P s) : P t := by
  cases portAccess_effect h with
  | read v _ => exact hP.congr hs rfl rfl
  | reserved _ => exact hs
  | register _ _ _ _ => exact hP.hostWrite _ _ hs
  | illegal _ => exact hP.illegal _ hs
  | command _ ht => exact hP.exec ht hs

/-- The induction step of every run after a reset. -/
theorem RegisterProperty.step {P : State → Prop} (hP : RegisterProperty P) {s t : State}
    (hs : P s ∨ ∃ e rest, s.input = e :: rest ∧ e.resets = true) (hup : s.input.head? ≠ some .powerUp)
    (h : step s = .next t) : P t := by
  have hkeep (hno : ∀ e rest, s.input = e :: rest → e.resets = false) : P s :=
    hs.resolve_right fun ⟨e, rest, hin, he⟩ => Bool.false_ne_true ((hno e rest hin).symm.trans he)
  cases step_effect h with
  | idle hin => exact hkeep (by simp [hin])
  | port hin _ ht => exact hP.portAccess ht (hP.congr (hkeep (by simp [hin, Event.resets])) rfl rfl)
  | memory hin => exact hP.congr (hkeep (by simp [hin, Event.resets])) rfl rfl
  | portReset hin => exact hP.reset rfl rfl
  | reset hin => exact hP.reset rfl rfl
  | powerUp hin => exact absurd (by rw [hin]; rfl) hup

/-! ### O57 -/

@[simp] theorem hostWriteReg_fatal (r : Reg) (v : Word) (s : State) :
    (hostWriteReg r v s).status.fatal = s.status.fatal := by cases r <;> rfl

theorem notFatal_registerProperty : RegisterProperty fun s => s.status.fatal = false where
  congr h _ hstatus := hstatus ▸ h
  reset _ hstatus := hstatus ▸ rfl
  hostWrite r v h := (hostWriteReg_fatal r v _).trans h
  illegal _ h := h
  exec ht h := (noInvariant_exec _ _ _ ht).2.trans h

/-- Settles O57: commands leave FATAL alone (R88), and so does everything else but power-up. -/
theorem fatalIsNeverSet : Obligations.FatalIsNeverSet := by
  unfold Obligations.FatalIsNeverSet
  exact fun s t hs hup hstep => notFatal_registerProperty.step (.inl hs) hup hstep

/-! ### O58 -/

theorem exec_wf {i : Instr} {s t : State} (h : exec i s = .next t) (hm : s.mem.Wf) : t.mem.Wf := by
  cases exec_ends h with
  | rejected _ => exact hm
  | passed _ _ hmem => exact hmem hm

theorem portAccess_wf {a : PortAccess} {s t : State} (h : portAccess a s = .next t) (hm : s.mem.Wf) : t.mem.Wf := by
  cases portAccess_effect h with
  | register _ _ _ _ => rwa [hostWriteReg_mem]
  | command _ ht => exact exec_wf ht hm
  | _ => exact hm

/-- R50 for the bytes an access cut short would have written. -/
theorem portFootprint_writes_lt {a : PortAccess} {s : State} {x : Nat} (hx : x ∈ (a.footprint s).writes) :
    x < Config.memSpace := by
  cases hcommand : a.command s with
  | none =>
    rw [portFootprint_of_no_command hcommand] at hx
    cases hx
  | some i =>
    rw [portFootprint_of_command hcommand] at hx
    exact footprint_touched_lt (List.mem_append_right _ hx)

/-- Settles O58: every byte any event writes lies in the memory space. -/
theorem everyStepKeepsMemoryCanonical : Obligations.EveryStepKeepsMemoryCanonical := by
  unfold Obligations.EveryStepKeepsMemoryCanonical
  intro s t hm hstep
  cases step_effect hstep with
  | port _ _ ht => exact portAccess_wf ht (applyAll_wf hm _)
  | portReset _ => exact drawBytes_wf (fun _ => portFootprint_writes_lt) (applyAll_wf hm _)
  | memory _ => exact MemAccess.apply_wf hm _
  | _ => exact hm

/-! ### O59 and O60 -/

theorem ErrCode.code_le {c : ErrCode} (hinvariant : c ≠ .invariant) (hhalted : c ≠ .halted) :
    c.code.toNat ≤ 0x0E := by
  cases c with
  | invariant => exact absurd rfl hinvariant
  | halted => exact absurd rfl hhalted
  | _ => decide

section
variable {s t : State}

theorem RegisterInv.congr (h : RegisterInv s) (hregs : t.regs = s.regs) (hstatus : t.status = s.status) :
    RegisterInv t := by
  obtain ⟨hfatal, herr, ⟨htbits, hxy, hxz, hyz, hunion⟩, hcurrent, hmorton, hdst, hsrc, hhdr⟩ := h
  simp only [← hregs, ← hstatus] at *
  exact ⟨hfatal, herr, ⟨htbits, hxy, hxz, hyz, hunion⟩, hcurrent, hmorton, hdst, hsrc, hhdr⟩

/-- R38: the reset values meet every one of the invariants. -/
theorem registerInv_reset (hregs : s.regs = Regs.reset) (hstatus : s.status = Status.reset) : RegisterInv s := by
  refine RegisterInv.congr (s := State.reset) ?_ hregs hstatus
  exact ⟨rfl, by decide, ⟨by decide, rfl, rfl, rfl, rfl⟩, by rintro ⟨⟩, by decide, rfl, rfl, .inl rfl⟩

/-- LAST_OP is free, and ERR may take any code a SAC that is not halted reports. -/
theorem RegisterInv.withOutcome (h : RegisterInv s) (op : Byte) {c : ErrCode} (hinvariant : c ≠ .invariant)
    (hhalted : c ≠ .halted) : RegisterInv (withOutcome s op c) :=
  have ⟨htbits, hxy, hxz, hyz, hunion⟩ := h.masks
  ⟨h.notFatal, ErrCode.code_le hinvariant hhalted, ⟨htbits, hxy, hxz, hyz, hunion⟩, h.current, h.morton, h.dst, h.src,
    h.header⟩

/-- R19, R24: a new dimension clears MASK_VALID, and no other RW register is in the invariants. -/
theorem RegisterInv.hostWriteReg (h : RegisterInv s) (r : Reg) (v : Word) : RegisterInv (hostWriteReg r v s) := by
  have ⟨htbits, hxy, hxz, hyz, hunion⟩ := h.masks
  cases r with
  | width | height | depth =>
    exact ⟨h.notFatal, h.err, ⟨htbits, hxy, hxz, hyz, hunion⟩, by rintro ⟨⟩, h.morton, h.dst, h.src, h.header⟩
  | _ => exact ⟨h.notFatal, h.err, ⟨htbits, hxy, hxz, hyz, hunion⟩, h.current, h.morton, h.dst, h.src, h.header⟩

/-- R84: latched masks partition the low TBITS bits and are the current ones. -/
theorem RegisterInv.withMasks (h : RegisterInv s)
    (hd : DimsAdmitted s.regs.width.toNat s.regs.height.toNat s.regs.depth.toNat) :
    RegisterInv (withMasks s.regs.width.toNat s.regs.height.toNat s.regs.depth.toNat s) :=
  ⟨h.notFatal, h.err, masksPartition_withMasks hd s, fun _ => ⟨hd, withMasks_masks_toNat hd s⟩, h.morton, h.dst, h.src,
    h.header⟩

/-- R100 to R102: the index of masks that partition at most 30 bits, four times it, and a multiple of 4. -/
theorem RegisterInv.writeOffsets (h : RegisterInv s) (hcoord : CoordAdmitted s) : RegisterInv (writeOffsets s) := by
  have ⟨htbits, hxy, hxz, hyz, hunion⟩ := h.masks
  have hindex : (Machine.writeOffsets s).regs.mortonIndex.toNat = coordMorton s := h.masks.mortonIndex_toNat
  have hdst : (Machine.writeOffsets s).regs.dstOffset.toNat = 4 * coordMorton s := h.masks.dstOffset_toNat
  have hsrc : (Machine.writeOffsets s).regs.srcOffset.toNat =
      (s.regs.coordY.toNat * s.regs.rowPitch.toNat + s.regs.coordX.toNat) * 4 := hcoord.srcOffset_toNat
  refine ⟨h.notFatal, h.err, ⟨htbits, hxy, hxz, hyz, hunion⟩, h.current, ?_, ?_, ?_, h.header⟩
  · exact hindex.trans_lt h.masks.coordMorton_lt_two_pow_thirty
  · rw [hdst, hindex]
  · rw [hsrc, Nat.mul_mod_left]

/-- The register work of a command whose checks pass keeps the invariants. -/
theorem RegisterInv.registerWork (h : RegisterInv s) {i : Instr} (hadm : Admits i s) :
    RegisterInv (registerWork i s) := by
  have ⟨htbits, hxy, hxz, hyz, hunion⟩ := h.masks
  cases i with
  | nop => exact h
  | genMasks => exact h.withMasks hadm
  | calcAddr => exact h.writeOffsets hadm
  | permutePixel =>
    exact ⟨h.notFatal, h.err, ⟨htbits, hxy, hxz, hyz, hunion⟩, h.current, h.morton, h.dst, h.src, h.header⟩
  | transform =>
    have hmasks := h.withMasks (TransformAdmitted.dims_depth hadm)
    rwa [TransformAdmitted.depthOne hadm] at hmasks
  | buildHeader =>
    have htotal : (BitVec.ofNat 32 (headerTotal s)).toNat = 36 + s.regs.payloadLen.toNat :=
      toNat_ofNat_of_lt (Nat.lt_succ_of_le (HeaderAdmitted.total hadm))
    exact ⟨h.notFatal, h.err, ⟨htbits, hxy, hxz, hyz, hunion⟩, h.current, h.morton, h.dst, h.src,
      .inr ⟨_, htotal ▸ Nat.le_add_right _ _, rfl⟩⟩

/-- R70: no check of a command's own reports OK, INVARIANT or HALTED. -/
theorem ownChecks_codes (i : Instr) (s : State) :
    ∀ p ∈ ownChecks i s, p.2 ≠ .ok ∧ p.2 ≠ .invariant ∧ p.2 ≠ .halted := by
  cases i <;> simp [ownChecks, dimChecks, calcAddrChecks, transformChecks, headerChecks]

theorem RegisterInv.exec (h : RegisterInv s) {i : Instr} (ht : exec i s = .next t) : RegisterInv t := by
  cases exec_ends ht with
  | @rejected c hc =>
    rw [checks_live h.notFatal] at hc
    obtain ⟨-, hinvariant, hhalted⟩ := ownChecks_codes i s _ (mem_of_firstError hc)
    exact h.withOutcome _ hinvariant hhalted
  | @passed c mem draws hnone hc _ =>
    have hwork := h.registerWork ((checks_none_iff i s).1 hnone).2
    have hcode : c ≠ .invariant ∧ c ≠ .halted := by rcases hc with rfl | ⟨rfl, -⟩ <;> decide
    exact (hwork.withOutcome i.opcode hcode.1 hcode.2).congr rfl rfl

end

theorem registerInv_registerProperty : RegisterProperty RegisterInv where
  congr := RegisterInv.congr
  reset := registerInv_reset
  hostWrite r v h := h.hostWriteReg r v
  illegal {s} op h := by
    have hcode : illegalCode s = .illegalCmd := if_neg (by simp [h.notFatal])
    rw [hcode]
    exact h.withOutcome op (by decide) (by decide)
  exec ht h := h.exec ht

/-- Settles O59: nothing is listed in memory, and every register is 0. -/
theorem resetStateMeetsTheInvariants : Obligations.ResetStateMeetsTheInvariants := by
  unfold Obligations.ResetStateMeetsTheInvariants
  exact ⟨Memory.wf_nil, registerInv_reset rfl rfl⟩

/-- Settles O60: the invariants are a property that host writes, commands and resets keep. -/
theorem everyStepKeepsTheRegisterInvariants : Obligations.EveryStepKeepsTheRegisterInvariants := by
  unfold Obligations.EveryStepKeepsTheRegisterInvariants
  exact fun s t => registerInv_registerProperty.step

end Sys2Proof.Machine
end

section
/-!
PROOFS. What registers and STATUS a step changes (10_state.md R15, R16, R19, R20): O10 and O11, host reads and writes;
O14, the writers of each register; O15, MASK_VALID; O56, the halted SAC.
-/

namespace Sys2Proof.Machine

/-! ### Host reads and writes -/

/-- R15's map: each offset with what a host reads there. -/
def registerMap (s : State) : List (Nat × Word) := Reg.all.map fun r => (r.offset, readReg r s)

/-- Settles O10: the list of the statement is the register map. -/
theorem hostReadReturnsTheRegister : Obligations.HostReadReturnsTheRegister := by
  unfold Obligations.HostReadReturnsTheRegister
  intro s rest o v hov hin
  have hmap : (o, v) ∈ registerMap s := hov
  obtain ⟨r, -, hr⟩ := List.mem_map.1 hmap
  cases hr
  have hread : readReg r (afterFetch s rest) = readReg r s := by cases r <;> rfl
  rw [step_hostRead hin, hread]
  rfl

section
variable {r r' : Reg} {s t : State} {i : Instr}

/-- Every register but STATUS is read from the registers alone. -/
theorem readReg_congr (hregs : t.regs = s.regs) (hr : r ≠ .status) : readReg r t = readReg r s := by
  cases r with
  | status => exact absurd rfl hr
  | _ => simp only [readReg, hregs]

/-- R16: a host write stores in its own register, if that is RW. -/
theorem readReg_hostWriteReg (r : Reg) (v : Word) (s : State) (hr' : r' ≠ .status) :
    readReg r' (hostWriteReg r v s) = if r' = r ∧ r.access = .rw then v else readReg r' s := by
  cases r' with
  | status => exact absurd rfl hr'
  | _ => cases r <;> rfl

/-- R24: the three dimensions, whose host writes clear MASK_VALID. -/
def Reg.IsDimension (r : Reg) : Prop := r = .width ∨ r = .height ∨ r = .depth

theorem hostWriteReg_status_dimension (hr : r.IsDimension) (v : Word) (s : State) :
    (hostWriteReg r v s).status = { s.status with maskValid := false } := by
  rcases hr with rfl | rfl | rfl <;> rfl

theorem hostWriteReg_status_other (hr : ¬ r.IsDimension) (v : Word) (s : State) :
    (hostWriteReg r v s).status = s.status := by
  cases r with
  | width | height | depth => exact absurd (by simp [Reg.IsDimension]) hr
  | _ => rfl

/-- Settles O11: `hostWriteReg`, register by register. -/
theorem hostWriteChangesOneRwRegister : Obligations.HostWriteChangesOneRwRegister := by
  unfold Obligations.HostWriteChangesOneRwRegister
  intro s r v rest hr hin
  refine ⟨_, step_hostWrite hr hin, hostWriteReg_input _ _ _, hostWriteReg_answer _ _ _, hostWriteReg_mem _ _ _,
    hostWriteReg_platform _ _ _, hostWriteReg_draws _ _ _, ?_, fun r' hr' => ?_⟩
  · split_ifs with hdim
    · exact hostWriteReg_status_dimension hdim _ _
    · exact hostWriteReg_status_other hdim _ _
  · rw [readReg_hostWriteReg r v _ hr', readReg_congr (t := afterFetch s rest) (s := s) rfl hr']

/-! ### The writers of each register -/

/-- R16's table, column by column: a command's register work writes no register it is no writer of. -/
theorem readReg_registerWork (hr : r ≠ .status) (hi : i ∉ r.writers) (s : State) :
    readReg r (registerWork i s) = readReg r s := by
  cases r with
  | status => exact absurd rfl hr
  | maskX | maskY | maskZ =>
    cases i with
    | genMasks | transform => exact absurd (by simp [Reg.writers]) hi
    | _ => rfl
  | mortonIndex | dstOffset | srcOffset =>
    cases i with
    | calcAddr => exact absurd (by simp [Reg.writers]) hi
    | _ => rfl
  | pixelOut =>
    cases i with
    | permutePixel => exact absurd (by simp [Reg.writers]) hi
    | _ => rfl
  | hdr0 | hdr1 | hdr2 | hdr3 | hdr4 | hdr5 | hdr6 | hdr7 | hdr8 =>
    cases i with
    | buildHeader => exact absurd (by simp [Reg.writers]) hi
    | _ => rfl
  | _ => cases i <;> rfl

theorem mem_writers_of_exec (ht : exec i s = .next t) (hr : r ≠ .status) (hne : readReg r t ≠ readReg r s) :
    i ∈ r.writers := by
  by_contra hi
  cases exec_ends ht with
  | rejected _ => exact hne (readReg_congr rfl hr)
  | passed _ _ _ =>
    refine hne (Eq.trans ?_ (readReg_registerWork hr hi s))
    exact readReg_congr rfl hr

/-- R16: commands write RO registers only. -/
theorem access_of_mem_writers (hi : i ∈ r.writers) : r.access = .ro := by
  revert hi
  cases r <;> simp [Reg.writers, Reg.access]

end

/-- Settles O14: between resets only a port access changes registers, and of its effects only a register write and a
command do. -/
theorem everyRegisterHasItsWriters : Obligations.EveryRegisterHasItsWriters := by
  unfold Obligations.EveryRegisterHasItsWriters
  intro s t e rest r hin hstep he hr hne
  have hsame {u : State} (hu : u.regs = s.regs) : readReg r u = readReg r s := readReg_congr hu hr
  cases step_effect hstep with
  | idle hin' => cases hin.symm.trans hin'
  | portReset hin' => cases hin.symm.trans hin'; cases he
  | reset hin' => cases hin.symm.trans hin'; cases he
  | powerUp hin' => cases hin.symm.trans hin'; cases he
  | memory hin' => exact (hne (hsame rfl)).elim
  | @port a others _ _ hin' _ ht =>
    cases hin.symm.trans hin'
    cases portAccess_effect ht with
    | read v _ => exact (hne (hsame rfl)).elim
    | reserved _ => exact (hne (hsame rfl)).elim
    | illegal _ => exact (hne (hsame rfl)).elim
    | @register r' _ hdir haddr _ =>
      rw [readReg_hostWriteReg r' _ _ hr] at hne
      split_ifs at hne with hrr'
      · obtain ⟨rfl, hrw⟩ := hrr'
        exact .inl ⟨hrw, a, others, rfl, hdir, (portAccess_legal ht).width, haddr⟩
      · exact (hne (hsame rfl)).elim
    | command hcommand ht' =>
      have hwriter := mem_writers_of_exec ht' hr (by rwa [hsame (u := accessStart s rest others) rfl])
      exact .inr ⟨access_of_mem_writers hwriter, _, hwriter, hcommand⟩

/-! ### MASK_VALID -/

/-- R19: the events that set MASK_VALID. -/
def Latches (s : State) (e : Event) (t : State) : Prop :=
  (e.starts s = some .genMasks ∧ t.status.err = 0x00) ∨
  (e.starts s = some .transform ∧ s.status.fatal = false ∧ TransformAdmitted s)

/-- R19: the events that clear it. -/
def Unlatches (s : State) (e : Event) : Prop :=
  e.resets = true ∨ e.writesReg s .width ∨ e.writesReg s .height ∨ e.writesReg s .depth

section
variable {s t : State} {i : Instr}

/-- R84, R107: a command sets MASK_VALID where it latches masks, and otherwise leaves it alone. -/
theorem exec_maskValid_iff (ht : exec i s = .next t) : t.status.maskValid = true ↔
    s.status.maskValid = true ∨ (i = .genMasks ∧ t.status.err = 0x00) ∨
    (i = .transform ∧ s.status.fatal = false ∧ TransformAdmitted s) := by
  cases exec_ends ht with
  | @rejected c hc =>
    have hno : ¬ ((i = .genMasks ∧ c.code = 0x00) ∨
        (i = .transform ∧ s.status.fatal = false ∧ TransformAdmitted s)) := by
      rintro (⟨-, hok⟩ | ⟨rfl, hs, hadm⟩)
      · have hcodes : ∀ p ∈ commandChecks i s, p.2 ≠ .ok :=
          List.forall_mem_cons.2 ⟨(by decide : ErrCode.halted ≠ .ok), fun p hp => (ownChecks_codes i s p hp).1⟩
        exact hcodes _ (mem_of_firstError hc) (ErrCode.code_injective hok)
      · rw [(checks_none_iff .transform s).2 ⟨hs, hadm⟩] at hc
        cases hc
    exact (or_iff_left hno).symm
  | @passed c mem draws hnone hc _ =>
    obtain ⟨hs, hadm⟩ := (checks_none_iff i s).1 hnone
    cases i with
    | genMasks =>
      have hok : c = .ok := hc.resolve_right fun ⟨_, a, ha, _⟩ => List.not_mem_nil ha
      exact iff_of_true rfl (.inr (.inl ⟨rfl, hok ▸ rfl⟩))
    | transform => exact iff_of_true rfl (.inr (.inr ⟨rfl, hs, hadm⟩))
    | _ => exact (or_iff_left (by simp)).symm

theorem unlatches_iff {e : Event} :
    Unlatches s e ↔ e.resets = true ∨ ∃ r : Reg, r.IsDimension ∧ e.writesReg s r := by
  simp only [Unlatches, Reg.IsDimension, or_and_right, exists_or, exists_eq_left]

/-- A write to CMD clears nothing. -/
theorem not_unlatches_of_starts {e : Event} (h : e.starts s = some i) : ¬ Unlatches s e := by
  rw [unlatches_iff]
  rintro (hresets | ⟨r, hdim, a, others, rfl, -, -, haddr⟩)
  · cases e with
    | port => cases hresets
    | _ => cases h
  · obtain ⟨-, -, ho, -⟩ := command_eq_some_iff.1 h
    rw [haddr, windowOffset_reg, Option.some_inj] at ho
    obtain rfl := Reg.offset_inj ho
    rcases hdim with hr | hr | hr <;> cases hr

/-- R19 for a port access. -/
theorem portAccess_maskValid_iff {a : PortAccess} {others : List MemAccess} {rest : List Event}
    (ht : portAccess a (accessStart s rest others) = .next t) : t.status.maskValid = true ↔
      Latches s (.port a others) t ∨ s.status.maskValid = true ∧ ¬ Unlatches s (.port a others) := by
  cases hcommand : a.command s with
  | some i =>
    have hstarts : (Event.port a others).starts s = some i := hcommand
    have hexec : exec i (accessStart s rest others) = .next t :=
      (portAccess_command (s := accessStart s rest others) hcommand).symm.trans ht
    have hadm : TransformAdmitted (accessStart s rest others) ↔ TransformAdmitted s :=
      (transformChecks_none_iff _).symm.trans (transformChecks_none_iff s)
    rw [exec_maskValid_iff hexec, hadm, Latches, hstarts, Option.some_inj, Option.some_inj,
      and_iff_left (not_unlatches_of_starts hstarts), or_comm]
    rfl
  | none =>
    have hno : ¬ Latches s (.port a others) t := by
      rintro (⟨hstarts, -⟩ | ⟨hstarts, -⟩) <;> cases hcommand.symm.trans hstarts
    rw [or_iff_right hno]
    by_cases hun : Unlatches s (.port a others)
    · obtain hresets | ⟨r, hdim, _, _, heq, hdir, hbits, haddr⟩ := unlatches_iff.1 hun
      · cases hresets
      · cases heq
        have hr : r ≠ .cmd := by rintro rfl; rcases hdim with h | h | h <;> cases h
        cases (portAccess_register (s := accessStart s rest others) hr hdir hbits haddr).symm.trans ht
        rw [hostWriteReg_status_dimension hdim]
        exact iff_of_false Bool.false_ne_true fun h => h.2 hun
    · rw [and_iff_left hun]
      cases portAccess_effect ht with
      | @register r _ hdir haddr _ =>
        have hother : ¬ r.IsDimension := fun hdim =>
          hun (unlatches_iff.2 (.inr ⟨r, hdim, a, others, rfl, hdir, (portAccess_legal ht).width, haddr⟩))
        rw [hostWriteReg_status_other hother]
        rfl
      | command h _ => cases hcommand.symm.trans h
      | _ => rfl

/-- R19, for every event but power-up: MASK_VALID is set by the events that latch masks, cleared by a reset and by a new
dimension, and left alone by the rest. -/
theorem step_maskValid_iff {e : Event} {rest : List Event} (hin : s.input = e :: rest) (hstep : step s = .next t)
    (hup : e ≠ .powerUp) :
    t.status.maskValid = true ↔ Latches s e t ∨ s.status.maskValid = true ∧ ¬ Unlatches s e := by
  have hnone (hstarts : e.starts s = none) : ¬ Latches s e t := by
    rintro (⟨h, -⟩ | ⟨h, -⟩) <;> cases hstarts.symm.trans h
  have hreset (hstarts : e.starts s = none) (hresets : e.resets = true) (ht : t.status = Status.reset) :
      t.status.maskValid = true ↔ Latches s e t ∨ s.status.maskValid = true ∧ ¬ Unlatches s e := by
    rw [or_iff_right (hnone hstarts), ht]
    exact iff_of_false Bool.false_ne_true fun h => h.2 (.inl hresets)
  cases step_effect hstep with
  | idle hin' => cases hin.symm.trans hin'
  | powerUp hin' => cases hin.symm.trans hin'; exact absurd rfl hup
  | portReset hin' => cases hin.symm.trans hin'; exact hreset rfl rfl rfl
  | reset hin' => cases hin.symm.trans hin'; exact hreset rfl rfl rfl
  | @memory m _ hin' =>
    cases hin.symm.trans hin'
    have hun : ¬ Unlatches s (.memory m) := by
      rintro (h | ⟨_, _, h, -⟩ | ⟨_, _, h, -⟩ | ⟨_, _, h, -⟩) <;> cases h
    rw [or_iff_right (hnone rfl), and_iff_left hun]
    rfl
  | port hin' _ ht => cases hin.symm.trans hin'; exact portAccess_maskValid_iff ht

end

/-- Settles O15: the five clauses are readings of `step_maskValid_iff`. -/
theorem maskValidChangesOnlyAsStated : Obligations.MaskValidChangesOnlyAsStated := by
  unfold Obligations.MaskValidChangesOnlyAsStated
  intro s t e rest hin hstep hup
  have hiff := step_maskValid_iff hin hstep hup
  refine ⟨fun hstarts hok => hiff.2 (.inl (.inl ⟨hstarts, hok⟩)),
    fun hstarts hs hadm => hiff.2 (.inl (.inr ⟨hstarts, hs, hadm⟩)), fun hun => ?_, fun hs ht => ?_, fun hs ht => ?_⟩
  · rw [Bool.eq_false_iff, ne_eq, hiff]
    rintro ((⟨hstarts, -⟩ | ⟨hstarts, -⟩) | ⟨-, hkept⟩)
    exacts [not_unlatches_of_starts hstarts hun, not_unlatches_of_starts hstarts hun, hkept hun]
  · rcases hiff.1 ht with hlatches | ⟨hvalid, -⟩
    · exact hlatches.imp_right fun ⟨hstarts, _, hadm⟩ => ⟨hstarts, hadm⟩
    · exact absurd (hs.symm.trans hvalid) Bool.false_ne_true
  · by_contra hun
    exact Bool.false_ne_true (ht.symm.trans (hiff.2 (.inr ⟨hs, hun⟩)))

/-! ### The halted SAC -/

/-- R77, R124: on a halted SAC a port access keeps FATAL and memory, and a command changes no register. -/
theorem portAccess_halted {a : PortAccess} {s t : State} (hs : s.status.fatal = true) (ht : portAccess a s = .next t) :
    t.status.fatal = true ∧ t.mem = s.mem ∧
      ∀ i, a.command s = some i → t.status.err = ErrCode.halted.code ∧ t.regs = s.regs := by
  cases hcommand : a.command s with
  | some i =>
    rw [portAccess_command hcommand, exec_halted i hs] at ht
    cases ht
    exact ⟨hs, rfl, fun _ _ => ⟨rfl, rfl⟩⟩
  | none =>
    have hfatal : t.status.fatal = true ∧ t.mem = s.mem := by
      cases portAccess_effect ht with
      | register _ _ _ _ => exact ⟨(hostWriteReg_fatal _ _ _).trans hs, hostWriteReg_mem _ _ _⟩
      | command h _ => cases hcommand.symm.trans h
      | _ => exact ⟨hs, rfl⟩
    exact ⟨hfatal.1, hfatal.2, by rintro i ⟨⟩⟩

/-- Settles O56: every command of a halted SAC ends at R77, before its first write. -/
theorem fatalLastsUntilReset : Obligations.FatalLastsUntilReset := by
  unfold Obligations.FatalLastsUntilReset
  intro s t e rest hin hstep hs he
  cases step_effect hstep with
  | idle hin' => cases hin.symm.trans hin'
  | portReset hin' => cases hin.symm.trans hin'; cases he
  | reset hin' => cases hin.symm.trans hin'; cases he
  | powerUp hin' => cases hin.symm.trans hin'; cases he
  | memory hin' =>
    cases hin.symm.trans hin'
    exact ⟨hs, by rintro i ⟨⟩, by rintro a ⟨⟩⟩
  | port hin' _ ht =>
    cases hin.symm.trans hin'
    obtain ⟨hfatal, hmem, hcommand⟩ := portAccess_halted (s := accessStart s rest _) hs ht
    exact ⟨hfatal, hcommand, by rintro a ⟨⟩; exact hmem⟩

end Sys2Proof.Machine
end

section
/-!
PROOFS. O26, O28 and O29, the Morton index of every image (41_morton_order_encoder.md R94, R96): the last claim of R94
fails at 3 x 1 x 1 (log entry 17).
-/

namespace Sys2Proof.Machine

/-- Settles O26: Gather finds a coordinate in its index, and below 2^TB every number is the index of what is gathered
from it. -/
theorem gatherInvertsTheMortonIndex : Obligations.GatherInvertsTheMortonIndex := by
  unfold Obligations.GatherInvertsTheMortonIndex
  intro w h d hd
  refine ⟨fun x y z hx hy hz => ?_, fun hw hh hz n hn => ?_⟩
  · have hgather (a : Axis) := gather_genMasks_index hd (extent x y z) (lt_extent hx hy hz a)
    exact ⟨hgather .x, hgather .y, hgather .z⟩
  · refine genMasks_index_gather hd ?_
    rwa [pow_add, pow_add, two_pow_clog2 hw, two_pow_clog2 hh, two_pow_clog2 hz]

/-- Settles O28: range and injectivity for all admitted extents, and the masks of 3 x 3 by evaluation. -/
theorem mortonIsInjectiveForEveryImage : Obligations.MortonIsInjectiveForEveryImage := by
  unfold Obligations.MortonIsInjectiveForEveryImage
  refine ⟨fun w h d hd => ⟨fun x y z _ _ _ => genMasks_index_lt hd (extent x y z), ?_⟩, by decide⟩
  intro x y z x' y' z' hx hy hz hx' hy' hz' heq
  have hcoord : extent x y z = extent x' y' z' :=
    genMasks_index_inj hd (lt_extent hx hy hz) (lt_extent hx' hy' hz') heq
  exact ⟨congrFun hcoord .x, congrFun hcoord .y, congrFun hcoord .z⟩

/-- Refutes O29: the three indices of a 3 x 1 x 1 image are 0, 1 and 2. -/
theorem not_nonPowerOfTwoAlwaysLeavesTheBuffer : ¬ Obligations.NonPowerOfTwoAlwaysLeavesTheBuffer := by
  unfold Obligations.NonPowerOfTwoAlwaysLeavesTheBuffer
  intro hclaim
  have hd : DimsAdmitted 3 1 1 := ⟨by decide, by decide, by decide, by decide⟩
  have hpow : ¬ ∃ k, 3 = 2 ^ k := (ispow2_iff 3).not.1 (by decide)
  have hindices : ∀ x < 3, morton (genMasks 3 1 1).mx (genMasks 3 1 1).my (genMasks 3 1 1).mz x 0 0 = x := by decide
  obtain ⟨x, y, z, hx, hy, hz, hpast⟩ := hclaim 3 1 1 hd (.inl hpow)
  obtain rfl := Nat.lt_one_iff.1 hy
  obtain rfl := Nat.lt_one_iff.1 hz
  rw [hindices x hx] at hpast
  omega

end Sys2Proof.Machine
end

section
/-!
PROOFS. O43, MemWrite and MemRead (20_memory.md R47); O40, the record BUILD_HEADER writes
(44_texture_header_serializer.md R113 to R116); O42, the output stream in either order (R117).
-/

namespace Sys2Proof.Machine

/-! ### Little-endian values -/

/-- R47: a value's low n bytes, put together again. -/
theorem sum_bytes (v n : Nat) :
    ((List.range n).map fun k => (BitVec.ofNat 8 (v >>> (8 * k))).toNat * 2 ^ (8 * k)).sum = v % 2 ^ (8 * n) := by
  induction n with
  | zero => simp [Nat.mod_one]
  | succ n ih =>
    rw [List.range_succ, List.map_append, List.sum_append, ih, List.map_singleton, List.sum_singleton,
      BitVec.toNat_ofNat, Nat.shiftRight_eq_div_pow, Nat.mul_succ, pow_add, Nat.mod_mul, Nat.mul_comm (2 ^ (8 * n))]

/-- Settles O43: what MemWrite leaves, byte by byte, and the sum of those bytes. -/
theorem memWriteIsLittleEndian : Obligations.MemWriteIsLittleEndian := by
  unfold Obligations.MemWriteIsLittleEndian
  intro m a n v hm hn
  obtain ⟨-, hread⟩ := Memory.writeLE_spec hm v hn
  have hbyte : ∀ k, k < n → (m.writeLE a n v).read (a + k) = BitVec.ofNat 8 (v >>> (8 * k)) := fun k hk => by
    rw [hread, if_pos (by omega), Nat.add_sub_cancel_left]
  refine ⟨?_, hbyte, fun x hx => by rw [hread, if_neg (by omega)], rfl⟩
  rw [← sum_bytes, Memory.readLE]
  exact congrArg List.sum (List.map_congr_left fun k hk => by rw [hbyte k (List.mem_range.1 hk)])

/-! ### The header record -/

/-- R116: byte k of field i is one of the header's writes, at its place. -/
theorem mem_headerWrites {a i k : Nat} (f : HeaderRecord) (hi : i < 9) (hk : k < 4) :
    (a + 4 * i + k, byteOfWord (f.toList.getD i 0) k) ∈ headerWrites a f := by
  have hi : i < f.toList.length := hi
  refine List.mem_flatMap.2 ⟨(f.toList.getD i 0, i), ?_, List.mem_map.2 ⟨k, List.mem_range.2 hk, rfl⟩⟩
  rw [List.mem_zipIdx_iff_getElem?, List.getD_eq_getElem _ _ hi]
  exact List.getElem?_eq_getElem hi

/-- The record BUILD_HEADER builds (R114, R115). -/
def builtRecord (s : State) : HeaderRecord := headerFields (BitVec.ofNat 32 (headerTotal s))

/-- What a completed BUILD_HEADER leaves (R113, R78): the record in HDR0 to HDR8 and in memory. -/
def headerBuilt (s : State) : State :=
  { s with
    mem := writeHeader s.regs.hdrBase.toNat (builtRecord s) s.mem
    regs := { s.regs with hdr := builtRecord s }
    status := { s.status with lastOp := 0x05, err := 0x00 } }

theorem headerBuilt_mem (s : State) :
    (headerBuilt s).mem = writeHeader s.regs.hdrBase.toNat (builtRecord s) s.mem := by
  rw [headerBuilt]

theorem HeaderAdmitted.exec_headerBuilt {s : State} (h : HeaderAdmitted s) (hs : s.status.fatal = false)
    (hserves : Serves s.platform (headerFootprint s).touched) : exec .buildHeader s = .next (headerBuilt s) :=
  exec_served (i := .buildHeader) hs h ((footprint_buildHeader_admitted hs h).symm ▸ hserves)

/-- Settles O40: the fields are the record's by definition, and each of their bytes is one of the header's writes. -/
theorem buildHeaderWritesTheRecord : Obligations.BuildHeaderWritesTheRecord := by
  unfold Obligations.BuildHeaderWritesTheRecord
  intro s hm hs h hserves f
  have hf : (builtRecord s).toList = f := rfl
  have hwritten := h.writeHeader (builtRecord s) hm
  have hbyte {i k : Nat} (hi : i < 9) (hk : k < 4) := hwritten.written _ (mem_headerWrites (builtRecord s) hi hk)
  refine ⟨writeHeader s.regs.hdrBase.toNat (builtRecord s) s.mem, builtRecord s, h.exec_headerBuilt hs hserves, hf,
    fun i k hi hk => hf ▸ hbyte hi hk, fun a ha => hwritten.kept a ?_⟩
  rw [map_fst_headerWrites, mem_headerFootprint_writes, Set.mem_Ico]
  omega

/-! ### The output stream -/

/-- Byte writes after byte writes that meet none of them. -/
theorem Memory.WrittenBy.append {ws ws' : List (Nat × Byte)} {m m₁ m₂ : Memory} (h₁ : WrittenBy ws m m₁)
    (h₂ : WrittenBy ws' m₁ m₂) (hapart : ∀ p ∈ ws, p.1 ∉ ws'.map Prod.fst) : WrittenBy (ws ++ ws') m m₂ := by
  refine ⟨h₂.wf, List.forall_mem_append.2 ⟨fun p hp => ?_, h₂.written⟩, fun x hx => ?_⟩
  · rw [h₂.kept _ (hapart p hp), h₁.written p hp]
  · rw [List.map_append, List.mem_append, not_or] at hx
    rw [h₂.kept x hx.2, h₁.kept x hx.1]

/-- Moves fetch the same bytes from memories that differ off their sources. -/
theorem fetched_congr {ms : List (Nat × Nat)} {m m' : Memory} {as : List Nat} (h : SameOutside as m m')
    (hms : ∀ p ∈ ms, p.1 ∉ as) : fetched m' ms = fetched m ms :=
  List.map_congr_left fun p hp => by rw [h _ (hms p hp)]

/-- R117: CopyAll and the header's writes commute where the header meets neither the source nor the destination. -/
theorem writeHeader_copyAll_comm {s : State} (hadm : TransformAdmitted s) (hhead : HeaderAdmitted s) (f : HeaderRecord)
    (hreads : ∀ a ∈ (transformJob s).footprint.reads, a ∉ (headerFootprint s).writes)
    (hwrites : ∀ a ∈ (transformJob s).footprint.writes, a ∉ (headerFootprint s).writes) {m : Memory} (hm : m.Wf) :
    writeHeader s.regs.hdrBase.toNat f ((transformJob s).copyAll m) =
      (transformJob s).copyAll (writeHeader s.regs.hdrBase.toNat f m) := by
  have hcopied := hadm.copyAll hm
  have hheaded := hhead.writeHeader f hm
  have hsame : fetched (writeHeader s.regs.hdrBase.toNat f m) (transformJob s).moves =
      fetched m (transformJob s).moves :=
    fetched_congr hheaded.kept fun p hp => hreads _ (CopyJob.mem_reads_of_mem_moves hp)
  have hdst : ∀ p ∈ fetched m (transformJob s).moves, p.1 ∈ (transformJob s).footprint.writes := fun p hp => by
    rw [← CopyJob.map_snd_moves, ← map_fst_fetched m]
    exact List.mem_map_of_mem hp
  have hcopyFirst := hcopied.append (hhead.writeHeader f hcopied.wf) fun p hp => hwrites _ (hdst p hp)
  have hheadFirst := hheaded.append (hsame ▸ hadm.copyAll hheaded.wf) fun p hp hin => by
    obtain ⟨q, hq, heq⟩ := List.mem_map.1 hin
    exact hwrites _ (hdst q hq) (heq ▸ map_fst_headerWrites s f ▸ List.mem_map_of_mem hp)
  exact hcopyFirst.unique (hheadFirst.perm List.perm_append_comm)

theorem transformed_mem (s : State) : (transformed s).mem = (transformJob s).copyAll s.mem := by rw [transformed]

/-- Settles O42: each command admits and serves what the other leaves, and their memory effects commute. -/
theorem outputStreamInEitherOrder : Obligations.OutputStreamInEitherOrder := by
  unfold Obligations.OutputStreamInEitherOrder
  intro s hm hs hadm hhead hdst hlen hserves hserves' hsrc
  have hadm' : TransformAdmitted (headerBuilt s) :=
    (transformChecks_none_iff (headerBuilt s)).1 ((transformChecks_none_iff s).2 hadm)
  have hhead' : HeaderAdmitted (transformed s) :=
    (headerChecks_none_iff (transformed s)).1 ((headerChecks_none_iff s).2 hhead)
  have hfoot : (footprint .transform (headerBuilt s)).touched = (footprint .transform s).touched := by
    rw [footprint_transform_admitted hs hadm, footprint_transform_admitted (s := headerBuilt s) hs hadm']
    rfl
  rw [footprint_buildHeader_admitted hs hhead] at hserves'
  refine ⟨transformed s, headerBuilt (transformed s), headerBuilt s, transformed (headerBuilt s),
    hadm.exec_transformed hs hserves, hhead'.exec_headerBuilt rfl hserves', hhead.exec_headerBuilt hs hserves',
    hadm'.exec_transformed hs (hfoot ▸ hserves), rfl, rfl, rfl, rfl, ?_, rfl, ?_⟩
  · have hoff {a : Nat} (ha : a ∈ (headerFootprint s).writes) :
        s.regs.hdrBase.toNat ≤ a ∧ a < s.regs.hdrBase.toNat + 36 := mem_headerFootprint_writes.1 ha
    have hcomm := writeHeader_copyAll_comm hadm hhead (builtRecord s)
      (fun a ha hin => by have := hadm.reads_region ha; have := hoff hin; omega)
      (fun a ha hin => by have := hadm.writes_region ha; have := hoff hin; omega) hm
    rw [headerBuilt_mem, transformed_mem, transformed_mem, headerBuilt_mem]
    exact hcomm
  · have htotal : (BitVec.ofNat 32 (headerTotal s)).toNat = 36 + s.regs.payloadLen.toNat :=
      toNat_ofNat_of_lt (Nat.lt_succ_of_le hhead.total)
    rw [← hlen]
    exact htotal

end Sys2Proof.Machine
end

section
/-!
PROOFS. O1, O2 and O4, the command words a host writes (30_encoding.md R61 to R63, 20_memory.md R44); O9, the layout of
STATUS (10_state.md R18); O55, power-up (70_reset_and_hazards.md R136).
-/

namespace Sys2Proof.Machine

/-! ### Command words -/

/-- Settles O1: each word is its command's encoding. -/
theorem theSixCommandWordsDecode : Obligations.TheSixCommandWordsDecode := by
  unfold Obligations.TheSixCommandWordsDecode
  exact ⟨decodeWord_encodeWord .nop, decodeWord_encodeWord .genMasks, decodeWord_encodeWord .calcAddr,
    decodeWord_encodeWord .permutePixel, decodeWord_encodeWord .transform, decodeWord_encodeWord .buildHeader, rfl, rfl⟩

/-- R44: a word's four bytes decode as the word. -/
theorem decodeBytes_byteOfWord (w : Word) : decodeBytes ((List.range 4).map (byteOfWord w)) = decodeWord w :=
  congrArg decodeWord (wordOfBytes_byteOfWord w)

/-- R61: a 32-bit table word decodes as its bits. -/
theorem decodeTableWord_toNat {w : Word} {i : Instr} (h : decodeWord w = .ok i) :
    decodeTableWord 32 w.toNat = some i := by
  have hlt : w.toNat % 2 ^ 32 < 2 ^ 32 := Nat.mod_lt _ (by decide)
  have hword : BitVec.ofNat 32 (w.toNat % 2 ^ 32) = w := by
    rw [Nat.mod_eq_of_lt w.isLt, BitVec.ofNat_toNat, BitVec.setWidth_eq]
  simp only [decodeTableWord, if_pos hlt, hword, decodeBytes_byteOfWord, h]

/-- Settles O2: the three forms of a word decode alike. -/
theorem decodeOfEncodeIsTheCommand : Obligations.DecodeOfEncodeIsTheCommand := by
  unfold Obligations.DecodeOfEncodeIsTheCommand
  intro i _
  have hword := decodeWord_encodeWord i
  exact ⟨hword, (decodeBytes_byteOfWord _).trans hword, decodeTableWord_toNat hword⟩

/-- Settles O4: a CMD write's step is its `commandWrite`. -/
theorem stepRunsTheDecodedCommand : Obligations.StepRunsTheDecodedCommand := by
  unfold Obligations.StepRunsTheDecodedCommand
  intro s w i rest hw hin
  rw [step_cmdWrite hin, commandWrite, hw]
  rfl

/-! ### STATUS -/

/-- A field of a word, as a number. -/
theorem extractLsb'_eq_iff {w : Word} {start len : Nat} {x : BitVec len} :
    w.extractLsb' start len = x ↔ w.toNat / 2 ^ start % 2 ^ len = x.toNat := by
  rw [BitVec.toNat_eq, BitVec.extractLsb'_toNat, Nat.shiftRight_eq_div_pow]

/-- Settles O9: the fields of the sum that the word is. -/
theorem statusWordHasItsFields : Obligations.StatusWordHasItsFields := by
  unfold Obligations.StatusWordHasItsFields
  intro s
  have hvalid := s.status.maskValid.toNat_lt
  have hfatal := s.status.fatal.toNat_lt
  have herr := s.status.err.isLt
  have htbits := s.status.tbits.isLt
  have hop := s.status.lastOp.isLt
  have hzero (n : Nat) : (0 : BitVec n).toNat = 0 := rfl
  simp only [readReg, extractLsb'_eq_iff, Status.word_toNat, BitVec.toNat_ofBool, hzero]
  omega

/-! ### Power-up -/

/-- R18, R136: the free STATUS is the free word with the reserved bits 0, bit by bit. -/
theorem freeStatus_word (k : Nat) : (freeStatus k).word = Config.freeWord k Reg.status.offset &&& 0xFF3FFF03 := by
  refine BitVec.eq_of_getLsbD_eq fun i hi => ?_
  simp only [Status.word, freeStatus, Reg.offset, BitVec.getLsbD_append, BitVec.getLsbD_and, BitVec.getLsbD_ofBool,
    BitVec.getLsbD_extractLsb', BitVec.getLsbD_zero]
  interval_cases i <;> simp

/-- Settles O55: one free draw fills every register, and the reset after it clears them. -/
theorem powerUpFreesTheRegistersUntilReset : Obligations.PowerUpFreesTheRegistersUntilReset := by
  unfold Obligations.PowerUpFreesTheRegistersUntilReset
  intro s rest hin
  refine ⟨_, _, step_powerUp hin, step_reset rfl, fun r hcmd hstatus => ?_, rfl, freeStatus_word _, rfl,
    readReg_of_reset rfl rfl, rfl⟩
  cases r with
  | cmd => exact absurd rfl hcmd
  | status => exact absurd rfl hstatus
  | _ => rfl

end Sys2Proof.Machine
end
